-- ==== Sys2Proof/Word.lean ====
section
/-! DEFINITION. The bit vectors of the machine: a byte (00_scope.md R11), a 32-bit register or command word
(30_encoding.md R90), a 16-bit window address (20_memory.md R60), a 16-byte block read as the 128-bit number
`int(B)` (00_scope.md R13), and the byte strings of 00_scope.md R12. -/

namespace Sys2Proof

/-- A byte; bit 7 is the most significant (00_scope.md R11). -/
abbrev Byte := BitVec 8

/-- A 32-bit register value or command word (10_state.md section 5, 30_encoding.md R90). -/
abbrev Word := BitVec 32

/-- One of the 65536 byte addresses of the window (20_memory.md R60). -/
abbrev Addr := BitVec 16

/-- A byte string, first byte first (00_scope.md R12). -/
abbrev Bytes := List Byte

/-- A block `B`, held as the number `int(B)`: byte 0 is its most significant byte (00_scope.md R13). -/
abbrev Block := BitVec 128

end Sys2Proof
end

