-- ==== Sys2Proof/Syntax.lean ====
section
/-! DEFINITION. The ten commands of the SIVCORE command set, version 1 (30_encoding.md R93), one constructor per row of
spec/opcode_table.json. Three constructors have another name than their mnemonic because Lean reserves the word:
`newKey` is NEW, `sealMsg` is SEAL, `openMsg` is OPEN. -/

namespace Sys2Proof

/-- A block register index, `b0` to `b3`: every value 0 to 3 names a register (30_encoding.md R94). -/
abbrev RegIdx := Fin 4

/-- A command with its operands (30_encoding.md R93). -/
inductive Instr where
  /-- `DBL rd, rs1` (40_field_doubling.md R121) -/
  | dbl (rd rs1 : RegIdx)
  /-- `XOR rd, rs1, rs2` (41_vector_byte_ops.md R133) -/
  | xor (rd rs1 rs2 : RegIdx)
  /-- `XOREND rs1` (41_vector_byte_ops.md R134) -/
  | xorend (rs1 : RegIdx)
  /-- `PAD rd` (41_vector_byte_ops.md R135) -/
  | pad (rd : RegIdx)
  /-- `CTRSEED rd, rs1` (43_iv_to_counter_seed.md R171) -/
  | ctrseed (rd rs1 : RegIdx)
  /-- `CTR rs1` (44_aead.md R186) -/
  | ctr (rs1 : RegIdx)
  /-- `S2V rd` (42_s2v.md R152) -/
  | s2v (rd : RegIdx)
  /-- `NEW` (44_aead.md R188) -/
  | newKey
  /-- `SEAL` (44_aead.md R191) -/
  | sealMsg
  /-- `OPEN` (44_aead.md R196) -/
  | openMsg
deriving DecidableEq, Repr

/-- The five formats: which register fields a command uses (30_encoding.md R91). -/
inductive Format where
  | Z | D | S | DS | DSS
deriving DecidableEq, Repr

end Sys2Proof
end

