-- ==== Sys2Proof/WellFormed.lean ====
section
/-! DEFINITION. When a command word is well formed: the rows of the opcode map as `op` and mask (30_encoding.md R91,
R93), and the check that a word matches a row. A term of `Instr` needs no check of its own: its register indices are
`Fin 4`, and every index is legal (R94); what can be ill formed on this hardware is the word (R95). -/

namespace Sys2Proof

/-- The mask of a format: a 1 at every bit that is fixed (30_encoding.md R91). -/
def Format.mask : Format → Word
  | .Z => 0xFFFFFFFF#32
  | .D => 0xFFFFFCFF#32
  | .S => 0xFFFFCFFF#32
  | .DS => 0xFFFFCCFF#32
  | .DSS => 0xFFFCCCFF#32

/-- A row of the opcode map. -/
structure OpRow where
  mnemonic : String
  op : Word
  format : Format
deriving DecidableEq, Repr

/-- The opcode map (30_encoding.md R93). -/
def opRows : List OpRow :=
  [ ⟨"DBL", 0x01#32, .DS⟩, ⟨"XOR", 0x02#32, .DSS⟩, ⟨"XOREND", 0x03#32, .S⟩, ⟨"PAD", 0x04#32, .D⟩,
    ⟨"CTRSEED", 0x05#32, .DS⟩, ⟨"CTR", 0x06#32, .S⟩, ⟨"S2V", 0x07#32, .D⟩,
    ⟨"NEW", 0x10#32, .Z⟩, ⟨"SEAL", 0x11#32, .Z⟩, ⟨"OPEN", 0x12#32, .Z⟩ ]

/-- The word matches the row: `w & mask = op` (30_encoding.md R91). -/
def OpRow.accepts (r : OpRow) (w : Word) : Bool := (w &&& r.format.mask) == r.op

/-- The word is the word of some command; every other word is illegal (30_encoding.md R92, R95). -/
def wordWellFormed (w : Word) : Bool := opRows.any fun r => r.accepts w

end Sys2Proof
end

