-- ==== Sys2Proof/Decode.lean ====
section
/-! DEFINITION. `Decode(w)`, total on any 32-bit word (30_encoding.md R92), the encoder from the same table (R90, R93),
and the host's reading of a table word. -/

namespace Sys2Proof

/-- Why a word is illegal, in the order R92 asks: the operation code is none of the ten, or a bit that the format
fixes to 0 is set. Both end `ILLEGAL_CMD` and no state tells them apart (30_encoding.md R95). -/
inductive Illegal where
  | unassignedOpcode (op : BitVec 8)
  | fixedBitSet (op : BitVec 8)
deriving DecidableEq, Repr

/-- Field `op`, bits 7:0 (30_encoding.md R90). -/
def opField (w : Word) : BitVec 8 := w.extractLsb' 0 8

/-- Field `rd`, bits 9:8 (30_encoding.md R90). -/
def rdField (w : Word) : RegIdx := ⟨(w.extractLsb' 8 2).toNat, (w.extractLsb' 8 2).isLt⟩

/-- Field `rs1`, bits 13:12 (30_encoding.md R90). -/
def rs1Field (w : Word) : RegIdx := ⟨(w.extractLsb' 12 2).toNat, (w.extractLsb' 12 2).isLt⟩

/-- Field `rs2`, bits 17:16 (30_encoding.md R90). -/
def rs2Field (w : Word) : RegIdx := ⟨(w.extractLsb' 16 2).toNat, (w.extractLsb' 16 2).isLt⟩

/-- The bits a command of the format fixes: all but the register fields it uses (30_encoding.md R91). -/
def fixedMask : Format → Word
  | .Z => 0xFFFFFFFF#32
  | .D => 0xFFFFFCFF#32
  | .S => 0xFFFFCFFF#32
  | .DS => 0xFFFFCCFF#32
  | .DSS => 0xFFFCCCFF#32

/-- The command of a known code, if the bits its format fixes are as they must be (30_encoding.md R92). -/
def underMask (f : Format) (op w : Word) (i : Instr) : Except Illegal Instr :=
  if w &&& fixedMask f = op then .ok i else .error (.fixedBitSet (opField w))

/-- `Decode(w)` (30_encoding.md R92): the code first, then the mask of its format, then the fields. -/
def decode (w : Word) : Except Illegal Instr :=
  match (opField w).toNat with
  | 0x01 => underMask .DS 0x01#32 w (.dbl (rdField w) (rs1Field w))
  | 0x02 => underMask .DSS 0x02#32 w (.xor (rdField w) (rs1Field w) (rs2Field w))
  | 0x03 => underMask .S 0x03#32 w (.xorend (rs1Field w))
  | 0x04 => underMask .D 0x04#32 w (.pad (rdField w))
  | 0x05 => underMask .DS 0x05#32 w (.ctrseed (rdField w) (rs1Field w))
  | 0x06 => underMask .S 0x06#32 w (.ctr (rs1Field w))
  | 0x07 => underMask .D 0x07#32 w (.s2v (rdField w))
  | 0x10 => underMask .Z 0x10#32 w .newKey
  | 0x11 => underMask .Z 0x11#32 w .sealMsg
  | 0x12 => underMask .Z 0x12#32 w .openMsg
  | _ => .error (.unassignedOpcode (opField w))

/-- A register index in the field whose lowest bit is `lo`. -/
def regField (r : RegIdx) (lo : Nat) : Word := BitVec.ofNat 32 r.val <<< lo

/-- The word of a command: `op`, `rd` at bit 8, `rs1` at bit 12, `rs2` at bit 16, all other bits 0
(30_encoding.md R90, R93). -/
def encode : Instr → Word
  | .dbl rd rs1 => 0x01#32 ||| regField rd 8 ||| regField rs1 12
  | .xor rd rs1 rs2 => 0x02#32 ||| regField rd 8 ||| regField rs1 12 ||| regField rs2 16
  | .xorend rs1 => 0x03#32 ||| regField rs1 12
  | .pad rd => 0x04#32 ||| regField rd 8
  | .ctrseed rd rs1 => 0x05#32 ||| regField rd 8 ||| regField rs1 12
  | .ctr rs1 => 0x06#32 ||| regField rs1 12
  | .s2v rd => 0x07#32 ||| regField rd 8
  | .newKey => 0x10#32
  | .sealMsg => 0x11#32
  | .openMsg => 0x12#32

/-- The command word the host's numbering of a table row stands for: one 32-bit word, bit 0 its least significant
bit, every bit at or above `nbits` 0. -/
def tableWord (nbits w : Nat) : Word := BitVec.ofNat 32 (w % 2 ^ nbits)

/-- The instruction the decoder reads from an instruction whose bits are `w`; there is one command length, 32 bits
(30_encoding.md R90, R96), so a row given more bits than that names no command. -/
def decodeTableWord (nbits w : Nat) : Option Instr :=
  if nbits ≤ 32 then
    match decode (tableWord nbits w) with
    | .ok i => some i
    | .error _ => none
  else none

end Sys2Proof
end

