-- ==== Sys2Proof/Config.lean ====
section
/-! DEFINITION. What is fixed for a machine (00_scope.md R9, 10_state.md R50): the capacities of this hardware and the
three collaborators `E`, `H`, `KeyValid` (45_collaborators.md). The collaborators are uninterpreted constants: nothing
in Lean can evaluate them, so what is proved holds for every block cipher, every keyed hash and every verdict on keys
(45_collaborators.md R226). -/

namespace Sys2Proof

/-- The collaborators a build is wired to (45_collaborators.md R220 to R224). Every function of the construction takes
one of these as an argument, and so do the commands, the step and the machine itself (`execWith`, `stepWith`,
`coreWith`); `exec`, `step` and `core` are those at `Config.wired`. -/
structure Collaborators where
  /-- `E(K, X)`: block-cipher encryption of one block (R221). -/
  E : Bytes → Block → Block
  /-- `H(K, M)`: the keyed hash of a whole byte string from a fresh state (R222, R223). -/
  H : Bytes → Bytes → Block
  /-- `KeyValid(K)`: the algorithm constructor's verdict on a key (R224). -/
  keyValid : Bytes → Bool

/-- What the core requires of `KeyValid`: false at length 0 and above 32 bytes, and nothing else
(45_collaborators.md R224; 93_implementation_defined.md U3). -/
abbrev Collaborators.Legal (C : Collaborators) : Prop :=
  ∀ K : Bytes, C.keyValid K = true → 0 < K.length ∧ K.length ≤ 32

namespace Config

/-- `BLK`, the block size in bytes; also `Overhead()` (00_scope.md R9, R10). -/
@[simp] abbrev blk : Nat := 16
/-- `KMAX`, the largest sub-key length in bytes. -/
@[simp] abbrev kMax : Nat := 32
/-- `KBUFCAP`, the capacity of the key staging buffer. -/
@[simp] abbrev kbufCap : Nat := 64
/-- `NAD`, the number of associated-data slots. -/
@[simp] abbrev nAd : Nat := 8
/-- `ADCAP`, the capacity of one associated-data slot. -/
@[simp] abbrev adCap : Nat := 256
/-- `NONCECAP`, the capacity of the nonce slot. -/
@[simp] abbrev nonceCap : Nat := 64
/-- `INCAP`, the capacity of the input buffer. -/
@[simp] abbrev inCap : Nat := 4112
/-- `OUTCAP`, the capacity of the output buffer. -/
@[simp] abbrev outCap : Nat := 4128

/-- `E` of the build (93_implementation_defined.md U1: a parameter; log entry 2). -/
opaque blockCipher : Bytes → Block → Block

/-- `H` of the build (93_implementation_defined.md U2: a parameter; log entry 2). -/
opaque keyedHash : Bytes → Bytes → Block

/-- The algorithm's verdict on keys, before the bounds of R224 (93_implementation_defined.md U3; log entry 3). -/
opaque keyVerdict : Bytes → Bool

/-- `KeyValid` of the build: false at length 0 and above 32 (45_collaborators.md R224), and otherwise whatever the
algorithm says. -/
def keyValid (K : Bytes) : Bool := decide (0 < K.length) && decide (K.length ≤ kMax) && keyVerdict K

/-- The collaborators this machine is wired to (45_collaborators.md R220: chosen when the hardware is built). -/
def wired : Collaborators := { E := blockCipher, H := keyedHash, keyValid := keyValid }

end Config

end Sys2Proof
end

