-- ==== Sys2Proof/Machine/State.lean ====
section
/-! DEFINITION. The whole architectural state (10_state.md R20), as plain data, its reset value (10_state.md R48), the
result codes (60_exceptions.md R240), and the events of the host (20_memory.md R65). Registers hold their listed fields
only: reserved bits are not stored (10_state.md R47). The buffers `KBUF`, `NONCE`, `AD`, `IN`, `OUT` are bytes of one
memory, keyed by window address (20_memory.md R63). -/

namespace Sys2Proof.Machine

/-- The result codes of `RES.CODE`; no other value ever occurs (60_exceptions.md R240). -/
inductive Code where
  | ok
  | keyError
  | authError
  | illegalCmd
  | notKeyed
  | lenError
deriving DecidableEq, Repr

/-- The stored fields of `ADCTL[i]` and of `NONCECTL`: `PRESENT` (bit 31) and `LEN` (bits 15:0)
(10_state.md R36, R38). -/
structure Slot where
  present : Bool
  len : BitVec 16
deriving DecidableEq, Repr

/-- One thing the host can do: a bus read or write of 1, 2 or 4 bytes (20_memory.md R65, named as in 30_encoding.md
R99), or a reset (70_reset_and_hazards.md R270). The value of a write has as many bits as the access has. -/
inductive HostEvent where
  | rd8 (addr : Addr)
  | rd16 (addr : Addr)
  | rd32 (addr : Addr)
  | wr8 (addr : Addr) (v : BitVec 8)
  | wr16 (addr : Addr) (v : BitVec 16)
  | wr32 (addr : Addr) (v : BitVec 32)
  | reset
deriving DecidableEq, Repr

/-- What the host is answered for one event: the value a read returned, zero-extended to 32 bits, the acceptance of a
write, a bus error (20_memory.md R70), or that the reset took place. -/
inductive Response where
  | readValue (v : Word)
  | writeAccepted
  | busError
  | resetTaken
deriving DecidableEq, Repr

/-- The architectural state of SIVCORE, and the two lists the model adds for the host (log entry 1). -/
structure State where
  /-- `K1`, the hash key: `KLEN` bytes (R20, R32). -/
  k1 : Bytes
  /-- `K2`, the encryption key: `KLEN` bytes (R20, R32). -/
  k2 : Bytes
  /-- `STATUS.KEYED` (R29). -/
  keyed : Bool
  /-- `STATUS.KLEN` (R29). -/
  klen : BitVec 8
  /-- `RES.CODE` (R28). -/
  res : Code
  /-- `KBUFLEN.LEN` (R30). -/
  kbufLen : BitVec 8
  /-- `ADCNT.N` (R35). -/
  adcnt : BitVec 8
  /-- `ADCTL[0..7]` (R36). -/
  adctl : Vector Slot 8
  /-- `NONCECTL` (R38). -/
  nonceCtl : Slot
  /-- `INLEN.LEN` (R40). -/
  inLen : BitVec 16
  /-- `OUTLEN.LEN` (R42). -/
  outLen : BitVec 16
  /-- `B[0..3]` (R24). -/
  blocks : Vector Block 4
  /-- The bytes of `KBUF`, `NONCE`, `AD`, `IN`, `OUT` by window address (R31, R37, R39, R41, R43; 20_memory.md R63):
  addresses strictly rising, a byte of value 0x00 not listed. -/
  mem : List Host.Cell
  /-- The model's own: the host events not yet taken, oldest first (log entry 1). -/
  pending : List HostEvent
  /-- The model's own: the answers given to the host, oldest first (log entry 1). -/
  responses : List Response
deriving DecidableEq, Repr

/-- Why the machine stops with a fault: never. A fault of a command is a code in `RES` after which the core accepts the
next command at once (60_exceptions.md R244, R250), a bus error is an answer to the host (20_memory.md R70), and the
hardware never halts (70_reset_and_hazards.md R287). The type has no constructor (log entry 12): safe, nothing the
spec defines is stopped. -/
inductive Fault where
deriving DecidableEq, Repr

/-- Why an instruction has no meaning. -/
inductive Refusal where
  /-- Raised only by an arm of `exec` whose instruction has no meaning yet; no arm does. Safe: the machine stops. -/
  | notModelled (mnemonic : String)
deriving DecidableEq, Repr

/-- The state after reset: every value of 10_state.md R48 (70_reset_and_hazards.md R270). "No key" is the empty key of
`KLEN` = 0 bytes (log entry 4); no byte of memory is listed, so every buffer byte is 0x00. -/
def State.reset : State where
  k1 := []
  k2 := []
  keyed := false
  klen := 0#8
  res := .ok
  kbufLen := 0#8
  adcnt := 0#8
  adctl := Vector.replicate 8 { present := false, len := 0#16 }
  nonceCtl := { present := false, len := 0#16 }
  inLen := 0#16
  outLen := 0#16
  blocks := Vector.replicate 4 0#128
  mem := []
  pending := []
  responses := []

end Sys2Proof.Machine
end

