-- ==== Sys2Proof/Machine/Flags.lean ====
section
/-! DEFINITION. The status a host can test and the field layout of the control registers (10_state.md R26 to R42): the
number of a result code, and each register's 32-bit value from its stored fields and back. -/

namespace Sys2Proof.Machine

/-- The number of a result code (60_exceptions.md R240). -/
def Code.value : Code → BitVec 8
  | .ok => 0x00#8
  | .keyError => 0x01#8
  | .authError => 0x02#8
  | .illegalCmd => 0x10#8
  | .notKeyed => 0x11#8
  | .lenError => 0x12#8

/-- `RES`: `CODE` in bits 7:0, the rest 0 (10_state.md R28). -/
def resWord (s : State) : Word := s.res.value.setWidth 32

/-- `STATUS`: `KEYED` in bit 0, `KLEN` in bits 15:8, the rest 0 (10_state.md R29). -/
def statusWord (s : State) : Word := (s.klen.setWidth 32 <<< 8) ||| (if s.keyed then 1#32 else 0#32)

/-- `ADCTL[i]` and `NONCECTL`: `PRESENT` in bit 31, `LEN` in bits 15:0, the rest 0 (10_state.md R36, R38). -/
def slotWord (c : Slot) : Word := (if c.present then 0x80000000#32 else 0#32) ||| c.len.setWidth 32

/-- The fields stored by a write to `ADCTL[i]` or `NONCECTL`; reserved bits are ignored (10_state.md R36, R47). -/
def slotOfWord (v : Word) : Slot := { present := v.getLsbD 31, len := v.extractLsb' 0 16 }

/-- A register that stores bits 7:0 only: `KBUFLEN.LEN`, `ADCNT.N` (10_state.md R30, R35, R47). -/
def lowByte (v : Word) : BitVec 8 := v.extractLsb' 0 8

/-- A register that stores bits 15:0 only: `INLEN.LEN` (10_state.md R40, R47). -/
def lowHalf (v : Word) : BitVec 16 := v.extractLsb' 0 16

end Sys2Proof.Machine
end

