-- ==== Sys2Proof/Machine/AddressMap.lean ====
section
/-! DEFINITION. The address map of the window and which accesses it accepts (20_memory.md R60, R61, R68 to R70). -/

namespace Sys2Proof.Machine

/-- What stands in a region of the window (20_memory.md R61). -/
inductive Kind where
  | cmd | res | status | nonceSize | overhead | kbufLen | adcnt | nonceCtl | inLen | outLen | adctl
  | blocks | kbuf | nonce | ad | inBuf | outBuf
deriving DecidableEq, Repr

/-- Access rights of a region (20_memory.md R61). -/
inductive Rights where
  | readOnly | writeOnly | readWrite
deriving DecidableEq, Repr

/-- A row of the address map. -/
structure Region where
  kind : Kind
  first : Nat
  size : Nat
  rights : Rights
deriving DecidableEq, Repr

/-- First address of `KBUF`. -/
@[simp] abbrev kbufBase : Nat := 0x0100
/-- First address of `NONCE`. -/
@[simp] abbrev nonceBase : Nat := 0x0200
/-- First address of `AD[i]` (20_memory.md R63). -/
@[simp] abbrev adBase (i : Nat) : Nat := 0x1000 + 256 * i
/-- First address of `IN`. -/
@[simp] abbrev inBase : Nat := 0x2000
/-- First address of `OUT`. -/
@[simp] abbrev outBase : Nat := 0x4000

/-- The address map; every address in no row is unmapped (20_memory.md R61). -/
def addressMap : List Region :=
  [ ⟨.cmd, 0x0000, 4, .writeOnly⟩, ⟨.res, 0x0004, 4, .readOnly⟩, ⟨.status, 0x0008, 4, .readOnly⟩,
    ⟨.nonceSize, 0x000C, 4, .readOnly⟩, ⟨.overhead, 0x0010, 4, .readOnly⟩, ⟨.kbufLen, 0x0014, 4, .readWrite⟩,
    ⟨.adcnt, 0x0018, 4, .readWrite⟩, ⟨.nonceCtl, 0x001C, 4, .readWrite⟩, ⟨.inLen, 0x0020, 4, .readWrite⟩,
    ⟨.outLen, 0x0024, 4, .readOnly⟩, ⟨.adctl, 0x0040, 32, .readWrite⟩, ⟨.blocks, 0x0080, 64, .readWrite⟩,
    ⟨.kbuf, 0x0100, 64, .writeOnly⟩, ⟨.nonce, 0x0200, 64, .readWrite⟩, ⟨.ad, 0x1000, 2048, .readWrite⟩,
    ⟨.inBuf, 0x2000, 4112, .readWrite⟩, ⟨.outBuf, 0x4000, 4128, .readOnly⟩ ]

/-- The address lies in the region. -/
def Region.contains (r : Region) (a : Nat) : Bool := decide (r.first ≤ a) && decide (a < r.first + r.size)

/-- The region of an address, none if it is unmapped (20_memory.md R61). -/
def regionAt (a : Nat) : Option Region := addressMap.find? fun r => r.contains a

/-- What stands at an address. -/
def kindAt (a : Nat) : Option Kind := (regionAt a).map Region.kind

/-- The control region, `0x0000` to `0x005F` (20_memory.md R61). -/
def isControl (a : Nat) : Bool := decide (a < 0x60)

/-- The access of `n` bytes at `a` gets no bus error: aligned, mapped, and of 4 bytes in the control region
(20_memory.md R70). -/
def accepted (n a : Nat) : Bool := decide (a % n = 0) && (regionAt a).isSome && (!isControl a || n == 4)

/-- The address is a byte of a buffer kept in `State.mem`: `KBUF`, `NONCE`, `AD`, `IN` or `OUT`. -/
def isBuffer (a : Nat) : Bool :=
  match kindAt a with
  | some .kbuf | some .nonce | some .ad | some .inBuf | some .outBuf => true
  | _ => false

/-- Index of the `ADCTL` register at an address: `ADCTL[i]` at `0x0040 + 4*i` (20_memory.md R61). -/
def adctlIndex (a : Nat) : Fin 8 := Fin.ofNat 8 ((a - 0x40) / 4)

/-- Index of the block register at an address: `B[j]` at `0x0080 + 16*j` (20_memory.md R62). -/
def blockIndex (a : Nat) : Fin 4 := Fin.ofNat 4 ((a - 0x80) / 16)

/-- Which byte of its block register stands at an address (20_memory.md R62). -/
def blockByte (a : Nat) : Nat := (a - 0x80) % 16

end Sys2Proof.Machine
end

