-- ==== Sys2Proof/Machine/Bytes.lean ====
section
/-! DEFINITION. Byte order and byte strings: bytes of a block and of a bus word, most significant first
(00_scope.md R12, R13, 20_memory.md R64), and the exclusive or of byte strings (00_scope.md R15). -/

namespace Sys2Proof.Machine

/-- `zeros(n)` (00_scope.md R12). -/
def zeros (n : Nat) : Bytes := List.replicate n 0x00#8

/-- Byte `i` of a block, `0 <= i <= 15`; byte 0 is the most significant (00_scope.md R13). -/
def byteOf (X : Block) (i : Nat) : Byte := X.extractLsb' (8 * (15 - i)) 8

/-- The sixteen bytes of a block, byte 0 first (00_scope.md R13). -/
def blockBytes (X : Block) : Bytes := (List.range 16).map (byteOf X)

/-- The block of sixteen bytes, the first one most significant: `blk` of `int` (00_scope.md R13). -/
def blockOf (X : Bytes) : Block := X.foldl (fun n b => (n <<< 8) ||| b.setWidth 128) 0#128

/-- A block with byte `i` replaced (20_memory.md R62). -/
def setByte (X : Block) (i : Nat) (b : Byte) : Block := blockOf ((blockBytes X).set i b)

/-- `x ^ y`, byte by byte, of two byte strings of equal length (00_scope.md R15). -/
def xorBytes (X Y : Bytes) : Bytes := List.zipWith (fun x y => x ^^^ y) X Y

/-- The byte at address `addr + j` of an access of `n` bytes with value `v`: bits `8*(n-1-j)+7 : 8*(n-1-j)`
(20_memory.md R66). -/
def wordByte (n : Nat) (v : Word) (j : Nat) : Byte := v.extractLsb' (8 * (n - 1 - j)) 8

/-- The value of an access from its bytes, the byte at the lowest address most significant (20_memory.md R67). -/
def wordOf (X : Bytes) : Word := X.foldl (fun n b => (n <<< 8) ||| b.setWidth 32) 0#32

end Sys2Proof.Machine
end

