-- ==== Sys2Proof/Machine/Ops.lean ====
section
/-! DEFINITION. The named operations over memory and registers: bytes of the buffers, block registers, `SetOut`
(10_state.md R46), the named updates of State, and how a command ends: `done` and `raise`
(00_scope.md R15, 60_exceptions.md R244). -/

namespace Sys2Proof.Machine

/-! ### Memory: the bytes of the buffers -/

/-- What a byte reads as when nothing lists it: 0x00, the reset contents of every buffer (10_state.md R48). -/
abbrev Memory.unlisted : Byte := 0x00#8

/-- The canonical form: addresses strictly rising, and no listed byte equal to what an unlisted one reads as. -/
abbrev Memory.wf (m : List Host.Cell) : Prop :=
  m.Pairwise (fun c d => c.1 < d.1) ∧ ∀ c ∈ m, c.2 ≠ Memory.unlisted

/-- The byte at an address. -/
def Memory.read : List Host.Cell → Nat → Byte
  | [], _ => Memory.unlisted
  | (k, b) :: m, a => if k = a then b else Memory.read m a

/-- A memory in which the byte at an address is not listed. -/
def Memory.erase (m : List Host.Cell) (a : Nat) : List Host.Cell := m.filter fun c => c.1 != a

/-- A memory that lists one more byte, at its place in the rising order. -/
def Memory.insert : List Host.Cell → Nat → Byte → List Host.Cell
  | [], a, b => [(a, b)]
  | (k, c) :: m, a, b => if a < k then (a, b) :: (k, c) :: m else (k, c) :: Memory.insert m a b

/-- Write one byte; the value an unlisted byte reads as removes the entry. -/
def Memory.write (m : List Host.Cell) (a : Nat) (b : Byte) : List Host.Cell :=
  if b = Memory.unlisted then Memory.erase m a else Memory.insert (Memory.erase m a) a b

/-- Set the `n` bytes from `base` on to 0x00. -/
def Memory.clear (m : List Host.Cell) (base n : Nat) : List Host.Cell :=
  m.filter fun c => decide (c.1 < base) || decide (base + n ≤ c.1)

/-- `BUF[0..n)` of a buffer whose first address is `base` (20_memory.md R63). -/
def Memory.readBytes (m : List Host.Cell) (base n : Nat) : Bytes :=
  (List.range n).map fun i => Memory.read m (base + i)

/-- Write a byte string from `base` on, its first byte at the lowest address (20_memory.md R63). -/
def Memory.writeBytes : List Host.Cell → Nat → Bytes → List Host.Cell
  | m, _, [] => m
  | m, base, b :: X => Memory.writeBytes (Memory.write m base b) (base + 1) X

/-! ### Named updates of State -/

/-- `RES.CODE <- c`. -/
def State.withRes (s : State) (c : Code) : State := { s with res := c }
/-- `B[j] <- v`. -/
def State.withBlock (s : State) (j : RegIdx) (v : Block) : State := { s with blocks := s.blocks.set j v }
/-- The bytes of the buffers. -/
def State.withMem (s : State) (m : List Host.Cell) : State := { s with mem := m }
/-- `OUTLEN.LEN <- n`. -/
def State.withOutLen (s : State) (n : BitVec 16) : State := { s with outLen := n }
/-- `K1`, `K2`, `STATUS.KEYED` and `STATUS.KLEN`, which only NEW and reset write (10_state.md R29, R32). -/
def State.withInstance (s : State) (a z : Bytes) (keyed : Bool) (klen : BitVec 8) : State :=
  { s with k1 := a, k2 := z, keyed := keyed, klen := klen }
/-- `KBUFLEN.LEN <- n`. -/
def State.withKbufLen (s : State) (n : BitVec 8) : State := { s with kbufLen := n }
/-- `ADCNT.N <- n`. -/
def State.withAdcnt (s : State) (n : BitVec 8) : State := { s with adcnt := n }
/-- `ADCTL[i] <- c`. -/
def State.withAdctl (s : State) (i : Fin 8) (c : Slot) : State := { s with adctl := s.adctl.set i c }
/-- `NONCECTL <- c`. -/
def State.withNonceCtl (s : State) (c : Slot) : State := { s with nonceCtl := c }
/-- `INLEN.LEN <- n`. -/
def State.withInLen (s : State) (n : BitVec 16) : State := { s with inLen := n }
/-- The host events not yet taken. -/
def State.withPending (s : State) (es : List HostEvent) : State := { s with pending := es }
/-- One more answer to the host. -/
def State.respond (s : State) (r : Response) : State := { s with responses := s.responses ++ [r] }

/-! ### Block registers and the output -/

/-- `B[j]` (10_state.md R24). -/
def readBlock (s : State) (j : RegIdx) : Block := s.blocks[j]

/-- `SetOut(X)`, the only way `OUT` and `OUTLEN` change: all of `OUT` is zeroed, `X` stands at its start, and
`OUTLEN.LEN` is the length of `X` (10_state.md R46). -/
def setOut (X : Bytes) (s : State) : State :=
  (s.withMem (Memory.writeBytes (Memory.clear s.mem outBase Config.outCap) outBase X)).withOutLen
    (BitVec.ofNat 16 X.length)

/-- What NEW does first, whatever follows: end the old instance and erase the staging buffer (44_aead.md R188). -/
def eraseInstance (s : State) : State :=
  ((s.withInstance [] [] false 0#8).withMem (Memory.clear s.mem kbufBase Config.kbufCap)).withKbufLen 0#8

/-- What a NEW that succeeds does last: the new pair of sub-keys, `KLEN` = `k`, `KEYED` = 1 (44_aead.md R188). -/
def loadInstance (a z : Bytes) (k : Nat) (s : State) : State := s.withInstance a z true (BitVec.ofNat 8 k)

/-! ### How a command ends -/

/-- `done`: the command ends normally (00_scope.md R15). -/
def done (s : State) : Host.Outcome State Fault Refusal := .next (s.withRes .ok)

/-- `raise <CODE>`: fault entry. It writes `RES.CODE` and ends the command; there is no trap, no saved state, no mode
and no handler, and the next command is accepted at once (60_exceptions.md R244, R250). -/
def raise (c : Code) (s : State) : Host.Outcome State Fault Refusal := .next (s.withRes c)

/-- Go on with the host's answer after an outcome that gave a state. -/
def thenRespond (r : Response) : Host.Outcome State Fault Refusal → Host.Outcome State Fault Refusal
  | .next s => .next (s.respond r)
  | .fault f => .fault f
  | .refused x => .refused x

end Sys2Proof.Machine
end

