-- ==== Sys2Proof/Machine/Bus.lean ====
section
/-! DEFINITION. Bus accesses other than the start of a command: `MemRead` and `MemWrite` of the buffers, the block
registers and the control registers (20_memory.md R65 to R72). Addresses are offsets in the window. -/

namespace Sys2Proof.Machine

/-- The 32-bit value of the control register at an address; `CMD` reads 0, `NONCESIZE` is 0 and `OVERHEAD` is 16
(20_memory.md R68; 10_state.md R27 to R42). -/
def controlRead (a : Nat) (s : State) : Word :=
  match kindAt a with
  | some .cmd => 0#32
  | some .res => resWord s
  | some .status => statusWord s
  | some .nonceSize => 0#32
  | some .overhead => 16#32
  | some .kbufLen => s.kbufLen.setWidth 32
  | some .adcnt => s.adcnt.setWidth 32
  | some .nonceCtl => slotWord s.nonceCtl
  | some .inLen => s.inLen.setWidth 32
  | some .outLen => s.outLen.setWidth 32
  | some .adctl => slotWord s.adctl[adctlIndex a]
  | some .blocks | some .kbuf | some .nonce | some .ad | some .inBuf | some .outBuf | none => 0#32

/-- `byte(a)` as a read sees it: the stored byte of a block register or buffer, 0x00 for every byte of `KBUF`
(20_memory.md R62, R63, R67). -/
def byteRead (s : State) (a : Nat) : Byte :=
  match kindAt a with
  | some .blocks => byteOf s.blocks[blockIndex a] (blockByte a)
  | some .nonce | some .ad | some .inBuf | some .outBuf => Memory.read s.mem a
  | _ => 0x00#8

/-- `MemRead(a, n)`: the value, or none for a bus error (20_memory.md R67, R68, R70). -/
def busRead (n a : Nat) (s : State) : Option Word :=
  if accepted n a then
    some (if isControl a then controlRead a s else wordOf ((List.range n).map fun j => byteRead s (a + j)))
  else none

/-- A 4-byte write to a control register: the listed fields are stored, reserved bits and read-only registers are
ignored (20_memory.md R68; 10_state.md R47). `CMD` stores nothing (10_state.md R27); what a write to it does is
`issueWriteBy`'s to say. -/
def controlWrite (a : Nat) (v : Word) (s : State) : State :=
  match kindAt a with
  | some .kbufLen => s.withKbufLen (lowByte v)
  | some .adcnt => s.withAdcnt (lowByte v)
  | some .nonceCtl => s.withNonceCtl (slotOfWord v)
  | some .inLen => s.withInLen (lowHalf v)
  | some .adctl => s.withAdctl (adctlIndex a) (slotOfWord v)
  | _ => s

/-- A write of one byte of a block register or buffer; `OUT` is read only and ignores it (20_memory.md R66). -/
def byteWrite (a : Nat) (b : Byte) (s : State) : State :=
  match kindAt a with
  | some .blocks => s.withBlock (blockIndex a) (setByte s.blocks[blockIndex a] (blockByte a) b)
  | some .kbuf | some .nonce | some .ad | some .inBuf => s.withMem (Memory.write s.mem a b)
  | _ => s

/-- An accepted write of `n` bytes to a place other than `CMD`: byte `j` of the access goes to `a + j`, most
significant first (20_memory.md R66, R68). -/
def storeWrite (n a : Nat) (v : Word) (s : State) : State :=
  if isControl a then controlWrite a v s
  else (List.range n).foldl (fun t j => byteWrite (a + j) (wordByte n v j) t) s

end Sys2Proof.Machine
end

