-- ==== Sys2Proof/Machine/CounterSeed.lean ====
section
/-! DEFINITION. IV-to-Counter-Seed: the function `ctrseed` and the command CTRSEED (43_iv_to_counter_seed.md). -/

namespace Sys2Proof.Machine

/-- `ctrseed(V)`: `V` with bit 7 of byte 8 and bit 7 of byte 12 cleared, that is bits 63 and 31 of `int(V)`
(43_iv_to_counter_seed.md R170). -/
def ctrseed (V : Block) : Block := V &&& 0xFFFFFFFFFFFFFFFF7FFFFFFF7FFFFFFF#128

/-- CTRSEED rd, rs1 (43_iv_to_counter_seed.md R171). -/
def execCtrseed (rd rs1 : RegIdx) (s : State) : Host.Outcome State Fault Refusal :=
  done (s.withBlock rd (ctrseed (readBlock s rs1)))

end Sys2Proof.Machine
end

