-- ==== Sys2Proof/Machine/FieldDoubling.lean ====
section
/-! DEFINITION. Field-Doubling: the function `dbl` and the command DBL (40_field_doubling.md). -/

namespace Sys2Proof.Machine

/-- `dbl`: shift the block left by one bit, and exclusive-or 0x87 into the last byte when the bit shifted out was 1
(40_field_doubling.md R120, its form on integers; the conditional reading is 90_conflicts.md C3). -/
def dbl (X : Block) : Block := (X <<< 1) ^^^ (if X.msb then 0x87#128 else 0x00#128)

/-- DBL rd, rs1 (40_field_doubling.md R121). -/
def execDbl (rd rs1 : RegIdx) (s : State) : Host.Outcome State Fault Refusal :=
  done (s.withBlock rd (dbl (readBlock s rs1)))

end Sys2Proof.Machine
end

