-- ==== Sys2Proof/Machine/Operands.lean ====
section
/-! DEFINITION. The operands commands take from the state (20_memory.md R80): the item list `Items()` (10_state.md R44),
the input `Input()` (R45) and the staged key material (44_aead.md R188). `none` stands for `LEN_ERROR`. -/

namespace Sys2Proof.Machine

/-- An item: absent, or present with a byte string of any length, 0 included (00_scope.md R14). -/
inductive Item where
  | absent
  | present (X : Bytes)
deriving DecidableEq, Repr

/-- The item a slot spells: its control register, its capacity and the first address of its bytes. The `LEN` of an
absent slot is not looked at (10_state.md R44). -/
def slotItem (m : List Host.Cell) (c : Slot) (cap base : Nat) : Option Item :=
  if c.present then
    if cap < c.len.toNat then none else some (.present (Memory.readBytes m base c.len.toNat))
  else some .absent

/-- The item of `AD[i]` (10_state.md R36, R37). -/
def adItem (s : State) (i : Fin 8) : Option Item := slotItem s.mem s.adctl[i] Config.adCap (adBase i.val)

/-- The item of `NONCE` (10_state.md R38, R39). -/
def nonceItem (s : State) : Option Item := slotItem s.mem s.nonceCtl Config.nonceCap nonceBase

/-- The slot indices in slot order. -/
def slotOrder : List (Fin 8) := [0, 1, 2, 3, 4, 5, 6, 7]

/-- All the items of a list, none if one of them is missing. -/
def collect : List (Option Item) → Option (List Item)
  | [] => some []
  | none :: _ => none
  | some it :: rest =>
    match collect rest with
    | some L => some (it :: L)
    | none => none

/-- `Items()`: the slots `0` to `ADCNT.N - 1` in order, then the nonce, or `LEN_ERROR` (10_state.md R44). -/
def items (s : State) : Option (List Item) :=
  if Config.nAd < s.adcnt.toNat then none
  else collect ((slotOrder.take s.adcnt.toNat).map (adItem s) ++ [nonceItem s])

/-- `Input()`: `IN[0..INLEN.LEN)`, or `LEN_ERROR` (10_state.md R45). -/
def input (s : State) : Option Bytes :=
  if Config.inCap < s.inLen.toNat then none else some (Memory.readBytes s.mem inBase s.inLen.toNat)

/-- `KBUF[0..n)` (44_aead.md R188). -/
def stagedKey (s : State) (n : Nat) : Bytes := Memory.readBytes s.mem kbufBase n

end Sys2Proof.Machine
end

