-- ==== Sys2Proof/Machine/VectorBytes.lean ====
section
/-! DEFINITION. Vector Byte Ops: `xor`, `xorend`, `pad` and the commands XOR, XOREND, PAD (41_vector_byte_ops.md). -/

namespace Sys2Proof.Machine

/-- `xor` of two blocks (41_vector_byte_ops.md R130). -/
def xorBlock (X Y : Block) : Block := X ^^^ Y

/-- `xorend(M, D)`: exclusive-or `D` into the last 16 bytes of `M` (41_vector_byte_ops.md R131). It has a value only
for 16 bytes or more; no caller asks for another (log entry 9). -/
def xorend (M : Bytes) (D : Block) : Bytes :=
  M.take (M.length - 16) ++ xorBytes (M.drop (M.length - 16)) (blockBytes D)

/-- `pad(M)`: `M`, the marker 0x80, then zeros to 16 bytes (41_vector_byte_ops.md R132). It has a value only for 15
bytes or fewer; no caller asks for another (log entry 9). -/
def pad (M : Bytes) : Block := blockOf (M ++ [0x80#8] ++ zeros (15 - M.length))

/-- XOR rd, rs1, rs2 (41_vector_byte_ops.md R133). -/
def execXor (rd rs1 rs2 : RegIdx) (s : State) : Host.Outcome State Fault Refusal :=
  done (s.withBlock rd (xorBlock (readBlock s rs1) (readBlock s rs2)))

/-- XOREND rs1 (41_vector_byte_ops.md R134). -/
def execXorend (rs1 : RegIdx) (s : State) : Host.Outcome State Fault Refusal :=
  match input s with
  | none => raise .lenError s
  | some M => if M.length < 16 then raise .lenError s else done (setOut (xorend M (readBlock s rs1)) s)

/-- PAD rd (41_vector_byte_ops.md R135). -/
def execPad (rd : RegIdx) (s : State) : Host.Outcome State Fault Refusal :=
  match input s with
  | none => raise .lenError s
  | some M => if 16 ≤ M.length then raise .lenError s else done (s.withBlock rd (pad M))

end Sys2Proof.Machine
end

