-- ==== Sys2Proof/Machine/S2v.lean ====
section
/-! DEFINITION. S2V: the function `s2v` and the command S2V (42_s2v.md). The function takes the collaborators as an
argument (00_scope.md R9). -/

namespace Sys2Proof.Machine

/-- Step 2 for one item: an absent item changes nothing, a present one is hashed on its own and folded in
(42_s2v.md R150, R153). -/
def s2vFold (C : Collaborators) (K1 : Bytes) (D : Block) : Item → Block
  | .absent => D
  | .present X => xorBlock (dbl D) (C.H K1 X)

/-- Steps 1 and 2: the accumulator `D` after the items (42_s2v.md R150). -/
def s2vAccumulator (C : Collaborators) (K1 : Bytes) (L : List Item) : Block :=
  L.foldl (s2vFold C K1) (C.H K1 (zeros 16))

/-- Step 3: the byte string `T`, long branch at 16 bytes or more, else the short one (42_s2v.md R150, R157). -/
def s2vFinal (D : Block) (P : Bytes) : Bytes :=
  if 16 ≤ P.length then xorend P D else blockBytes (xorBlock (pad P) (dbl D))

/-- `s2v(K1, L, P)`; step 4 is one fresh hash of `T` alone (42_s2v.md R150, R151; 90_conflicts.md C2). -/
def s2v (C : Collaborators) (K1 : Bytes) (L : List Item) (P : Bytes) : Block :=
  C.H K1 (s2vFinal (s2vAccumulator C K1 L) P)

/-- S2V rd with given collaborators (42_s2v.md R152). -/
def s2vWith (C : Collaborators) (rd : RegIdx) (s : State) : Host.Outcome State Fault Refusal :=
  if s.keyed then
    match input s with
    | none => raise .lenError s
    | some P =>
      match items s with
      | none => raise .lenError s
      | some L => done (s.withBlock rd (s2v C s.k1 L P))
  else raise .notKeyed s

/-- S2V rd (42_s2v.md R152). -/
def execS2v (rd : RegIdx) (s : State) : Host.Outcome State Fault Refusal := s2vWith Config.wired rd s

end Sys2Proof.Machine
end

