-- ==== Sys2Proof/Machine/Aead.lean ====
section
/-! DEFINITION. The AEAD construction: `split`, `keystream`, `ctr`, `seal`, `open` and the commands NEW, CTR, SEAL, OPEN
(44_aead.md). The functions take the collaborators as an argument (00_scope.md R9). -/

namespace Sys2Proof.Machine

/-! ### The functions -/

/-- `split(KM)`: two valid halves of equal length, or failure (44_aead.md R180). -/
def splitKey (C : Collaborators) (KM : Bytes) : Option (Bytes × Bytes) :=
  if KM.length % 2 = 1 then none
  else if KM.length = 0 ∨ Config.kbufCap < KM.length then none
  else if C.keyValid (KM.take (KM.length / 2)) && C.keyValid (KM.drop (KM.length / 2)) then
    some (KM.take (KM.length / 2), KM.drop (KM.length / 2))
  else none

/-- Counter block `i`: `blk((int(Q) + i) mod 2^128)` (44_aead.md R184; 90_conflicts.md C6). -/
def counterBlock (Q : Block) (i : Nat) : Block := Q + BitVec.ofNat 128 i

/-- `keystream(K2, Q, n)`: the counter blocks encrypted in turn, cut to `n` bytes (44_aead.md R184). -/
def keystream (C : Collaborators) (K2 : Bytes) (Q : Block) (n : Nat) : Bytes :=
  ((List.range ((n + 15) / 16)).flatMap fun i => blockBytes (C.E K2 (counterBlock Q i))).take n

/-- `ctr(K2, Q, M)`: `M` exclusive-or the keystream of its length (44_aead.md R185). -/
def ctrXor (C : Collaborators) (K2 : Bytes) (Q : Block) (M : Bytes) : Bytes :=
  xorBytes M (keystream C K2 Q M.length)

/-- `seal(K1, K2, L, P)`: `V || C` (44_aead.md R190, R194). -/
def aeadSeal (C : Collaborators) (K1 K2 : Bytes) (L : List Item) (P : Bytes) : Bytes :=
  blockBytes (s2v C K1 L P) ++ ctrXor C K2 (ctrseed (s2v C K1 L P)) P

/-- The candidate plaintext of OPEN: the payload decrypted from the seed of the received tag (44_aead.md R195, R199). -/
def candidate (C : Collaborators) (K2 : Bytes) (S : Bytes) : Bytes :=
  ctrXor C K2 (ctrseed (blockOf (S.take 16))) (S.drop 16)

/-- `open(K1, K2, L, S)`: the candidate plaintext only if its recomputed `V` is the received tag, `none` for the one
AuthenticationError (44_aead.md R195, R197; an input below 16 bytes gives the same error, 92_eei_decisions.md D19). -/
def aeadOpen (C : Collaborators) (K1 K2 : Bytes) (L : List Item) (S : Bytes) : Option Bytes :=
  if S.length < 16 then none
  else if s2v C K1 L (candidate C K2 S) = blockOf (S.take 16) then some (candidate C K2 S)
  else none

/-! ### The commands, with given collaborators -/

/-- NEW (44_aead.md R188): the old instance and the staging buffer are erased first, whatever follows. -/
def newWith (C : Collaborators) (s : State) : Host.Outcome State Fault Refusal :=
  if Config.kbufCap < s.kbufLen.toNat then raise .keyError (eraseInstance s)
  else
    match splitKey C (stagedKey s s.kbufLen.toNat) with
    | none => raise .keyError (eraseInstance s)
    | some (a, z) => done (loadInstance a z (s.kbufLen.toNat / 2) (eraseInstance s))

/-- CTR rs1 (44_aead.md R186). -/
def ctrWith (C : Collaborators) (rs1 : RegIdx) (s : State) : Host.Outcome State Fault Refusal :=
  if s.keyed then
    match input s with
    | none => raise .lenError s
    | some M => done (setOut (ctrXor C s.k2 (readBlock s rs1) M) s)
  else raise .notKeyed s

/-- SEAL (44_aead.md R191). -/
def sealWith (C : Collaborators) (s : State) : Host.Outcome State Fault Refusal :=
  if s.keyed then
    match input s with
    | none => raise .lenError s
    | some P =>
      match items s with
      | none => raise .lenError s
      | some L => done (setOut (aeadSeal C s.k1 s.k2 L P) s)
  else raise .notKeyed s

/-- OPEN (44_aead.md R196): on an AuthenticationError all of `OUT` is zeroed and nothing else but `RES` changes. -/
def openWith (C : Collaborators) (s : State) : Host.Outcome State Fault Refusal :=
  if s.keyed then
    match input s with
    | none => raise .lenError s
    | some S =>
      match items s with
      | none => raise .lenError s
      | some L =>
        match aeadOpen C s.k1 s.k2 L S with
        | none => raise .authError (setOut [] s)
        | some P => done (setOut P s)
  else raise .notKeyed s

/-! ### The commands of this machine -/

/-- NEW (44_aead.md R188). -/
def execNew (s : State) : Host.Outcome State Fault Refusal := newWith Config.wired s

/-- CTR rs1 (44_aead.md R186). -/
def execCtr (rs1 : RegIdx) (s : State) : Host.Outcome State Fault Refusal := ctrWith Config.wired rs1 s

/-- SEAL (44_aead.md R191). -/
def execSeal (s : State) : Host.Outcome State Fault Refusal := sealWith Config.wired s

/-- OPEN (44_aead.md R196). -/
def execOpen (s : State) : Host.Outcome State Fault Refusal := openWith Config.wired s

end Sys2Proof.Machine
end

