-- ==== Sys2Proof/Machine/Dispatch.lean ====
section
/-! DEFINITION. One arm per command (30_encoding.md R93): the meaning of each. -/

namespace Sys2Proof.Machine

def exec (i : Instr) (s : State) : Host.Outcome State Fault Refusal :=
  match i with
  | .dbl rd rs1 => Sys2Proof.Machine.execDbl rd rs1 s
  | .xor rd rs1 rs2 => Sys2Proof.Machine.execXor rd rs1 rs2 s
  | .xorend rs1 => Sys2Proof.Machine.execXorend rs1 s
  | .pad rd => Sys2Proof.Machine.execPad rd s
  | .ctrseed rd rs1 => Sys2Proof.Machine.execCtrseed rd rs1 s
  | .ctr rs1 => Sys2Proof.Machine.execCtr rs1 s
  | .s2v rd => Sys2Proof.Machine.execS2v rd s
  | .newKey => Sys2Proof.Machine.execNew s
  | .sealMsg => Sys2Proof.Machine.execSeal s
  | .openMsg => Sys2Proof.Machine.execOpen s

end Sys2Proof.Machine
end

