-- ==== Sys2Proof/Machine/Command.lean ====
section
/-! DEFINITION. What one host event does (20_memory.md R65 to R75): a read, a write, the write of `CMD` that runs a
command to its end, and reset (70_reset_and_hazards.md R270). Each takes the meanings of the commands as an argument,
since these depend on the collaborators of the build (00_scope.md R9, 10_state.md R50). -/

namespace Sys2Proof.Machine

/-- The meaning of every command: `exec` for this machine, `execWith C` for the build with the collaborators `C`. -/
abbrev Meanings := Instr → State → Host.Outcome State Fault Refusal

/-- A write of `w` to `CMD`: the command `w` encodes runs to its end; an illegal word ends `ILLEGAL_CMD` and changes
nothing else (10_state.md R27; 30_encoding.md R95; 60_exceptions.md R241). -/
def runCommandBy (ex : Meanings) (w : Word) (s : State) : Host.Outcome State Fault Refusal :=
  match decode w with
  | .ok i => ex i s
  | .error _ => raise .illegalCmd s

/-- A write of `w` to `CMD` of this machine. -/
def runCommand (w : Word) (s : State) : Host.Outcome State Fault Refusal := runCommandBy exec w s

/-- A bus read of `n` bytes: it changes no state, and the host is answered the value or a bus error
(20_memory.md R67, R68, R70). -/
def issueRead (n a : Nat) (s : State) : Host.Outcome State Fault Refusal :=
  match busRead n a s with
  | some v => .next (s.respond (.readValue v))
  | none => .next (s.respond .busError)

/-- A bus write of `n` bytes: a bus error changes no state; a write of `CMD` runs the command before the next access
takes effect (20_memory.md R66, R68, R70, R75). -/
def issueWriteBy (ex : Meanings) (n a : Nat) (v : Word) (s : State) : Host.Outcome State Fault Refusal :=
  if accepted n a then
    if kindAt a = some .cmd then thenRespond .writeAccepted (runCommandBy ex v s)
    else .next ((storeWrite n a v s).respond .writeAccepted)
  else .next (s.respond .busError)

/-- Reset: every piece of state at its reset value; what the host has still to do and what it has been answered are
the host's and stay (70_reset_and_hazards.md R270; log entries 1, 7). -/
def resetCore (s : State) : State :=
  { State.reset with pending := s.pending, responses := s.responses ++ [.resetTaken] }

/-- One host event takes effect. -/
def deliverBy (ex : Meanings) (e : HostEvent) (s : State) : Host.Outcome State Fault Refusal :=
  match e with
  | .rd8 a => issueRead 1 a.toNat s
  | .rd16 a => issueRead 2 a.toNat s
  | .rd32 a => issueRead 4 a.toNat s
  | .wr8 a v => issueWriteBy ex 1 a.toNat (v.setWidth 32) s
  | .wr16 a v => issueWriteBy ex 2 a.toNat (v.setWidth 32) s
  | .wr32 a v => issueWriteBy ex 4 a.toNat v s
  | .reset => .next (resetCore s)

/-- The host's next event takes effect; with no event left the core is idle and keeps all its state
(20_memory.md R75; 60_exceptions.md R259; 70_reset_and_hazards.md R287; log entries 1, 6). -/
def stepBy (ex : Meanings) (s : State) : Host.Outcome State Fault Refusal :=
  match s.pending with
  | [] => .next s
  | e :: rest => deliverBy ex e (s.withPending rest)

/-- The event that starts the command `w`: a 4-byte write to `CMD` at address 0x0000 (30_encoding.md R90, R99). -/
def cmdWrite (w : Word) : HostEvent := .wr32 0x0000#16 w

end Sys2Proof.Machine
end

