-- ==== Sys2Proof/Machine/Step.lean ====
section
/-! DEFINITION. One step: the host's next event takes effect; with no event left the core is idle and keeps all its
state (20_memory.md R75; 60_exceptions.md R259; 70_reset_and_hazards.md R287; log entries 1, 6). -/

namespace Sys2Proof.Machine

/-- One step of this machine; `stepWith C` is that of the build with the collaborators `C` (00_scope.md R9). -/
def step (s : State) : Host.Outcome State Fault Refusal := stepBy exec s

/-- The state in which the very next step runs the command whose bits are `w`: the host is about to write it to `CMD`
(10_state.md R25; log entry 1). -/
def State.withFetchWord (s : State) (nbits w : Nat) : State :=
  s.withPending (cmdWrite (tableWord nbits w) :: s.pending)

end Sys2Proof.Machine
end

