-- ==== Sys2Proof/Machine/Build.lean ====
section
/-! DEFINITION. The machine as a function of its parameters: the commands, the step and the whole machine of the build
that is wired to the collaborators `E`, `H`, `KeyValid` (00_scope.md R9: a model takes them as arguments;
10_state.md R50: parameters of the step function, fixed for a run; 92_eei_decisions.md D3). -/

namespace Sys2Proof.Machine

/-- What each command does when the core is wired to the collaborators `C` (00_scope.md R9, 10_state.md R50). `exec` is
this at `Config.wired`. -/
def execWith (C : Collaborators) (i : Instr) (s : State) : Host.Outcome State Fault Refusal :=
  match i with
  | .dbl rd rs1 => execDbl rd rs1 s
  | .xor rd rs1 rs2 => execXor rd rs1 rs2 s
  | .xorend rs1 => execXorend rs1 s
  | .pad rd => execPad rd s
  | .ctrseed rd rs1 => execCtrseed rd rs1 s
  | .ctr rs1 => ctrWith C rs1 s
  | .s2v rd => s2vWith C rd s
  | .newKey => newWith C s
  | .sealMsg => sealWith C s
  | .openMsg => openWith C s

/-- One step of the build with the collaborators `C` (10_state.md R50). `step` is this at `Config.wired`. -/
def stepWith (C : Collaborators) (s : State) : Host.Outcome State Fault Refusal := stepBy (execWith C) s

/-- The build with the collaborators `C` as the host runs it. `core` is this at `Config.wired`. -/
def coreWith (C : Collaborators) : Host.Core :=
  { State := State, Fault := Fault, Refusal := Refusal, step := stepWith C, reset := State.reset }

end Sys2Proof.Machine
end

