-- ==== Sys2Proof/Machine/Calls.lean ====
section
/-! DEFINITION. The calls of the collaborators each command makes (45_collaborators.md R227). They are a record beside
the step, not state. -/

namespace Sys2Proof.Machine

/-- One call of a collaborator. -/
inductive Call where
  | hash (K M : Bytes)
  | cipher (K : Bytes) (X : Block)
  | keyCheck (K : Bytes)
deriving DecidableEq, Repr

/-- The two collaborators sets give the same answer to a call. -/
def Call.agrees (C C' : Collaborators) : Call → Prop
  | .hash K M => C.H K M = C'.H K M
  | .cipher K X => C.E K X = C'.E K X
  | .keyCheck K => C.keyValid K = C'.keyValid K

/-- The byte strings of the present items, in order. -/
def presentItems : List Item → List Bytes
  | [] => []
  | .absent :: L => presentItems L
  | .present X :: L => X :: presentItems L

/-- The calls of one `s2v`: the zero block, each present item, then `T`; all of `H` under `K1` (42_s2v.md R154). -/
def s2vCalls (C : Collaborators) (K1 : Bytes) (L : List Item) (P : Bytes) : List Call :=
  .hash K1 (zeros 16) ::
    ((presentItems L).map (Call.hash K1) ++ [.hash K1 (s2vFinal (s2vAccumulator C K1 L) P)])

/-- The calls of one keystream of `n` bytes: one of `E` under `K2` for each counter block (44_aead.md R184). -/
def keystreamCalls (K2 : Bytes) (Q : Block) (n : Nat) : List Call :=
  (List.range ((n + 15) / 16)).map fun i => .cipher K2 (counterBlock Q i)

/-- The calls a command makes, in order; none when it ends before its computation (45_collaborators.md R227;
44_aead.md R180 for the two of NEW, of which the second is made whatever the first one answers). -/
def calls (C : Collaborators) (i : Instr) (s : State) : List Call :=
  match i with
  | .dbl _ _ | .xor _ _ _ | .xorend _ | .pad _ | .ctrseed _ _ => []
  | .ctr rs1 =>
    match s.keyed, input s with
    | true, some M => keystreamCalls s.k2 (readBlock s rs1) M.length
    | _, _ => []
  | .s2v _ =>
    match s.keyed, input s, items s with
    | true, some P, some L => s2vCalls C s.k1 L P
    | _, _, _ => []
  | .newKey =>
    let n := s.kbufLen.toNat
    if n % 2 = 1 ∨ n = 0 ∨ Config.kbufCap < n then []
    else [.keyCheck ((stagedKey s n).take (n / 2)), .keyCheck ((stagedKey s n).drop (n / 2))]
  | .sealMsg =>
    match s.keyed, input s, items s with
    | true, some P, some L =>
      s2vCalls C s.k1 L P ++ keystreamCalls s.k2 (ctrseed (s2v C s.k1 L P)) P.length
    | _, _, _ => []
  | .openMsg =>
    match s.keyed, input s, items s with
    | true, some S, some L =>
      if S.length < 16 then []
      else keystreamCalls s.k2 (ctrseed (blockOf (S.take 16))) (S.length - 16) ++
        s2vCalls C s.k1 L (candidate C s.k2 S)
    | _, _, _ => []

/-- How many of the calls are calls of `H` (45_collaborators.md R227). -/
def hashCalls (l : List Call) : Nat := l.countP fun c => match c with | .hash _ _ => true | .cipher _ _ | .keyCheck _ => false

/-- How many of the calls are calls of `E` (45_collaborators.md R227). -/
def cipherCalls (l : List Call) : Nat := l.countP fun c => match c with | .cipher _ _ => true | .hash _ _ | .keyCheck _ => false

end Sys2Proof.Machine
end

