-- ==== Sys2Proof/Safety.lean ====
section
/-! DEFINITION. The terms the statements use: the invariants of the machine, what each command may write, and when
two states agree on what a command leaves alone. -/

namespace Sys2Proof

open Sys2Proof.Machine

/-- Memory is in canonical form and lists bytes of the five buffers only (10_state.md R20; log entry 8). -/
abbrev MemorySound (s : State) : Prop := Memory.wf s.mem ∧ ∀ c ∈ s.mem, isBuffer c.1 = true

/-- While keyed, `K1` and `K2` are valid keys of the build's algorithm, of `KLEN` = 1 to 32 bytes; while not keyed there
is no key and `KLEN` is 0 (10_state.md R29, R32; 44_aead.md R181, R182; 45_collaborators.md R224). -/
abbrev KeysSound (C : Collaborators) (s : State) : Prop :=
  if s.keyed = true then
    s.k1.length = s.klen.toNat ∧ s.k2.length = s.klen.toNat ∧ 1 ≤ s.klen.toNat ∧ s.klen.toNat ≤ 32 ∧
      C.keyValid s.k1 = true ∧ C.keyValid s.k2 = true
  else s.k1 = [] ∧ s.k2 = [] ∧ s.klen = 0#8

/-- `OUTLEN.LEN` is at most 4128 and every byte of `OUT` at or beyond it is 0x00 (10_state.md R42, R46). -/
abbrev OutputSound (s : State) : Prop :=
  s.outLen.toNat ≤ 4128 ∧ ∀ i, s.outLen.toNat ≤ i → i < 4128 → Memory.read s.mem (outBase + i) = 0x00#8

/-- A state in which memory, keys and output are as the spec says they always are. -/
structure Sound (C : Collaborators) (s : State) : Prop where
  memory : MemorySound s
  keys : KeysSound C s
  output : OutputSound s

/-! ### What a command may write (10_state.md R20, R24) -/

/-- The block register a command writes (10_state.md R24). -/
def destOf : Instr → Option RegIdx
  | .dbl rd _ | .xor rd _ _ | .pad rd | .ctrseed rd _ | .s2v rd => some rd
  | .xorend _ | .ctr _ | .newKey | .sealMsg | .openMsg => none

/-- The commands that write `OUT` and `OUTLEN` (10_state.md R20). -/
def writesOut : Instr → Bool
  | .xorend _ | .ctr _ | .sealMsg | .openMsg => true
  | .dbl _ _ | .xor _ _ _ | .pad _ | .ctrseed _ _ | .s2v _ | .newKey => false

/-- The commands that need a key (60_exceptions.md R242). -/
def needsKey : Instr → Bool
  | .ctr _ | .s2v _ | .sealMsg | .openMsg => true
  | .dbl _ _ | .xor _ _ _ | .xorend _ | .pad _ | .ctrseed _ _ | .newKey => false

/-- The codes a command can end with (60_exceptions.md R252). -/
def endCodes : Instr → List Code
  | .dbl _ _ | .xor _ _ _ | .ctrseed _ _ => [.ok]
  | .xorend _ | .pad _ => [.ok, .lenError]
  | .ctr _ | .s2v _ | .sealMsg => [.ok, .notKeyed, .lenError]
  | .openMsg => [.ok, .authError, .notKeyed, .lenError]
  | .newKey => [.ok, .keyError]

/-- Every length and count of the item list and the input is within its capacity: no condition of the last row of
60_exceptions.md R245 holds. -/
structure LengthsLegal (s : State) : Prop where
  input : s.inLen.toNat ≤ 4112
  count : s.adcnt.toNat ≤ 8
  slots : ∀ i : Fin 8, i.val < s.adcnt.toNat → s.adctl[i].present = true → s.adctl[i].len.toNat ≤ 256
  nonce : s.nonceCtl.present = true → s.nonceCtl.len.toNat ≤ 64

/-- The size and address of a bus access (20_memory.md R65). -/
def accessOf : HostEvent → Option (Nat × Nat)
  | .rd8 a => some (1, a.toNat)
  | .rd16 a => some (2, a.toNat)
  | .rd32 a => some (4, a.toNat)
  | .wr8 a _ => some (1, a.toNat)
  | .wr16 a _ => some (2, a.toNat)
  | .wr32 a _ => some (4, a.toNat)
  | .reset => none

/-- The size, the address and the zero-extended value of a bus write (20_memory.md R65). -/
def storeOf : HostEvent → Option (Nat × Nat × Word)
  | .wr8 a v => some (1, a.toNat, v.setWidth 32)
  | .wr16 a v => some (2, a.toNat, v.setWidth 32)
  | .wr32 a v => some (4, a.toNat, v)
  | .rd8 _ | .rd16 _ | .rd32 _ | .reset => none

/-- The access is a read. -/
def isRead : HostEvent → Bool
  | .rd8 _ | .rd16 _ | .rd32 _ => true
  | .wr8 _ _ | .wr16 _ _ | .wr32 _ _ | .reset => false

/-! ### Bus values -/

/-- The number `n` bytes spell on the bus, the byte at the lowest address most significant: the sum of
`byte j * 256^(n-1-j)` (20_memory.md R67). -/
def valueOf (n : Nat) (byte : Nat → Byte) : Nat := ((List.range n).map fun j => (byte j).toNat * 256 ^ (n - 1 - j)).sum

/-- The byte a write of `n` bytes with value `v` stores `j` bytes after its address: bits `8*(n-1-j)+7 : 8*(n-1-j)` of
`v` (20_memory.md R66). -/
def writtenByte (n : Nat) (v : Word) (j : Nat) : Byte := BitVec.ofNat 8 (v.toNat / 256 ^ (n - 1 - j))

/-- A slot register holds the fields of the word `w`: `PRESENT` is bit 31, `LEN` is bits 15:0 (10_state.md R36, R38). -/
def SlotIs (w : Word) (c : Slot) : Prop := c.present = w.getLsbD 31 ∧ c.len = w.extractLsb' 0 16

/-- The address of byte `i` of block register `B[r]` (20_memory.md R62). -/
abbrev blockAddress (r : RegIdx) (i : Nat) : Nat := 0x0080 + 16 * r.val + i

/-! ### What is left unchanged -/

/-- The address is a byte of `OUT`. -/
def inOut (a : Nat) : Prop := outBase ≤ a ∧ a < outBase + 4128

/-- The address is a byte of `KBUF`. -/
def inKbuf (a : Nat) : Prop := kbufBase ≤ a ∧ a < kbufBase + 64

/-- The registers that only the host writes, and the host's two lists: `ADCNT`, `ADCTL`, `NONCECTL`, `INLEN`
(70_reset_and_hazards.md R284; log entry 1). -/
structure SameHostSide (s t : State) : Prop where
  adcnt : t.adcnt = s.adcnt
  adctl : t.adctl = s.adctl
  nonceCtl : t.nonceCtl = s.nonceCtl
  inLen : t.inLen = s.inLen
  pending : t.pending = s.pending
  responses : t.responses = s.responses

/-- `K1`, `K2` and `STATUS` (10_state.md R21). -/
structure SameInstance (s t : State) : Prop where
  k1 : t.k1 = s.k1
  k2 : t.k2 = s.k2
  keyed : t.keyed = s.keyed
  klen : t.klen = s.klen

/-- Everything but `B[rd]` and `RES` is as before, every byte of memory included. -/
structure FrameOfRegister (rd : RegIdx) (s t : State) : Prop where
  host : SameHostSide s t
  keys : SameInstance s t
  kbufLen : t.kbufLen = s.kbufLen
  outLen : t.outLen = s.outLen
  blocks : ∀ j, j ≠ rd → readBlock t j = readBlock s j
  bytes : ∀ a, Memory.read t.mem a = Memory.read s.mem a

/-- Everything but `OUT`, `OUTLEN` and `RES` is as before. -/
structure FrameOfOutput (s t : State) : Prop where
  host : SameHostSide s t
  keys : SameInstance s t
  kbufLen : t.kbufLen = s.kbufLen
  blocks : ∀ j, readBlock t j = readBlock s j
  bytes : ∀ a, ¬inOut a → Memory.read t.mem a = Memory.read s.mem a

/-- Everything but the keys, `STATUS`, `KBUF`, `KBUFLEN` and `RES` is as before. -/
structure FrameOfInstance (s t : State) : Prop where
  host : SameHostSide s t
  outLen : t.outLen = s.outLen
  blocks : ∀ j, readBlock t j = readBlock s j
  bytes : ∀ a, ¬inKbuf a → Memory.read t.mem a = Memory.read s.mem a

/-- The first half of the staged key material (44_aead.md R180, R188). -/
abbrev stagedHashKey (s : State) : Bytes := Memory.readBytes s.mem kbufBase (s.kbufLen.toNat / 2)

/-- The second half of the staged key material. -/
abbrev stagedCipherKey (s : State) : Bytes :=
  Memory.readBytes s.mem (kbufBase + s.kbufLen.toNat / 2) (s.kbufLen.toNat / 2)

/-- The algorithm accepts both halves of the staged key material (45_collaborators.md R224). -/
abbrev StagedKeysValid (C : Collaborators) (s : State) : Prop :=
  C.keyValid (stagedHashKey s) = true ∧ C.keyValid (stagedCipherKey s) = true

/-- NEW ended `OK`: the staged halves are the keys, the core is keyed, the staging buffer is erased, and nothing else
changed (44_aead.md R188). -/
structure InstanceLoaded (s t : State) : Prop where
  k1 : t.k1 = stagedHashKey s
  k2 : t.k2 = stagedCipherKey s
  keyed : t.keyed = true
  klen : t.klen.toNat = s.kbufLen.toNat / 2
  kbufLen : t.kbufLen = 0#8
  kbuf : ∀ a, inKbuf a → Memory.read t.mem a = 0x00#8
  res : t.res = .ok
  frame : FrameOfInstance s t

/-- NEW ended `KEY_ERROR`: the core is not keyed, the old keys and the staging buffer are erased, and nothing else
changed (44_aead.md R188; 60_exceptions.md R246). -/
structure InstanceRefused (s t : State) : Prop where
  k1 : t.k1 = []
  k2 : t.k2 = []
  keyed : t.keyed = false
  klen : t.klen = 0#8
  kbufLen : t.kbufLen = 0#8
  kbuf : ∀ a, inKbuf a → Memory.read t.mem a = 0x00#8
  res : t.res = .keyError
  frame : FrameOfInstance s t

/-- Everything but the control register at `a` is as before: every other register, every block register and every byte
of memory; `RES`, `STATUS`, `OUTLEN` and the keys whatever `a` is (20_memory.md R68, R71). -/
structure FrameOfControl (a : Nat) (s t : State) : Prop where
  keys : SameInstance s t
  res : t.res = s.res
  outLen : t.outLen = s.outLen
  kbufLen : a ≠ 0x0014 → t.kbufLen = s.kbufLen
  adcnt : a ≠ 0x0018 → t.adcnt = s.adcnt
  nonceCtl : a ≠ 0x001C → t.nonceCtl = s.nonceCtl
  inLen : a ≠ 0x0020 → t.inLen = s.inLen
  adctl : ∀ i : Fin 8, a ≠ 0x0040 + 4 * i.val → t.adctl[i] = s.adctl[i]
  blocks : ∀ j, readBlock t j = readBlock s j
  bytes : ∀ b, Memory.read t.mem b = Memory.read s.mem b
  pending : t.pending = s.pending
  responses : t.responses = s.responses

/-- Everything but the `n` bytes from `a` on, in the buffers or in the block registers, is as before: every register
with `RES` and the control registers, the block registers unless `a` is in them, and every other byte of memory
(20_memory.md R66, R71). -/
structure FrameOfStore (n a : Nat) (s t : State) : Prop where
  host : SameHostSide s t
  keys : SameInstance s t
  res : t.res = s.res
  kbufLen : t.kbufLen = s.kbufLen
  outLen : t.outLen = s.outLen
  blocks : kindAt a ≠ some .blocks → ∀ j, readBlock t j = readBlock s j
  bytes : ∀ b, kindAt a = some .blocks ∨ b < a ∨ a + n ≤ b → Memory.read t.mem b = Memory.read s.mem b

/-- `OUT` holds exactly the byte string `X`: `X` from its start, zeros beyond, `OUTLEN.LEN` its length
(10_state.md R46). -/
structure OutputIs (X : Bytes) (t : State) : Prop where
  length : t.outLen.toNat = X.length
  bytes : ∀ i (h : i < X.length), Memory.read t.mem (outBase + i) = X[i]
  beyond : ∀ i, X.length ≤ i → i < 4128 → Memory.read t.mem (outBase + i) = 0x00#8

end Sys2Proof
end

