-- ==== Sys2Proof/Certificates/Slice0/Obligations.lean ====
section
/-! DEFINITION. The statements about SIVCORE, for the provers. Each docstring names the rule of spec/ it formalises. -/

open Sys2Proof Sys2Proof.Machine

/-! ## Encoding (30_encoding.md) -/

/-- Decoding the word of any command gives the command back, with every operand (R90, R92, R93). -/
def Obligations.DecodeUndoesEncode : Prop :=
  ∀ i : Instr, decode (encode i) = .ok i

/-- A word that decodes to a command is that command's own word, bit for bit: no bit is dropped (R91, R92). -/
def Obligations.EncodeUndoesDecode : Prop :=
  ∀ (w : Word) (i : Instr), decode w = .ok i → encode i = w

/-- A word decodes to a command exactly when it matches a row of the opcode map, and no two rows share a word
(R91, R92, R93). -/
def Obligations.LegalWordsAreTheRowsWords : Prop :=
  ∀ w : Word, ((∃ i, decode w = .ok i) ↔ wordWellFormed w = true) ∧
    ∀ r ∈ opRows, ∀ r' ∈ opRows, r.accepts w = true → r'.accepts w = true → r = r'

/-- Sanity: one word of every command, written out from the fields of R90, decodes to it (R93). -/
def Obligations.WrittenWordsDecode : Prop :=
  decode 0b00000000000000000000000100000001#32 = .ok (.dbl 1 0) ∧
  decode 0b00000000000000100001000100000010#32 = .ok (.xor 1 1 2) ∧
  decode 0b00000000000000000011000000000011#32 = .ok (.xorend 3) ∧
  decode 0b00000000000000000000001100000100#32 = .ok (.pad 3) ∧
  decode 0b00000000000000000011001000000101#32 = .ok (.ctrseed 2 3) ∧
  decode 0b00000000000000000001000000000110#32 = .ok (.ctr 1) ∧
  decode 0b00000000000000000000001000000111#32 = .ok (.s2v 2) ∧
  decode 0b00000000000000000000000000010000#32 = .ok .newKey ∧
  decode 0b00000000000000000000000000010001#32 = .ok .sealMsg ∧
  decode 0b00000000000000000000000000010010#32 = .ok .openMsg

/-- R95: every illegal word ends `ILLEGAL_CMD` (0x10) and changes nothing else; illegal are the unassigned codes, any of bits
10, 11, 14, 15, 18 to 31, a register field the format does not use, the all-zero and the all-one word; every word is
legal or illegal. -/
def Obligations.IllegalWordsRaiseIllegalCmd : Prop :=
  Code.illegalCmd.value = 0x10#8 ∧ ∀ w : Word,
    (∀ e, decode w = .error e → ∀ s, runCommand w s = .next (s.withRes .illegalCmd)) ∧
    ((opField w = 0x00#8 ∨ (0x08#8 ≤ opField w ∧ opField w ≤ 0x0F#8) ∨ 0x13#8 ≤ opField w) →
      ∃ e, decode w = .error e) ∧
    ((∃ k, (k = 10 ∨ k = 11 ∨ k = 14 ∨ k = 15 ∨ (18 ≤ k ∧ k ≤ 31)) ∧ w.getLsbD k = true) → ∃ e, decode w = .error e) ∧
    (opField w ∈ [0x03#8, 0x06#8, 0x10#8, 0x11#8, 0x12#8] → rdField w ≠ 0 → ∃ e, decode w = .error e) ∧
    (opField w ∈ [0x04#8, 0x07#8, 0x10#8, 0x11#8, 0x12#8] → rs1Field w ≠ 0 → ∃ e, decode w = .error e) ∧
    (opField w ≠ 0x02#8 → rs2Field w ≠ 0 → ∃ e, decode w = .error e) ∧
    (w = 0x00000000#32 ∨ w = 0xFFFFFFFF#32 → ∃ e, decode w = .error e) ∧
    ((∃ i, decode w = .ok i) ∨ ∃ e, decode w = .error e)

/-! ## The pure functions (40 to 44) -/

/-- R120: `dbl` byte by byte as the rule's pseudocode has it, and on integers. -/
def Obligations.DblIsShiftAndReduce : Prop :=
  ∀ X : Block,
    (∀ i, i < 15 → byteOf (dbl X) i = (byteOf X i <<< 1) ||| (byteOf X (i + 1) >>> 7)) ∧
    byteOf (dbl X) 15 = (byteOf X 15 <<< 1) ^^^ (if (byteOf X 0).getLsbD 7 then 0x87#8 else 0x00#8) ∧
    (dbl X).toNat = (2 * X.toNat % 2 ^ 128) ^^^ (if 2 ^ 127 ≤ X.toNat then 0x87 else 0)

/-- R123: `dbl` fixes zero, is linear for the exclusive or, and is a bijection on blocks; bit 0 of the last byte of the
result is the bit that was shifted out, and that bit tells how to undo it. -/
def Obligations.DblIsLinearAndBijective : Prop :=
  dbl 0#128 = 0#128 ∧ (∀ X Y : Block, dbl (xorBlock X Y) = xorBlock (dbl X) (dbl Y)) ∧ Function.Bijective dbl ∧
  ∀ X : Block, (byteOf (dbl X) 15).getLsbD 0 = (byteOf X 0).getLsbD 7 ∧
    X = ((dbl X ^^^ (if (byteOf (dbl X) 15).getLsbD 0 then 0x87#128 else 0#128)) >>> 1) |||
      (if (byteOf (dbl X) 15).getLsbD 0 then 1#128 <<< 127 else 0#128)

/-- R131, R132: `xorend` leaves the prefix and exclusive-ors `D` into the last 16 bytes, byte for byte, and at 16 bytes
is the `xor` of the block `M` spells; the sixteen bytes of `pad(M)` are `M`, the marker 0x80 and zeros, and `pad` is
injective on strings shorter than 16 bytes. -/
def Obligations.XorendAndPadByteForByte : Prop :=
  (∀ (M : Bytes) (D : Block), 16 ≤ M.length →
    (xorend M D).length = M.length ∧
    (∀ i, i < M.length - 16 → (xorend M D)[i]? = M[i]?) ∧
    (∀ j, j < 16 → (xorend M D)[M.length - 16 + j]? = M[M.length - 16 + j]?.map (fun b => b ^^^ byteOf D j)) ∧
    (M.length = 16 → xorend M D = blockBytes (xorBlock (blockOf M) D))) ∧
  (∀ M : Bytes, M.length < 16 → blockBytes (pad M) = M ++ [0x80#8] ++ zeros (15 - M.length)) ∧
  ∀ M M' : Bytes, M.length < 16 → M'.length < 16 → pad M = pad M' → M = M'

/-- R170, R172: `ctrseed` clears bit 7 of bytes 8 and 12 and copies everything else (on the number, bits 63 and 31); it
is idempotent; exactly four blocks map to each result; blocks that differ elsewhere have different results. -/
def Obligations.CtrseedClearsTwoBits : Prop :=
  ∀ V V' : Block,
    byteOf (ctrseed V) 8 = byteOf V 8 &&& 0x7F#8 ∧ byteOf (ctrseed V) 12 = byteOf V 12 &&& 0x7F#8 ∧
    (∀ i, i < 16 → i ≠ 8 → i ≠ 12 → byteOf (ctrseed V) i = byteOf V i) ∧
    (∀ k, k < 128 → (ctrseed V).getLsbD k = (V.getLsbD k && k != 63 && k != 31)) ∧
    ctrseed (ctrseed V) = ctrseed V ∧
    (ctrseed V' = ctrseed V ↔
      V' ^^^ V ∈ [0#128, 1#128 <<< 63, 1#128 <<< 31, (1#128 <<< 63) ||| (1#128 <<< 31)]) ∧
    (byteOf (ctrseed V) 8).getLsbD 7 = false ∧ (byteOf (ctrseed V) 12).getLsbD 7 = false ∧
    (∀ k, k ≠ 63 → k ≠ 31 → V.getLsbD k ≠ V'.getLsbD k → ctrseed V ≠ ctrseed V')

/-- R150, R153: `s2v` step by step: the zero block is hashed; each present item, an empty one too, is folded in after a
doubling; an absent item changes nothing, so absent entries can be deleted from the list; `T` is made by the length of
the last item, and hashed on its own. -/
def Obligations.S2vStepByStep : Prop :=
  ∀ (C : Collaborators) (K1 : Bytes) (L : List Item) (X P : Bytes),
    s2vAccumulator C K1 [] = C.H K1 (zeros 16) ∧
    s2vAccumulator C K1 (L ++ [.present X]) = xorBlock (dbl (s2vAccumulator C K1 L)) (C.H K1 X) ∧
    s2vAccumulator C K1 (L ++ [.present []]) = xorBlock (dbl (s2vAccumulator C K1 L)) (C.H K1 []) ∧
    s2vAccumulator C K1 (L ++ [.absent]) = s2vAccumulator C K1 L ∧
    s2v C K1 L P = s2v C K1 (L.filter fun it => decide (it ≠ .absent)) P ∧
    (16 ≤ P.length → s2v C K1 L P = C.H K1 (xorend P (s2vAccumulator C K1 L))) ∧
    (P.length < 16 → s2v C K1 L P = C.H K1 (blockBytes (xorBlock (pad P) (dbl (s2vAccumulator C K1 L)))))

/-- R184, R185: there are `n` keystream bytes, byte `i` being byte `i mod 16` of the encryption of the counter block
`blk((int(Q) + i div 16) mod 2^128)`; `ctr` is the exclusive or with them byte by byte, keeps the length, and undoes
itself. -/
def Obligations.CtrIsItsOwnInverse : Prop :=
  ∀ (C : Collaborators) (K2 : Bytes) (Q : Block) (M : Bytes),
    (∀ n, (keystream C K2 Q n).length = n ∧
      ∀ i, i < n → (keystream C K2 Q n)[i]? =
        some (byteOf (C.E K2 (BitVec.ofNat 128 ((Q.toNat + i / 16) % 2 ^ 128))) (i % 16))) ∧
    (ctrXor C K2 Q M).length = M.length ∧
    (∀ i (h : i < M.length), (ctrXor C K2 Q M)[i]? =
      (keystream C K2 Q M.length)[i]?.map (fun k => M[i] ^^^ k)) ∧
    ctrXor C K2 Q [] = [] ∧ ctrXor C K2 Q (ctrXor C K2 Q M) = M

/-- R187: from a `ctrseed` seed, adding a block index below `2^31` carries out of neither the low 32 nor the low 64
bits and never wraps, so a 32-bit, a 64-bit and a 128-bit counter give the same block. -/
def Obligations.CounterNeverCarries : Prop :=
  ∀ (V : Block) (i : Nat), i < 2 ^ 31 →
    (counterBlock (ctrseed V) i).toNat = (ctrseed V).toNat + i ∧
    (counterBlock (ctrseed V) i).toNat =
      (ctrseed V).toNat / 2 ^ 32 * 2 ^ 32 + ((ctrseed V).toNat % 2 ^ 32 + i) % 2 ^ 32 ∧
    (counterBlock (ctrseed V) i).toNat =
      (ctrseed V).toNat / 2 ^ 64 * 2 ^ 64 + ((ctrseed V).toNat % 2 ^ 64 + i) % 2 ^ 64

/-- R194: the sealed output is 16 bytes longer than the plaintext; its first 16 bytes are `V` with all its bits, byte
`16 + i` is `P[i]` exclusive-or byte `i` of the keystream from `ctrseed(V)`. -/
def Obligations.SealedOutputLayout : Prop :=
  ∀ (C : Collaborators) (K1 K2 : Bytes) (L : List Item) (P : Bytes),
    (aeadSeal C K1 K2 L P).length = P.length + 16 ∧
    (aeadSeal C K1 K2 L P).take 16 = blockBytes (s2v C K1 L P) ∧
    ∀ i (h : i < P.length), (aeadSeal C K1 K2 L P)[16 + i]? =
      (keystream C K2 (ctrseed (s2v C K1 L P)) P.length)[i]?.map (fun k => P[i] ^^^ k)

/-- R200 (a): opening what was sealed with the same keys and items gives the plaintext, for every `E` and `H`. -/
def Obligations.OpenUndoesSeal : Prop :=
  ∀ (C : Collaborators) (K1 K2 : Bytes) (L : List Item) (P : Bytes),
    aeadOpen C K1 K2 L (aeadSeal C K1 K2 L P) = some P

/-- R190, R195: what OPEN accepts is exactly what SEAL makes of the plaintext it returns, for every `E` and `H`. -/
def Obligations.OpenAcceptsOnlySealedOutputs : Prop :=
  ∀ (C : Collaborators) (K1 K2 : Bytes) (L : List Item) (S P : Bytes),
    aeadOpen C K1 K2 L S = some P → S = aeadSeal C K1 K2 L P

/-- R172, R200 (c): a sealed output whose tag was changed in one or both of the two bits `ctrseed` clears, and nowhere
else, is rejected, for every `E` and `H`. -/
def Obligations.ClearedTagBitForgeryIsRejected : Prop :=
  ∀ (C : Collaborators) (K1 K2 : Bytes) (L : List Item) (P : Bytes) (V' : Block),
    V' ≠ s2v C K1 L P → ctrseed V' = ctrseed (s2v C K1 L P) →
    aeadOpen C K1 K2 L (blockBytes V' ++ (aeadSeal C K1 K2 L P).drop 16) = none

/-! ## The commands: each ends, with its result and its frame -/

/-- R121: the word of DBL; from every state it ends `OK` with `B[rd] = dbl(B[rs1])` of the old value, and nothing else
changes. -/
def Obligations.DblCommand : Prop :=
  ∀ (rd rs1 : RegIdx) (s : State),
    decode (0x00000001#32 ||| BitVec.ofNat 32 rd.val <<< 8 ||| BitVec.ofNat 32 rs1.val <<< 12) = .ok (.dbl rd rs1) ∧
    ∃ t, exec (.dbl rd rs1) s = .next t ∧
    readBlock t rd = dbl (readBlock s rs1) ∧ t.res = .ok ∧ FrameOfRegister rd s t

/-- R130, R133: the word of XOR; from every state it ends `OK`; each byte of `B[rd]` is the exclusive or of the two old source bytes;
nothing else changes. -/
def Obligations.XorCommand : Prop :=
  ∀ (rd rs1 rs2 : RegIdx) (s : State),
    decode (0x00000002#32 ||| BitVec.ofNat 32 rd.val <<< 8 ||| BitVec.ofNat 32 rs1.val <<< 12 |||
      BitVec.ofNat 32 rs2.val <<< 16) = .ok (.xor rd rs1 rs2) ∧
    ∃ t, exec (.xor rd rs1 rs2) s = .next t ∧
    (∀ i, i < 16 → byteOf (readBlock t rd) i = byteOf (readBlock s rs1) i ^^^ byteOf (readBlock s rs2) i) ∧
    (rs1 = rs2 → readBlock t rd = 0#128) ∧ t.res = .ok ∧ FrameOfRegister rd s t

/-- R171: the word of CTRSEED; from every state it ends `OK` with `B[rd] = ctrseed(B[rs1])`, and nothing else
changes. -/
def Obligations.CtrseedCommand : Prop :=
  ∀ (rd rs1 : RegIdx) (s : State),
    decode (0x00000005#32 ||| BitVec.ofNat 32 rd.val <<< 8 ||| BitVec.ofNat 32 rs1.val <<< 12) =
      .ok (.ctrseed rd rs1) ∧
    ∃ t, exec (.ctrseed rd rs1) s = .next t ∧
    readBlock t rd = ctrseed (readBlock s rs1) ∧ t.res = .ok ∧ FrameOfRegister rd s t

/-- R135: the word of PAD; with fewer than 16 input bytes PAD ends `OK` with `B[rd]` the padded input; with 16 or more it ends
`LEN_ERROR` and changes nothing else. -/
def Obligations.PadCommand : Prop :=
  ∀ (rd : RegIdx) (s : State),
    decode (0x00000004#32 ||| BitVec.ofNat 32 rd.val <<< 8) = .ok (.pad rd) ∧
    (s.inLen.toNat < 16 → ∃ t, exec (.pad rd) s = .next t ∧
      blockBytes (readBlock t rd) =
        Memory.readBytes s.mem inBase s.inLen.toNat ++ [0x80#8] ++ zeros (15 - s.inLen.toNat) ∧
      t.res = .ok ∧ FrameOfRegister rd s t) ∧
    (16 ≤ s.inLen.toNat → exec (.pad rd) s = .next (s.withRes .lenError))

/-- R134: the word of XOREND; with 16 to 4112 input bytes XOREND ends `OK`, `OUT` holding `xorend` of the input and `B[rs1]`; with fewer or
more it ends `LEN_ERROR` and changes nothing else. -/
def Obligations.XorendCommand : Prop :=
  ∀ (rs1 : RegIdx) (s : State),
    decode (0x00000003#32 ||| BitVec.ofNat 32 rs1.val <<< 12) = .ok (.xorend rs1) ∧
    (16 ≤ s.inLen.toNat → s.inLen.toNat ≤ 4112 → ∃ t, exec (.xorend rs1) s = .next t ∧
      OutputIs (xorend (Memory.readBytes s.mem inBase s.inLen.toNat) (readBlock s rs1)) t ∧
      t.outLen = s.inLen ∧ t.res = .ok ∧ FrameOfOutput s t) ∧
    (s.inLen.toNat < 16 ∨ 4112 < s.inLen.toNat → exec (.xorend rs1) s = .next (s.withRes .lenError))

/-- R186: on a keyed core with at most 4112 input bytes CTR ends `OK`; byte `i` of `OUT` is byte `i` of the input
exclusive-or byte `i mod 16` of `E(K2, B[rs1] + i div 16)`, the seed taken as it is, wrap included. -/
def Obligations.CtrCommand : Prop :=
  ∀ (rs1 : RegIdx) (s : State), s.keyed = true → s.inLen.toNat ≤ 4112 → ∃ t, exec (.ctr rs1) s = .next t ∧
    (∀ i, i < s.inLen.toNat → Memory.read t.mem (outBase + i) = Memory.read s.mem (inBase + i) ^^^
      byteOf (Config.wired.E s.k2 (readBlock s rs1 + BitVec.ofNat 128 (i / 16))) (i % 16)) ∧
    (∀ i, s.inLen.toNat ≤ i → i < 4128 → Memory.read t.mem (outBase + i) = 0x00#8) ∧
    t.outLen = s.inLen ∧ t.res = .ok ∧ FrameOfOutput s t

/-- R44: `Items()` fails exactly when a count or a length in use is too large, and else it is the slots in use in slot
order, then the nonce; the `LEN` of an absent slot is not looked at. -/
def Obligations.ItemsSpellTheSlots : Prop :=
  ∀ s : State,
    (items s = none ↔ 8 < s.adcnt.toNat ∨
      (∃ i : Fin 8, i.val < s.adcnt.toNat ∧ s.adctl[i].present = true ∧ 256 < s.adctl[i].len.toNat) ∨
      (s.nonceCtl.present = true ∧ 64 < s.nonceCtl.len.toNat)) ∧
    ∀ L, items s = some L →
      L.length = s.adcnt.toNat + 1 ∧
      (∀ i : Fin 8, i.val < s.adcnt.toNat → L[i.val]? = some (if s.adctl[i].present then
        .present (Memory.readBytes s.mem (0x1000 + 256 * i.val) s.adctl[i].len.toNat) else .absent)) ∧
      L[s.adcnt.toNat]? = some (if s.nonceCtl.present then
        .present (Memory.readBytes s.mem 0x0200 s.nonceCtl.len.toNat) else .absent)

/-- R152: on a keyed core with legal lengths S2V ends `OK` with `B[rd] = s2v(K1, Items(), Input())`, and nothing else
changes; `OUT` is not touched. -/
def Obligations.S2vCommand : Prop :=
  ∀ (rd : RegIdx) (s : State), s.keyed = true → LengthsLegal s →
    ∃ L t, items s = some L ∧ exec (.s2v rd) s = .next t ∧
      readBlock t rd = s2v Config.wired s.k1 L (Memory.readBytes s.mem inBase s.inLen.toNat) ∧
      t.res = .ok ∧ FrameOfRegister rd s t

/-- R191: on a keyed core with legal lengths SEAL ends `OK`, `OUT` holding the sealed output, `OUTLEN = INLEN + 16`;
nothing else changes. -/
def Obligations.SealCommand : Prop :=
  ∀ s : State, s.keyed = true → LengthsLegal s →
    ∃ L t, items s = some L ∧ exec .sealMsg s = .next t ∧
      OutputIs (aeadSeal Config.wired s.k1 s.k2 L (Memory.readBytes s.mem inBase s.inLen.toNat)) t ∧
      t.outLen.toNat = s.inLen.toNat + 16 ∧ t.res = .ok ∧ FrameOfOutput s t

/-- R196: on a keyed core with legal lengths and an input that `open` accepts, OPEN ends `OK`, `OUT` holding the
plaintext, `OUTLEN = INLEN - 16`; nothing else changes. -/
def Obligations.OpenCommandReturnsThePlaintext : Prop :=
  ∀ (s : State) (L : List Item) (P : Bytes), s.keyed = true → LengthsLegal s → items s = some L →
    aeadOpen Config.wired s.k1 s.k2 L (Memory.readBytes s.mem inBase s.inLen.toNat) = some P →
    ∃ t, exec .openMsg s = .next t ∧ OutputIs P t ∧ t.outLen.toNat = s.inLen.toNat - 16 ∧ t.res = .ok ∧
      FrameOfOutput s t

/-- R196, R247: on a keyed core with legal lengths, an input that is too short for a tag or that `open` rejects ends
`AUTH_ERROR` with `OUT` all zero and `OUTLEN` 0; nothing else changes. -/
def Obligations.OpenCommandRejects : Prop :=
  ∀ (s : State) (L : List Item), s.keyed = true → LengthsLegal s → items s = some L →
    (s.inLen.toNat < 16 ∨
      aeadOpen Config.wired s.k1 s.k2 L (Memory.readBytes s.mem inBase s.inLen.toNat) = none) →
    ∃ t, exec .openMsg s = .next t ∧ OutputIs [] t ∧ t.res = .authError ∧ FrameOfOutput s t

/-- R188: NEW on key material of even length 2 to 64 ends, from every state. If the algorithm accepts both halves it ends
`OK`: the halves are in `K1` and `K2`, the core is keyed, `KBUF` and `KBUFLEN` are erased, and nothing else changes; if not,
it ends `KEY_ERROR` and the core is left unkeyed. It is said for this machine and for every build: which keys are
accepted is the build's (R224). -/
def Obligations.NewCommandLoadsTheKeys : Prop :=
  (∀ s : State, s.kbufLen.toNat % 2 = 0 → 1 ≤ s.kbufLen.toNat → s.kbufLen.toNat ≤ 64 →
    ∃ t, exec .newKey s = .next t ∧ (StagedKeysValid Config.wired s → InstanceLoaded s t) ∧
      (¬StagedKeysValid Config.wired s → InstanceRefused s t)) ∧
  ∀ (C : Collaborators) (s : State), s.kbufLen.toNat % 2 = 0 → 1 ≤ s.kbufLen.toNat → s.kbufLen.toNat ≤ 64 →
    StagedKeysValid C s → ∃ t, execWith C .newKey s = .next t ∧ InstanceLoaded s t

/-- R180, R188, R246: NEW on key material of odd length, of length 0, longer than 64 bytes, or with a half the algorithm
refuses, ends `KEY_ERROR`, and the core is left unkeyed, the old keys and the staging buffer erased, nothing else
changed. It is said for every build, of which this machine is the one with `Config.wired`. -/
def Obligations.NewCommandRefusesBadKeys : Prop :=
  (∀ s : State, exec .newKey s = execWith Config.wired .newKey s) ∧
  ∀ (C : Collaborators) (s : State),
    (s.kbufLen.toNat % 2 = 1 ∨ s.kbufLen.toNat = 0 ∨ 64 < s.kbufLen.toNat ∨
      C.keyValid (stagedHashKey s) = false ∨ C.keyValid (stagedCipherKey s) = false) →
    ∃ t, execWith C .newKey s = .next t ∧ InstanceRefused s t

/-! ## Frames of the families -/

/-- R24, R20: DBL, XOR, PAD, CTRSEED and S2V, however they end, change nothing but their destination register and
`RES`; every byte of memory reads as before. -/
def Obligations.RegisterCommandsFrame : Prop :=
  ∀ (i : Instr) (rd : RegIdx) (s t : State), destOf i = some rd → exec i s = .next t → FrameOfRegister rd s t

/-- R20, R46: XOREND, CTR, SEAL and OPEN, however they end, change nothing but `OUT`, `OUTLEN` and `RES`; every byte
outside `OUT` reads as before. -/
def Obligations.OutputCommandsFrame : Prop :=
  ∀ (i : Instr) (s t : State), writesOut i = true → exec i s = .next t → FrameOfOutput s t

/-- R284: no command and no illegal word changes `ADCNT`, `ADCTL`, `NONCECTL`, `INLEN` or a byte of `AD`, `NONCE` or
`IN`, over success and over faults. -/
def Obligations.CommandsKeepSlotsAndInput : Prop :=
  ∀ (w : Word) (s t : State), runCommand w s = .next t →
    SameHostSide s t ∧
    ∀ a, kindAt a = some .ad ∨ kindAt a = some .nonce ∨ kindAt a = some .inBuf →
      Memory.read t.mem a = Memory.read s.mem a

/-! ## Faults (60_exceptions.md) -/

/-- R242: S2V, CTR, SEAL and OPEN, and no other command, need a key; without one each ends `NOT_KEYED` (0x11) and
changes nothing else, whatever the lengths are. -/
def Obligations.UnkeyedCommandsRaiseNotKeyed : Prop :=
  Code.notKeyed.value = 0x11#8 ∧
  (∀ (rd rs1 : RegIdx) (s : State), s.keyed = false →
    exec (.s2v rd) s = .next (s.withRes .notKeyed) ∧ exec (.ctr rs1) s = .next (s.withRes .notKeyed) ∧
    exec .sealMsg s = .next (s.withRes .notKeyed) ∧ exec .openMsg s = .next (s.withRes .notKeyed)) ∧
  ∀ (i : Instr) (s t : State), needsKey i = false → exec i s = .next t → t.res ≠ .notKeyed

/-- R245: the table of the conditions of `LEN_ERROR` (0x12), and that it changes nothing but `RES`; the commands that
are not in the table never raise it, and a short input of OPEN ends `AUTH_ERROR`. -/
def Obligations.LenErrorTable : Prop :=
  Code.lenError.value = 0x12#8 ∧
  (∀ (rs1 : RegIdx) (s : State), 4112 < s.inLen.toNat ∨ s.inLen.toNat < 16 →
    exec (.xorend rs1) s = .next (s.withRes .lenError)) ∧
  (∀ (rd : RegIdx) (s : State), 16 ≤ s.inLen.toNat → exec (.pad rd) s = .next (s.withRes .lenError)) ∧
  (∀ (rs1 : RegIdx) (s : State), s.keyed = true → 4112 < s.inLen.toNat →
    exec (.ctr rs1) s = .next (s.withRes .lenError)) ∧
  (∀ (i : Instr) (s : State), (∃ rd, i = .s2v rd) ∨ i = .sealMsg ∨ i = .openMsg → s.keyed = true →
    ¬LengthsLegal s → exec i s = .next (s.withRes .lenError)) ∧
  (∀ s : State, s.keyed = true → LengthsLegal s → s.inLen.toNat < 16 →
    ∃ t, exec .openMsg s = .next t ∧ t.res = .authError) ∧
  ∀ (i : Instr) (s t : State), (∃ rd rs1, i = .dbl rd rs1) ∨ (∃ rd rs1 rs2, i = .xor rd rs1 rs2) ∨
    (∃ rd rs1, i = .ctrseed rd rs1) ∨ i = .newKey → exec i s = .next t → t.res ≠ .lenError

/-- R252: every command ends, from every state, with one of the codes its row of the table allows. -/
def Obligations.EveryCommandEndsWithAnAllowedCode : Prop :=
  ∀ (i : Instr) (s : State), ∃ t, exec i s = .next t ∧ t.res ∈ endCodes i

/-- R243: the first condition in the order wins: `ILLEGAL_CMD`, then `NOT_KEYED`, then `LEN_ERROR`; and whether one of
the first two checks on a command fires does not depend on a byte of memory or of a key. -/
def Obligations.ChecksComeInOrder : Prop :=
  (∀ (w : Word) (e : Illegal) (s : State), decode w = .error e → runCommand w s = .next (s.withRes .illegalCmd)) ∧
  (∀ (w : Word) (i : Instr) (s : State), decode w = .ok i → needsKey i = true → s.keyed = false →
    runCommand w s = .next (s.withRes .notKeyed)) ∧
  (∀ s : State, s.keyed = true → ¬LengthsLegal s → s.inLen.toNat < 16 →
    runCommand 0x00000012#32 s = .next (s.withRes .lenError)) ∧
  ∀ (i : Instr) (s s' t t' : State), s'.keyed = s.keyed → s'.adcnt = s.adcnt → s'.adctl = s.adctl →
    s'.nonceCtl = s.nonceCtl → s'.inLen = s.inLen → exec i s = .next t → exec i s' = .next t' →
    (t.res = .notKeyed ↔ t'.res = .notKeyed) ∧ (t.res = .lenError ↔ t'.res = .lenError)

/-- R244: faults are precise: after a command that ends with a fault code the state is the state before with `RES`
changed, but for NEW with `KEY_ERROR` and OPEN with `AUTH_ERROR`, which change what their rules name. -/
def Obligations.FaultsArePrecise : Prop :=
  ∀ (i : Instr) (s t : State), exec i s = .next t → t.res ≠ .ok →
    t = s.withRes t.res ∨
    (i = .newKey ∧ t.res = .keyError ∧ FrameOfInstance s t) ∨
    (i = .openMsg ∧ t.res = .authError ∧ FrameOfOutput s t)

/-- R246, R247, R250: a command that ended with a fault code, issued again at once, ends with the same code and changes
nothing more. -/
def Obligations.FaultRepeatsUnchanged : Prop :=
  ∀ (i : Instr) (s t : State), exec i s = .next t → t.res ≠ .ok → exec i t = .next t

/-- R197, R198: after `AUTH_ERROR`, from whatever two states and causes, `OUT`, `OUTLEN` and `RES` are the same, and no
block register was written: nothing of the candidate or of the recomputed `V` is there. -/
def Obligations.FailedOpenDisclosesNothing : Prop :=
  ∀ s s' t t' : State, exec .openMsg s = .next t → exec .openMsg s' = .next t' →
    t.res = .authError → t'.res = .authError →
    (∀ a, inOut a → Memory.read t.mem a = Memory.read t'.mem a) ∧ t.outLen = t'.outLen ∧
    t.blocks = s.blocks ∧ t'.blocks = s'.blocks

/-! ## State, bus and step -/

/-- R46: `SetOut(X)` leaves exactly `X` in `OUT` and its length in `OUTLEN`, and changes nothing else; and it is the only
way they change: a step without a reset leaves both as they were, or leaves what `SetOut` of some byte string does. -/
def Obligations.SetOutIsTheWholeOutput : Prop :=
  (∀ (X : Bytes) (s : State), X.length ≤ 4128 →
    OutputIs X (setOut X s) ∧ FrameOfOutput s (setOut X s) ∧ (setOut X s).res = s.res) ∧
  ∀ (s t : State) (e : HostEvent) (rest : List HostEvent), s.pending = e :: rest → step s = .next t → e ≠ .reset →
    (t.outLen = s.outLen ∧ ∀ a, inOut a → Memory.read t.mem a = Memory.read s.mem a) ∨
    ∃ X : Bytes, X.length ≤ 4128 ∧ OutputIs X t

/-- R37, R45: bytes of `IN` at or beyond `INLEN.LEN`, of slots not in use or beyond their length, and of an absent
nonce, change neither `Input()` nor `Items()`. -/
def Obligations.UnusedBytesHaveNoEffect : Prop :=
  ∀ s s' : State, s'.adcnt = s.adcnt → s'.adctl = s.adctl → s'.nonceCtl = s.nonceCtl → s'.inLen = s.inLen →
    (∀ j, j < s.inLen.toNat → Memory.read s'.mem (inBase + j) = Memory.read s.mem (inBase + j)) →
    (∀ (i : Fin 8) (j : Nat), i.val < s.adcnt.toNat → s.adctl[i].present = true → j < s.adctl[i].len.toNat →
      Memory.read s'.mem (adBase i.val + j) = Memory.read s.mem (adBase i.val + j)) →
    (s.nonceCtl.present = true → ∀ j, j < s.nonceCtl.len.toNat →
      Memory.read s'.mem (nonceBase + j) = Memory.read s.mem (nonceBase + j)) →
    input s' = input s ∧ items s' = items s

/-- R61: the unmapped addresses are exactly the listed ranges, and the region of each kind is the listed one. -/
def Obligations.AddressMapRanges : Prop :=
  ∀ a : Nat, a < 65536 →
    (kindAt a = none ↔ (0x0028 ≤ a ∧ a ≤ 0x003F) ∨ (0x0060 ≤ a ∧ a ≤ 0x007F) ∨ (0x00C0 ≤ a ∧ a ≤ 0x00FF) ∨
      (0x0140 ≤ a ∧ a ≤ 0x01FF) ∨ (0x0240 ≤ a ∧ a ≤ 0x0FFF) ∨ (0x1800 ≤ a ∧ a ≤ 0x1FFF) ∨
      (0x3010 ≤ a ∧ a ≤ 0x3FFF) ∨ (0x5020 ≤ a ∧ a ≤ 0xFFFF)) ∧
    (kindAt a = some .cmd ↔ a ≤ 0x0003) ∧ (kindAt a = some .res ↔ 0x0004 ≤ a ∧ a ≤ 0x0007) ∧
    (kindAt a = some .status ↔ 0x0008 ≤ a ∧ a ≤ 0x000B) ∧ (kindAt a = some .nonceSize ↔ 0x000C ≤ a ∧ a ≤ 0x000F) ∧
    (kindAt a = some .overhead ↔ 0x0010 ≤ a ∧ a ≤ 0x0013) ∧ (kindAt a = some .kbufLen ↔ 0x0014 ≤ a ∧ a ≤ 0x0017) ∧
    (kindAt a = some .adcnt ↔ 0x0018 ≤ a ∧ a ≤ 0x001B) ∧ (kindAt a = some .nonceCtl ↔ 0x001C ≤ a ∧ a ≤ 0x001F) ∧
    (kindAt a = some .inLen ↔ 0x0020 ≤ a ∧ a ≤ 0x0023) ∧ (kindAt a = some .outLen ↔ 0x0024 ≤ a ∧ a ≤ 0x0027) ∧
    (kindAt a = some .adctl ↔ 0x0040 ≤ a ∧ a ≤ 0x005F) ∧ (kindAt a = some .blocks ↔ 0x0080 ≤ a ∧ a ≤ 0x00BF) ∧
    (kindAt a = some .kbuf ↔ 0x0100 ≤ a ∧ a ≤ 0x013F) ∧ (kindAt a = some .nonce ↔ 0x0200 ≤ a ∧ a ≤ 0x023F) ∧
    (kindAt a = some .ad ↔ 0x1000 ≤ a ∧ a ≤ 0x17FF) ∧ (kindAt a = some .inBuf ↔ 0x2000 ≤ a ∧ a ≤ 0x300F) ∧
    (kindAt a = some .outBuf ↔ 0x4000 ≤ a ∧ a ≤ 0x501F)

/-- R69: an access whose address is no multiple of its size is not accepted; every region starts at a multiple of 4 and
has such a size, and an aligned access lies wholly inside one
region or wholly outside every region. -/
def Obligations.AlignedAccessesDoNotStraddle : Prop :=
  (∀ r ∈ addressMap, r.first % 4 = 0 ∧ r.size % 4 = 0) ∧
  ∀ n a : Nat, n = 1 ∨ n = 2 ∨ n = 4 →
    (a % n ≠ 0 → accepted n a = false) ∧ (a % n = 0 → ∀ j, j < n → regionAt (a + j) = regionAt a)

/-- R70: an access is answered with a bus error, and then nothing else has changed, exactly when it is misaligned,
unmapped, or narrower than 4 bytes in the control region; in particular `RES` is then untouched and no command
starts. -/
def Obligations.BusErrorsAreExactlyThese : Prop :=
  ∀ (s : State) (e : HostEvent) (rest : List HostEvent) (n a : Nat), s.pending = e :: rest →
    accessOf e = some (n, a) →
    (step s = .next ((s.withPending rest).respond .busError) ↔
      (a % n ≠ 0 ∨ kindAt a = none ∨ (a < 0x60 ∧ n ≠ 4)))

/-- R67, R68, R71: a read takes its event, answers the value the bus gives or a bus error, and changes no state; the
same read repeated is answered alike. R62, R63, R67: in every state the value of an accepted access to `NONCE`, `AD`, `IN`
or `OUT` is spelled by the stored bytes at its addresses, and that of one to `B[r]` by the bytes of the block, byte 0 at
the lowest address, the first byte most significant; every access to `KBUF` reads 0. -/
def Obligations.ReadsChangeNothing : Prop :=
  (∀ (s : State) (e : HostEvent) (rest : List HostEvent) (n a : Nat), s.pending = e :: rest → isRead e = true →
    accessOf e = some (n, a) →
    ∃ r, (∀ v, r = .readValue v ↔ busRead n a s = some v) ∧ (r = .busError ↔ busRead n a s = none) ∧
      step s = .next ((s.withPending rest).respond r) ∧
      ∀ r', busRead n a ((s.withPending rest).respond r') = busRead n a s) ∧
  ∀ (s : State) (n : Nat), n = 1 ∨ n = 2 ∨ n = 4 →
    (∀ a, accepted n a = true → kindAt a ∈ [some .nonce, some .ad, some .inBuf, some .outBuf] →
      busRead n a s = some (BitVec.ofNat 32 (valueOf n fun j => Memory.read s.mem (a + j)))) ∧
    (∀ (r : RegIdx) (i : Nat), i % n = 0 → i + n ≤ 16 →
      busRead n (blockAddress r i) s = some (BitVec.ofNat 32 (valueOf n fun j => byteOf (readBlock s r) (i + j)))) ∧
    ∀ a, accepted n a = true → kindAt a = some .kbuf → busRead n a s = some 0#32

/-- R66, R67, R72: after an accepted write in a readable and writable buffer or in a block register, an access of any
size inside the written bytes reads the bytes of the value, most significant first, and every other byte reads as
before. R62, R63, R66: the bytes of the value, most significant first, are what `NONCE`, `AD` or `IN` hold at the written
addresses, and after a write in the block registers byte `i` of `B[r]`, which stands at `0x0080 + 16*r + i`, is the written
byte where it was written and as before elsewhere; so the commands see them. R71: such a write leaves `RES`, every control register, the keys, every byte of memory outside the written
ones and, unless it is in them, the block registers as they were. -/
def Obligations.ReadsSeeWrittenBytes : Prop :=
  ∀ (n a : Nat) (v : Word) (s : State), n = 1 ∨ n = 2 ∨ n = 4 → accepted n a = true →
    kindAt a ∈ [some .blocks, some .nonce, some .ad, some .inBuf] →
    (∀ n' a', n' = 1 ∨ n' = 2 ∨ n' = 4 → accepted n' a' = true → a ≤ a' → a' + n' ≤ a + n →
      busRead n' a' (storeWrite n a v s) =
        some (BitVec.ofNat 32 (v.toNat / 2 ^ (8 * (a + n - (a' + n'))) % 2 ^ (8 * n')))) ∧
    (∀ b, b < a ∨ a + n ≤ b → byteRead (storeWrite n a v s) b = byteRead s b) ∧
    (kindAt a ≠ some .blocks → ∀ j, j < n → Memory.read (storeWrite n a v s).mem (a + j) = writtenByte n v j) ∧
    (kindAt a = some .blocks → ∀ (r : RegIdx) (i : Nat), i < 16 →
      byteOf (readBlock (storeWrite n a v s) r) i =
        if a ≤ blockAddress r i ∧ blockAddress r i < a + n then writtenByte n v (blockAddress r i - a)
        else byteOf (readBlock s r) i) ∧
    FrameOfStore n a s (storeWrite n a v s)

/-- R66, R67, R31, R43: a write to `KBUF` is stored there and reads as zero; a write to `OUT` is ignored. R71: a write
to `KBUF` leaves `RES`, every control register, the keys, the block registers and every byte of memory outside the
written ones as they were. -/
def Obligations.KeyBufferHidesAndOutputIgnores : Prop :=
  ∀ (n a : Nat) (v : Word) (s : State), n = 1 ∨ n = 2 ∨ n = 4 → accepted n a = true →
    (kindAt a = some .kbuf →
      (∀ j, j < n → Memory.read (storeWrite n a v s).mem (a + j) = writtenByte n v j) ∧
      FrameOfStore n a s (storeWrite n a v s) ∧ busRead n a (storeWrite n a v s) = some 0#32) ∧
    (kindAt a = some .outBuf → storeWrite n a v s = s)

/-- R68, R47: a write to a read-and-write control register stores the listed fields only, so reserved bits read 0; a
write to a read-only one is ignored; `CMD` reads 0. R30, R35, R36, R38, R40: the fields the commands use are those bits of
the written value (`KBUFLEN.LEN`, `ADCNT.N` bits 7:0; `INLEN.LEN` bits 15:0; of `ADCTL[i]` and `NONCECTL` `PRESENT` is bit
31 and `LEN` bits 15:0), and in every state each such register reads its fields in those bits and 0 elsewhere. R71, R28: a write to one control register leaves `RES`, every other
control register, the keys, the block registers, `OUTLEN` and every byte of memory as they were. -/
def Obligations.ControlRegistersStoreTheirFields : Prop :=
  ∀ (v : Word) (s : State),
    busRead 4 0x0014 (storeWrite 4 0x0014 v s) = some (v &&& 0x000000FF#32) ∧
    busRead 4 0x0018 (storeWrite 4 0x0018 v s) = some (v &&& 0x000000FF#32) ∧
    busRead 4 0x001C (storeWrite 4 0x001C v s) = some (v &&& 0x8000FFFF#32) ∧
    busRead 4 0x0020 (storeWrite 4 0x0020 v s) = some (v &&& 0x0000FFFF#32) ∧
    (∀ i : Fin 8, busRead 4 (0x0040 + 4 * i.val) (storeWrite 4 (0x0040 + 4 * i.val) v s) =
      some (v &&& 0x8000FFFF#32)) ∧
    (storeWrite 4 0x0014 v s).kbufLen = v.extractLsb' 0 8 ∧ (storeWrite 4 0x0018 v s).adcnt = v.extractLsb' 0 8 ∧
    SlotIs v (storeWrite 4 0x001C v s).nonceCtl ∧ (storeWrite 4 0x0020 v s).inLen = v.extractLsb' 0 16 ∧
    (∀ i : Fin 8, SlotIs v (storeWrite 4 (0x0040 + 4 * i.val) v s).adctl[i]) ∧
    busRead 4 0x0014 s = some (s.kbufLen.setWidth 32) ∧ busRead 4 0x0018 s = some (s.adcnt.setWidth 32) ∧
    (∃ w, busRead 4 0x001C s = some w ∧ SlotIs w s.nonceCtl ∧ w.extractLsb' 16 15 = 0#15) ∧
    busRead 4 0x0020 s = some (s.inLen.setWidth 32) ∧
    (∀ i : Fin 8, ∃ w, busRead 4 (0x0040 + 4 * i.val) s = some w ∧ SlotIs w s.adctl[i] ∧ w.extractLsb' 16 15 = 0#15) ∧
    (∀ a, accepted 4 a = true → a < 0x60 → FrameOfControl a s (storeWrite 4 a v s)) ∧
    (∀ a ∈ [0x0004, 0x0008, 0x000C, 0x0010, 0x0024], storeWrite 4 a v s = s) ∧
    busRead 4 0x0000 s = some 0#32

/-- R10, R28, R29, R33, R34, R42: the read-only registers as the host reads them, in every state: `RES` is the code of
the last command, a number of R240's table (`OK` 0x00, `KEY_ERROR` 0x01, `AUTH_ERROR` 0x02, `ILLEGAL_CMD` 0x10,
`NOT_KEYED` 0x11, `LEN_ERROR` 0x12); `STATUS` has `KEYED` in bit 0 and `KLEN` in bits 15:8 and no other bit, `NONCESIZE`
is 0, `OVERHEAD` is 16, `OUTLEN` is the output length. -/
def Obligations.ReadOnlyRegistersRead : Prop :=
  (Code.ok.value = 0x00#8 ∧ Code.keyError.value = 0x01#8 ∧ Code.authError.value = 0x02#8 ∧
    Code.illegalCmd.value = 0x10#8 ∧ Code.notKeyed.value = 0x11#8 ∧ Code.lenError.value = 0x12#8) ∧
  ∀ s : State, busRead 4 0x0004 s = some (s.res.value.setWidth 32) ∧
    (∃ w : Word, busRead 4 0x0008 s = some w ∧ w.getLsbD 0 = s.keyed ∧ w.extractLsb' 8 8 = s.klen ∧
      ∀ k, (1 ≤ k ∧ k ≤ 7) ∨ 16 ≤ k → w.getLsbD k = false) ∧
    busRead 4 0x000C s = some 0#32 ∧ busRead 4 0x0010 s = some 16#32 ∧
    busRead 4 0x0024 s = some (s.outLen.setWidth 32)

/-- R257, R31, R32: no bus read tells two states apart that differ only in the keys and the staged key bytes. -/
def Obligations.KeysCannotBeRead : Prop :=
  ∀ (s s' : State) (n a : Nat), s'.keyed = s.keyed → s'.klen = s.klen → s'.res = s.res → s'.kbufLen = s.kbufLen →
    s'.adcnt = s.adcnt → s'.adctl = s.adctl → s'.nonceCtl = s.nonceCtl → s'.inLen = s.inLen → s'.outLen = s.outLen →
    s'.blocks = s.blocks → (∀ b, ¬inKbuf b → Memory.read s'.mem b = Memory.read s.mem b) →
    busRead n a s' = busRead n a s

/-- R189: the keys and `STATUS` change in a step only when the host resets the core or writes the NEW word to `CMD`. -/
def Obligations.OnlyNewAndResetChangeTheInstance : Prop :=
  ∀ (s t : State) (e : HostEvent) (rest : List HostEvent), s.pending = e :: rest → step s = .next t →
    e ≠ .reset → e ≠ cmdWrite 0x00000010#32 → SameInstance s t

/-- R75, R27, R92, R241: when the host's next event writes the word of a command to `CMD`, the step is that command's
`exec` from the state with the event taken, and then the host's answer; so is the step after `withFetchWord`. On an
illegal word the step changes `RES` to `ILLEGAL_CMD` (0x10), answers the host, and changes nothing else. R65, R66, R68:
when the event is an accepted write of any size outside `CMD`, the step is the store of its value at its address from
the state with the event taken, and then the host's answer. That the host is answered `writeAccepted`, after an illegal
word too, is the model's choice (log entry 14, DESIGN CHOICE); the list of events and `withFetchWord` are the model's
(log entry 1, DESIGN CHOICE). -/
def Obligations.StepRunsTheDecodedCommand : Prop :=
  (∀ (s u : State) (w : Word) (i : Instr) (rest : List HostEvent), decode w = .ok i →
    exec i (s.withPending rest) = .next u →
    (s.pending = cmdWrite w :: rest → step s = .next (u.respond .writeAccepted)) ∧
    (s.pending = rest → step (s.withFetchWord 32 w.toNat) = .next (u.respond .writeAccepted))) ∧
  Code.illegalCmd.value = 0x10#8 ∧
  (∀ (s : State) (w : Word) (e : Illegal) (rest : List HostEvent), decode w = .error e →
    s.pending = cmdWrite w :: rest →
    step s = .next (((s.withPending rest).withRes .illegalCmd).respond .writeAccepted)) ∧
  ∀ (s : State) (e : HostEvent) (rest : List HostEvent) (n a : Nat) (v : Word), s.pending = e :: rest →
    storeOf e = some (n, a, v) → accepted n a = true → kindAt a ≠ some .cmd →
    step s = .next ((storeWrite n a v (s.withPending rest)).respond .writeAccepted)

/-- R48, R270: a reset puts every piece of state at its reset value (what the host has still to do and has been answered
stays, which is the model's choice, log entry 7): no key, `RES` = `OK`, every byte 0x00, and every readable place of
the window reads 0, but `OVERHEAD`, which is 16. -/
def Obligations.ResetPutsEverythingAtItsResetValue : Prop :=
  (∀ (s : State) (rest : List HostEvent), s.pending = .reset :: rest →
    ∃ t, step s = .next t ∧ t.withPending [] = { State.reset with responses := s.responses ++ [.resetTaken] } ∧
      t.pending = rest) ∧
  State.reset.k1 = [] ∧ State.reset.k2 = [] ∧ State.reset.keyed = false ∧ State.reset.res = .ok ∧
  (∀ a, Memory.read State.reset.mem a = 0x00#8) ∧
  ∀ n a v, busRead n a State.reset = some v → v = if a = 0x0010 then 16#32 else 0#32

/-- R287, R259: the machine never stops: every step gives a next state, and with no host event left it keeps all its
state (the idle step is the model's choice, log entry 6). -/
def Obligations.StepNeverStops : Prop :=
  ∀ s : State, (∃ t, step s = .next t) ∧ (s.pending = [] → step s = .next s)

/-- The reset state is sound, in every build (R48). -/
def Obligations.ResetIsSound : Prop := ∀ C : Collaborators, Sound C State.reset

/-- Every step, of this machine and of every build, keeps the state sound: memory stays canonical and lists buffer bytes only; while keyed the keys are
valid keys of `KLEN` bytes, else there is none (R29, R32); `OUTLEN` is at most 4128 and `OUT` is zero beyond it
(R42, R46). -/
def Obligations.StepKeepsSound : Prop :=
  (∀ s t : State, Sound Config.wired s → step s = .next t → Sound Config.wired t) ∧
  ∀ (C : Collaborators) (s t : State), Sound C s → stepWith C s = .next t → Sound C t

/-- R192: from a state in which SEAL ends `OK`, `s2v b0` ; `ctrseed b1, b0` ; `ctr b1` end `OK` with `B[0] = V`,
`B[1] = Q`, and `V` followed by what CTR left in `OUT` is what SEAL writes to `OUT` from the same state. -/
def Obligations.SealIsTheCompositionOfTheSmallerCommands : Prop :=
  ∀ s t : State, exec .sealMsg s = .next t → t.res = .ok →
    ∃ s1 s2 s3, exec (.s2v 0) s = .next s1 ∧ exec (.ctrseed 1 0) s1 = .next s2 ∧ exec (.ctr 1) s2 = .next s3 ∧
      s1.res = .ok ∧ s2.res = .ok ∧ s3.res = .ok ∧ s3.outLen = s.inLen ∧
      readBlock s3 1 = ctrseed (readBlock s3 0) ∧ t.blocks = s.blocks ∧
      t.outLen.toNat = s.inLen.toNat + 16 ∧
      Memory.readBytes t.mem outBase (s.inLen.toNat + 16) =
        blockBytes (readBlock s3 0) ++ Memory.readBytes s3.mem outBase s.inLen.toNat

/-- R200 (a), R273, R274: if SEAL ended `OK`, then OPEN, from any state with the same keys, the same items and the
sealed output as its input, ends `OK` and gives back the sealer's input. -/
def Obligations.OpenAfterSealReturnsTheInput : Prop :=
  ∀ s t u : State, exec .sealMsg s = .next t → t.res = .ok → SameInstance s u → items u = items s →
    input u = some (Memory.readBytes t.mem outBase t.outLen.toNat) →
    ∃ r, exec .openMsg u = .next r ∧ r.res = .ok ∧
      OutputIs (Memory.readBytes s.mem inBase s.inLen.toNat) r

/-! ## The collaborators (45_collaborators.md) -/

/-- R227: how many calls of `H` and of `E` each command makes when it gets to its computation, with `p` present items
and `n` input bytes, those of OPEN to `E` first; the register commands, XOREND and PAD make none and NEW evaluates
`KeyValid` twice. That NEW does so whenever its length checks pass, also when the first half fails, where R180's
pseudocode would stop, is the model's reading (log entry 15, DEDUCED), as is the record of calls itself. R182: no call of `H` has another key than `K1`, and none of `E` another than `K2`. -/
def Obligations.CallCounts : Prop :=
  ∀ (C : Collaborators) (rd rs1 rs2 : RegIdx) (s : State),
    (∀ i, i ∈ [Instr.dbl rd rs1, .xor rd rs1 rs2, .xorend rs1, .pad rd, .ctrseed rd rs1] → calls C i s = []) ∧
    (s.kbufLen.toNat % 2 = 0 → 1 ≤ s.kbufLen.toNat → s.kbufLen.toNat ≤ 64 →
      hashCalls (calls C .newKey s) = 0 ∧ cipherCalls (calls C .newKey s) = 0 ∧ (calls C .newKey s).length = 2) ∧
    (s.keyed = true → s.inLen.toNat ≤ 4112 →
      hashCalls (calls C (.ctr rs1) s) = 0 ∧ cipherCalls (calls C (.ctr rs1) s) = (s.inLen.toNat + 15) / 16) ∧
    (∀ L, s.keyed = true → s.inLen.toNat ≤ 4112 → items s = some L →
      hashCalls (calls C (.s2v rd) s) = 2 + (presentItems L).length ∧ cipherCalls (calls C (.s2v rd) s) = 0 ∧
      hashCalls (calls C .sealMsg s) = 2 + (presentItems L).length ∧
      cipherCalls (calls C .sealMsg s) = (s.inLen.toNat + 15) / 16 ∧
      (16 ≤ s.inLen.toNat → hashCalls (calls C .openMsg s) = 2 + (presentItems L).length ∧
        cipherCalls (calls C .openMsg s) = (s.inLen.toNat - 16 + 15) / 16 ∧
        ∃ l l', calls C .openMsg s = l ++ l' ∧ hashCalls l = 0 ∧ cipherCalls l' = 0) ∧
      (s.inLen.toNat < 16 → calls C .openMsg s = [])) ∧
    ∀ i, (∀ K M, Call.hash K M ∈ calls C i s → K = s.k1) ∧ (∀ K X, Call.cipher K X ∈ calls C i s → K = s.k2)

/-- R9, R50, R154, R227: the machine is a function of its collaborators. This machine is the build `Config.wired`, whose
`KeyValid` keeps the bounds of R224. In every build the step that the host's write of a command to `CMD` starts is that
build's command and the host's answer. What a command does depends on the collaborators through its calls alone, and what
a step does through the calls of the command it starts: two builds that answer those alike do the same. That the host is
answered `writeAccepted` is the model's choice (log entry 14, DESIGN CHOICE). -/
def Obligations.CommandsDependOnTheirCallsAlone : Prop :=
  (∀ (i : Instr) (s : State), exec i s = execWith Config.wired i s) ∧
  (∀ s : State, step s = stepWith Config.wired s) ∧ Config.wired.Legal ∧
  (∀ (C : Collaborators) (s u : State) (w : Word) (i : Instr) (rest : List HostEvent), decode w = .ok i →
    s.pending = cmdWrite w :: rest → execWith C i (s.withPending rest) = .next u →
    stepWith C s = .next (u.respond .writeAccepted)) ∧
  (∀ (C C' : Collaborators) (i : Instr) (s : State), (∀ c ∈ calls C i s, c.agrees C C') →
    execWith C i s = execWith C' i s) ∧
  ∀ (C C' : Collaborators) (s : State),
    (∀ w i rest, s.pending = cmdWrite w :: rest → decode w = .ok i →
      ∀ c ∈ calls C i (s.withPending rest), c.agrees C C') →
    stepWith C s = stepWith C' s
end

