-- ==== Sys2Proof/Laws/Bytes.lean ====
section
/-! SUPPORT. The small lemmas of byte order and byte strings: a block is its sixteen bytes and back, lengths and bytes
of the exclusive or of byte strings, and the bytes of a bus access. -/

namespace Sys2Proof.Machine

@[simp] theorem zeros_length (n : Nat) : (zeros n).length = n := by simp [zeros]

@[simp] theorem getElem_zeros (n i : Nat) (h : i < (zeros n).length) : (zeros n)[i] = 0x00#8 := by simp [zeros]

@[simp] theorem blockBytes_length (X : Block) : (blockBytes X).length = 16 := by simp [blockBytes]

@[simp] theorem getElem_blockBytes (X : Block) (i : Nat) (h : i < (blockBytes X).length) :
    (blockBytes X)[i] = byteOf X i := by simp [blockBytes]

/-- Bit `k` of byte `i` of a block is bit `8*(15-i) + k` of its number (00_scope.md R13). -/
theorem getLsbD_byteOf (X : Block) (i k : Nat) :
    (byteOf X i).getLsbD k = (decide (k < 8) && X.getLsbD (8 * (15 - i) + k)) := by
  simp [byteOf, BitVec.getLsbD_extractLsb']

/-- Two blocks with the same sixteen bytes are equal. -/
theorem block_ext {X Y : Block} (h : ∀ i, i < 16 → byteOf X i = byteOf Y i) : X = Y := by
  apply BitVec.eq_of_getLsbD_eq
  intro j hj
  have hb := congrArg (fun b : Byte => b.getLsbD (j % 8)) (h (15 - j / 8) (by omega))
  have hk : j % 8 < 8 := Nat.mod_lt _ (by decide)
  have hidx : 8 * (15 - (15 - j / 8)) + j % 8 = j := by omega
  simpa only [getLsbD_byteOf, hk, hidx, decide_true, Bool.true_and] using hb

/-- One more byte at the end: the number read so far moves up by eight bits. -/
theorem blockOf_append_singleton (X : Bytes) (b : Byte) :
    blockOf (X ++ [b]) = (blockOf X <<< 8) ||| b.setWidth 128 := by
  simp [blockOf]

/-- Bit `k` of the number spelled by a byte string: bit `k mod 8` of the byte `k div 8` from the end
(00_scope.md R13). -/
theorem getLsbD_blockOf (X : Bytes) (k : Nat) (hk : k < 128) :
    (blockOf X).getLsbD k =
      if h : k / 8 < X.length then (X[X.length - 1 - k / 8]'(by omega)).getLsbD (k % 8) else false := by
  induction X using List.reverseRecOn generalizing k with
  | nil => simp [blockOf]
  | append_singleton X b ih =>
    rw [blockOf_append_singleton, BitVec.getLsbD_or, BitVec.getLsbD_shiftLeft, BitVec.getLsbD_setWidth]
    by_cases h8 : k < 8
    · have h0 : k / 8 = 0 := by omega
      have hm : k % 8 = k := by omega
      have hlen : X.length + 1 - 1 - 0 = X.length := by omega
      simp [h8, hk, h0, hm]
    · have ih := ih (k - 8) (by omega)
      have hb : b.getLsbD k = false := BitVec.getLsbD_of_ge b k (by omega)
      have hd : (k - 8) / 8 = k / 8 - 1 := by omega
      have hm : (k - 8) % 8 = k % 8 := by omega
      rw [ih, hb]
      by_cases hl : k / 8 - 1 < X.length
      · have hl' : k / 8 < (X ++ [b]).length := by simp; omega
        have hlt : X.length - 1 - (k / 8 - 1) < X.length := by omega
        have hi : (X ++ [b]).length - 1 - k / 8 = X.length - 1 - (k / 8 - 1) := by simp; omega
        simp only [hd, hm, hl, hl', dite_true, hi, List.getElem_append_left hlt]
        simp [h8, hk]
      · have hl' : ¬k / 8 < (X ++ [b]).length := by simp; omega
        rw [dif_neg hl', dif_neg (by omega)]
        simp

/-- Byte `i` of the block of sixteen given bytes is the `i`-th of them. -/
theorem byteOf_blockOf (X : Bytes) (h : X.length = 16) (i : Nat) (hi : i < 16) :
    byteOf (blockOf X) i = X[i] := by
  apply BitVec.eq_of_getLsbD_eq
  intro k hk
  have h1 : (8 * (15 - i) + k) / 8 = 15 - i := by omega
  have h2 : (8 * (15 - i) + k) % 8 = k := by omega
  have h3 : X.length - 1 - (15 - i) = i := by omega
  rw [getLsbD_byteOf, getLsbD_blockOf X _ (by omega)]
  simp only [h1, h2, h3, hk, decide_true, Bool.true_and]
  rw [dif_pos (by omega)]

/-- A block is the block of its bytes. -/
@[simp] theorem blockOf_blockBytes (X : Block) : blockOf (blockBytes X) = X :=
  block_ext fun i hi => by simp [byteOf_blockOf _ (blockBytes_length X) i hi]

/-- Sixteen bytes are the bytes of their block. -/
theorem blockBytes_blockOf (X : Bytes) (h : X.length = 16) : blockBytes (blockOf X) = X := by
  apply List.ext_getElem (by simp [h])
  intro i h1 h2
  simp [byteOf_blockOf X h i (by simpa using h1)]

theorem blockBytes_injective {X Y : Block} (h : blockBytes X = blockBytes Y) : X = Y := by
  simpa using congrArg blockOf h

/-- The bytes of a block in which one byte was replaced. -/
theorem byteOf_setByte (X : Block) (i : Nat) (b : Byte) (k : Nat) (hk : k < 16) :
    byteOf (setByte X i b) k = if i = k then b else byteOf X k := by
  rw [setByte, byteOf_blockOf _ (by simp) k hk]
  simp [List.getElem_set]

@[simp] theorem xorBytes_length (X Y : Bytes) : (xorBytes X Y).length = min X.length Y.length := by
  simp [xorBytes]

@[simp] theorem getElem_xorBytes (X Y : Bytes) (i : Nat) (h : i < (xorBytes X Y).length) :
    (xorBytes X Y)[i] = X[i]'(by simp at h; omega) ^^^ Y[i]'(by simp at h; omega) := by
  simp [xorBytes]

/-- Exclusive or with the same string twice gives the first string back. -/
theorem xorBytes_self_cancel (X S : Bytes) (h : X.length = S.length) : xorBytes (xorBytes X S) S = X := by
  apply List.ext_getElem (by simp [h])
  intro i h1 h2
  simp

/-- Byte `i` of the exclusive or of two blocks. -/
theorem byteOf_xor (X Y : Block) (i : Nat) : byteOf (X ^^^ Y) i = byteOf X i ^^^ byteOf Y i := by
  apply BitVec.eq_of_getLsbD_eq
  intro k hk
  simp only [getLsbD_byteOf, BitVec.getLsbD_xor]
  cases decide (k < 8) <;> simp

/-! ### The bytes of an access -/

/-- One more byte at the end of an access's bytes. -/
theorem wordOf_append_singleton (X : Bytes) (b : Byte) :
    wordOf (X ++ [b]) = (wordOf X <<< 8) ||| b.setWidth 32 := by simp [wordOf]

/-- Bit `k` of the value of an access: bit `k mod 8` of the byte `k div 8` from the end (20_memory.md R67). -/
theorem getLsbD_wordOf (X : Bytes) (k : Nat) (hk : k < 32) :
    (wordOf X).getLsbD k =
      if h : k / 8 < X.length then (X[X.length - 1 - k / 8]'(by omega)).getLsbD (k % 8) else false := by
  induction X using List.reverseRecOn generalizing k with
  | nil => simp [wordOf]
  | append_singleton X b ih =>
    rw [wordOf_append_singleton, BitVec.getLsbD_or, BitVec.getLsbD_shiftLeft, BitVec.getLsbD_setWidth]
    by_cases h8 : k < 8
    · have h0 : k / 8 = 0 := by omega
      have hm : k % 8 = k := by omega
      simp [h8, hk, h0, hm]
    · have ih := ih (k - 8) (by omega)
      have hb : b.getLsbD k = false := BitVec.getLsbD_of_ge b k (by omega)
      have hd : (k - 8) / 8 = k / 8 - 1 := by omega
      have hm : (k - 8) % 8 = k % 8 := by omega
      rw [ih, hb]
      by_cases hl : k / 8 - 1 < X.length
      · have hl' : k / 8 < (X ++ [b]).length := by simp; omega
        have hlt : X.length - 1 - (k / 8 - 1) < X.length := by omega
        have hi : (X ++ [b]).length - 1 - k / 8 = X.length - 1 - (k / 8 - 1) := by simp; omega
        simp only [hd, hm, hl, hl', dite_true, hi, List.getElem_append_left hlt]
        simp [h8, hk]
      · have hl' : ¬k / 8 < (X ++ [b]).length := by simp; omega
        rw [dif_neg hl', dif_neg (by omega)]
        simp

/-- Bit `k` of byte `j` of an access's value (20_memory.md R66). -/
theorem getLsbD_wordByte (n : Nat) (v : Word) (j k : Nat) :
    (wordByte n v j).getLsbD k = (decide (k < 8) && v.getLsbD (8 * (n - 1 - j) + k)) := by
  simp [wordByte, BitVec.getLsbD_extractLsb']

end Sys2Proof.Machine
end

