-- ==== Sys2Proof/Laws/Memory.lean ====
section
/-! SUPPORT. The laws of the byte memory: a read after a write, everywhere else unchanged, and that every memory
operation keeps the canonical form. -/

namespace Sys2Proof.Machine.Memory

@[simp] theorem read_nil (a : Nat) : read [] a = 0x00#8 := rfl

theorem read_cons (k : Nat) (b : Byte) (m : List Host.Cell) (a : Nat) :
    read ((k, b) :: m) a = if k = a then b else read m a := rfl

/-- Reading after entries were dropped by a test on their address. -/
theorem read_filter (p : Nat → Bool) (m : List Host.Cell) (a : Nat) :
    read (m.filter fun c => p c.1) a = if p a then read m a else 0x00#8 := by
  induction m with
  | nil => simp
  | cons c m ih =>
    obtain ⟨k, b⟩ := c
    by_cases hp : p k
    · by_cases hk : k = a
      · subst hk; simp [hp, read_cons]
      · simp [hp, read_cons, hk, ih]
    · by_cases hk : k = a
      · subst hk; simp [hp, ih]
      · simp [hp, read_cons, hk, ih]

theorem read_erase (m : List Host.Cell) (a a' : Nat) :
    read (erase m a) a' = if a' = a then 0x00#8 else read m a' := by
  rw [erase, read_filter (fun k => k != a)]
  by_cases h : a' = a <;> simp [h]

theorem read_insert (m : List Host.Cell) (a : Nat) (b : Byte) (a' : Nat) (h : ∀ c ∈ m, c.1 ≠ a) :
    read (insert m a b) a' = if a' = a then b else read m a' := by
  induction m with
  | nil => simp [insert, read_cons, eq_comm]
  | cons c m ih =>
    obtain ⟨k, d⟩ := c
    have hk : k ≠ a := h (k, d) (by simp)
    have ih := ih fun c hc => h c (by simp [hc])
    unfold insert
    split
    · simp [read_cons, eq_comm]
    · by_cases hka : k = a'
      · subst hka; simp [read_cons, hk]
      · simp [read_cons, hka, ih]

theorem not_mem_erase (m : List Host.Cell) (a : Nat) : ∀ c ∈ erase m a, c.1 ≠ a := by
  intro c hc; simpa using (List.mem_filter.mp hc).2

/-- Read after write: the value written at the address, every other byte as before. -/
theorem read_write (m : List Host.Cell) (a : Nat) (b : Byte) (a' : Nat) :
    read (write m a b) a' = if a' = a then b else read m a' := by
  unfold write
  split
  · next h => rw [read_erase, h]
  · rw [read_insert _ _ _ _ (not_mem_erase m a), read_erase]
    by_cases h : a' = a <;> simp [h]

@[simp] theorem read_write_same (m : List Host.Cell) (a : Nat) (b : Byte) : read (write m a b) a = b := by
  simp [read_write]

theorem read_write_other (m : List Host.Cell) {a a' : Nat} (b : Byte) (h : a' ≠ a) :
    read (write m a b) a' = read m a' := by simp [read_write, h]

/-- A cleared range reads 0x00, every other byte as before. -/
theorem read_clear (m : List Host.Cell) (base n a : Nat) :
    read (clear m base n) a = if base ≤ a ∧ a < base + n then 0x00#8 else read m a := by
  rw [clear, read_filter (fun k => decide (k < base) || decide (base + n ≤ k))]
  by_cases h : base ≤ a ∧ a < base + n
  · have h' : ¬(a < base ∨ base + n ≤ a) := by omega
    simp [h, h']
  · have h' : a < base ∨ base + n ≤ a := by omega
    simp [h, h']

/-- A written string stands from `base` on, every other byte as before. -/
theorem read_writeBytes (X : Bytes) (m : List Host.Cell) (base a : Nat) :
    read (writeBytes m base X) a = if h : base ≤ a ∧ a < base + X.length then X[a - base]'(by omega)
      else read m a := by
  induction X generalizing m base with
  | nil =>
    have h : ¬(base ≤ a ∧ a < base + ([] : Bytes).length) := by simp
    simp only [writeBytes, dif_neg h]
  | cons b X ih =>
    rw [writeBytes, ih]
    by_cases h0 : a = base
    · subst h0; simp
    · by_cases h : base + 1 ≤ a ∧ a < base + 1 + X.length
      · have h' : base ≤ a ∧ a < base + (b :: X).length := by simp; omega
        rw [dif_pos h, dif_pos h']
        have : a - base = (a - (base + 1)) + 1 := by omega
        simp [this]
      · have h' : ¬(base ≤ a ∧ a < base + (b :: X).length) := by simp; omega
        rw [dif_neg h, dif_neg h', read_write_other _ _ h0]

@[simp] theorem readBytes_length (m : List Host.Cell) (base n : Nat) : (readBytes m base n).length = n := by
  simp [readBytes]

@[simp] theorem getElem_readBytes (m : List Host.Cell) (base n i : Nat) (h : i < (readBytes m base n).length) :
    (readBytes m base n)[i] = read m (base + i) := by simp [readBytes]

/-- Reading a string back from where it was written. -/
theorem readBytes_writeBytes (m : List Host.Cell) (base : Nat) (X : Bytes) :
    readBytes (writeBytes m base X) base X.length = X := by
  apply List.ext_getElem (by simp)
  intro i h1 h2
  simp [read_writeBytes, h2]

/-- A string read where nothing was changed. -/
theorem readBytes_congr {m m' : List Host.Cell} {base n : Nat}
    (h : ∀ i, i < n → read m (base + i) = read m' (base + i)) : readBytes m base n = readBytes m' base n := by
  apply List.ext_getElem (by simp)
  intro i h1 h2
  simpa using h i (by simpa using h1)

/-! ### The canonical form -/

theorem wf_nil : wf [] := by simp [wf]

theorem wf_filter (p : Host.Cell → Bool) {m : List Host.Cell} (h : wf m) : wf (m.filter p) :=
  ⟨h.1.filter p, fun c hc => h.2 c (List.mem_filter.mp hc).1⟩

theorem wf_erase {m : List Host.Cell} (h : wf m) (a : Nat) : wf (erase m a) := wf_filter _ h

theorem wf_clear {m : List Host.Cell} (h : wf m) (base n : Nat) : wf (clear m base n) := wf_filter _ h

theorem mem_insert {m : List Host.Cell} {a : Nat} {b : Byte} {c : Host.Cell} (h : c ∈ insert m a b) :
    c = (a, b) ∨ c ∈ m := by
  induction m with
  | nil => simpa [insert] using h
  | cons d m ih =>
    obtain ⟨k, e⟩ := d
    unfold insert at h
    split at h
    · simpa using h
    · rcases List.mem_cons.mp h with h | h
      · exact .inr (by simp [h])
      · rcases ih h with h | h
        · exact .inl h
        · exact .inr (by simp [h])

theorem wf_insert {m : List Host.Cell} {a : Nat} {b : Byte} (h : wf m) (ha : ∀ c ∈ m, c.1 ≠ a) (hb : b ≠ 0x00#8) :
    wf (insert m a b) := by
  induction m with
  | nil => exact ⟨by simp [insert], by simpa [insert] using hb⟩
  | cons d m ih =>
    obtain ⟨k, e⟩ := d
    have hd := List.pairwise_cons.mp h.1
    have hka : k ≠ a := ha (k, e) (by simp)
    have htail : wf m := ⟨hd.2, fun c hc => h.2 c (by simp [hc])⟩
    have ih := ih htail fun c hc => ha c (by simp [hc])
    unfold insert
    split
    · next hlt =>
      refine ⟨List.pairwise_cons.mpr ⟨?_, h.1⟩, ?_⟩
      · intro c hc
        rcases List.mem_cons.mp hc with rfl | hc
        · exact hlt
        · exact Nat.lt_trans hlt (hd.1 c hc)
      · intro c hc
        rcases List.mem_cons.mp hc with rfl | hc
        · exact hb
        · exact h.2 c hc
    · next hge =>
      refine ⟨List.pairwise_cons.mpr ⟨?_, ih.1⟩, ?_⟩
      · intro c hc
        rcases mem_insert hc with rfl | hc
        · exact Nat.lt_of_le_of_ne (Nat.le_of_not_lt hge) hka
        · exact hd.1 c hc
      · intro c hc
        rcases List.mem_cons.mp hc with rfl | hc
        · exact h.2 _ (by simp)
        · exact ih.2 c hc

theorem wf_write {m : List Host.Cell} (h : wf m) (a : Nat) (b : Byte) : wf (write m a b) := by
  unfold write
  split
  · exact wf_erase h a
  · next hb => exact wf_insert (wf_erase h a) (not_mem_erase m a) hb

theorem wf_writeBytes {m : List Host.Cell} (h : wf m) (base : Nat) (X : Bytes) : wf (writeBytes m base X) := by
  induction X generalizing m base with
  | nil => exact h
  | cons b X ih => exact ih (wf_write h base b) (base + 1)

/-! ### Which addresses are listed -/

theorem mem_write {m : List Host.Cell} {a : Nat} {b : Byte} {c : Host.Cell} (h : c ∈ write m a b) :
    c.1 = a ∨ c ∈ m := by
  unfold write at h
  split at h
  · exact .inr (List.mem_filter.mp h).1
  · rcases mem_insert h with rfl | h
    · exact .inl rfl
    · exact .inr (List.mem_filter.mp h).1

theorem mem_writeBytes {X : Bytes} {m : List Host.Cell} {base : Nat} {c : Host.Cell}
    (h : c ∈ writeBytes m base X) : (base ≤ c.1 ∧ c.1 < base + X.length) ∨ c ∈ m := by
  induction X generalizing m base with
  | nil => exact .inr h
  | cons b X ih =>
    rcases ih h with h | h
    · left; simp; omega
    · rcases mem_write h with h | h
      · left; simp; omega
      · exact .inr h

theorem mem_clear {m : List Host.Cell} {base n : Nat} {c : Host.Cell} (h : c ∈ clear m base n) : c ∈ m :=
  (List.mem_filter.mp h).1

/-- Two canonical memories that read alike everywhere are equal. -/
theorem eq_of_read_eq {m m' : List Host.Cell} (h : wf m) (h' : wf m') (hr : ∀ a, read m a = read m' a) : m = m' := by
  induction m generalizing m' with
  | nil =>
    cases m' with
    | nil => rfl
    | cons c m' =>
      obtain ⟨k, b⟩ := c
      have := hr k
      simp [read_cons] at this
      exact absurd this.symm (h'.2 (k, b) (by simp))
  | cons c m ih =>
    obtain ⟨k, b⟩ := c
    have hc := List.pairwise_cons.mp h.1
    have hb : b ≠ 0x00#8 := h.2 (k, b) (by simp)
    have out : ∀ (l : List Host.Cell) (a : Nat), (∀ c ∈ l, a < c.1) → read l a = 0x00#8 := by
      intro l a hl
      induction l with
      | nil => rfl
      | cons d l ihl =>
        obtain ⟨k', b'⟩ := d
        have := hl (k', b') (by simp)
        rw [read_cons, if_neg (by simp at this; omega)]
        exact ihl fun c hc => hl c (by simp [hc])
    cases m' with
    | nil =>
      have := hr k
      simp [read_cons] at this
      exact absurd this hb
    | cons d m' =>
      obtain ⟨k', b'⟩ := d
      have hd := List.pairwise_cons.mp h'.1
      have hb' : b' ≠ 0x00#8 := h'.2 (k', b') (by simp)
      have hk : k = k' := by
        rcases Nat.lt_trichotomy k k' with hlt | heq | hgt
        · have := hr k
          rw [read_cons, if_pos rfl, read_cons, if_neg (by omega),
            out m' k fun c hc => Nat.lt_trans hlt (hd.1 c hc)] at this
          exact absurd this hb
        · exact heq
        · have := hr k'
          rw [read_cons, if_neg (by omega), out m k' fun c hcm => Nat.lt_trans hgt (hc.1 c hcm), read_cons,
            if_pos rfl] at this
          exact absurd this.symm hb'
      subst hk
      have hbb : b = b' := by simpa [read_cons] using hr k
      subst hbb
      congr 1
      refine ih ⟨hc.2, fun c hcm => h.2 c (by simp [hcm])⟩ ⟨hd.2, fun c hcm => h'.2 c (by simp [hcm])⟩ fun a => ?_
      by_cases ha : k = a
      · subst ha; rw [out m k hc.1, out m' k hd.1]
      · simpa [read_cons, ha] using hr a

end Sys2Proof.Machine.Memory
end

