-- ==== Sys2Proof/Laws/State.lean ====
section
/-! SUPPORT. What each named update of State does to each field: one lemma per field per update, true by `rfl`. -/

namespace Sys2Proof.Machine.State

variable (s : State)

/-! ### `withRes` -/

@[simp] theorem withRes_k1 (c : Code) : (s.withRes c).k1 = s.k1 := rfl
@[simp] theorem withRes_k2 (c : Code) : (s.withRes c).k2 = s.k2 := rfl
@[simp] theorem withRes_keyed (c : Code) : (s.withRes c).keyed = s.keyed := rfl
@[simp] theorem withRes_klen (c : Code) : (s.withRes c).klen = s.klen := rfl
@[simp] theorem withRes_res (c : Code) : (s.withRes c).res = c := rfl
@[simp] theorem withRes_kbufLen (c : Code) : (s.withRes c).kbufLen = s.kbufLen := rfl
@[simp] theorem withRes_adcnt (c : Code) : (s.withRes c).adcnt = s.adcnt := rfl
@[simp] theorem withRes_adctl (c : Code) : (s.withRes c).adctl = s.adctl := rfl
@[simp] theorem withRes_nonceCtl (c : Code) : (s.withRes c).nonceCtl = s.nonceCtl := rfl
@[simp] theorem withRes_inLen (c : Code) : (s.withRes c).inLen = s.inLen := rfl
@[simp] theorem withRes_outLen (c : Code) : (s.withRes c).outLen = s.outLen := rfl
@[simp] theorem withRes_blocks (c : Code) : (s.withRes c).blocks = s.blocks := rfl
@[simp] theorem withRes_mem (c : Code) : (s.withRes c).mem = s.mem := rfl
@[simp] theorem withRes_pending (c : Code) : (s.withRes c).pending = s.pending := rfl
@[simp] theorem withRes_responses (c : Code) : (s.withRes c).responses = s.responses := rfl

/-! ### `withBlock` -/

@[simp] theorem withBlock_k1 (j : RegIdx) (v : Block) : (s.withBlock j v).k1 = s.k1 := rfl
@[simp] theorem withBlock_k2 (j : RegIdx) (v : Block) : (s.withBlock j v).k2 = s.k2 := rfl
@[simp] theorem withBlock_keyed (j : RegIdx) (v : Block) : (s.withBlock j v).keyed = s.keyed := rfl
@[simp] theorem withBlock_klen (j : RegIdx) (v : Block) : (s.withBlock j v).klen = s.klen := rfl
@[simp] theorem withBlock_res (j : RegIdx) (v : Block) : (s.withBlock j v).res = s.res := rfl
@[simp] theorem withBlock_kbufLen (j : RegIdx) (v : Block) : (s.withBlock j v).kbufLen = s.kbufLen := rfl
@[simp] theorem withBlock_adcnt (j : RegIdx) (v : Block) : (s.withBlock j v).adcnt = s.adcnt := rfl
@[simp] theorem withBlock_adctl (j : RegIdx) (v : Block) : (s.withBlock j v).adctl = s.adctl := rfl
@[simp] theorem withBlock_nonceCtl (j : RegIdx) (v : Block) : (s.withBlock j v).nonceCtl = s.nonceCtl := rfl
@[simp] theorem withBlock_inLen (j : RegIdx) (v : Block) : (s.withBlock j v).inLen = s.inLen := rfl
@[simp] theorem withBlock_outLen (j : RegIdx) (v : Block) : (s.withBlock j v).outLen = s.outLen := rfl
@[simp] theorem withBlock_blocks (j : RegIdx) (v : Block) : (s.withBlock j v).blocks = s.blocks.set j v := rfl
@[simp] theorem withBlock_mem (j : RegIdx) (v : Block) : (s.withBlock j v).mem = s.mem := rfl
@[simp] theorem withBlock_pending (j : RegIdx) (v : Block) : (s.withBlock j v).pending = s.pending := rfl
@[simp] theorem withBlock_responses (j : RegIdx) (v : Block) : (s.withBlock j v).responses = s.responses := rfl

/-! ### `withMem` -/

@[simp] theorem withMem_k1 (m : List Host.Cell) : (s.withMem m).k1 = s.k1 := rfl
@[simp] theorem withMem_k2 (m : List Host.Cell) : (s.withMem m).k2 = s.k2 := rfl
@[simp] theorem withMem_keyed (m : List Host.Cell) : (s.withMem m).keyed = s.keyed := rfl
@[simp] theorem withMem_klen (m : List Host.Cell) : (s.withMem m).klen = s.klen := rfl
@[simp] theorem withMem_res (m : List Host.Cell) : (s.withMem m).res = s.res := rfl
@[simp] theorem withMem_kbufLen (m : List Host.Cell) : (s.withMem m).kbufLen = s.kbufLen := rfl
@[simp] theorem withMem_adcnt (m : List Host.Cell) : (s.withMem m).adcnt = s.adcnt := rfl
@[simp] theorem withMem_adctl (m : List Host.Cell) : (s.withMem m).adctl = s.adctl := rfl
@[simp] theorem withMem_nonceCtl (m : List Host.Cell) : (s.withMem m).nonceCtl = s.nonceCtl := rfl
@[simp] theorem withMem_inLen (m : List Host.Cell) : (s.withMem m).inLen = s.inLen := rfl
@[simp] theorem withMem_outLen (m : List Host.Cell) : (s.withMem m).outLen = s.outLen := rfl
@[simp] theorem withMem_blocks (m : List Host.Cell) : (s.withMem m).blocks = s.blocks := rfl
@[simp] theorem withMem_mem (m : List Host.Cell) : (s.withMem m).mem = m := rfl
@[simp] theorem withMem_pending (m : List Host.Cell) : (s.withMem m).pending = s.pending := rfl
@[simp] theorem withMem_responses (m : List Host.Cell) : (s.withMem m).responses = s.responses := rfl

/-! ### `withOutLen` -/

@[simp] theorem withOutLen_k1 (n : BitVec 16) : (s.withOutLen n).k1 = s.k1 := rfl
@[simp] theorem withOutLen_k2 (n : BitVec 16) : (s.withOutLen n).k2 = s.k2 := rfl
@[simp] theorem withOutLen_keyed (n : BitVec 16) : (s.withOutLen n).keyed = s.keyed := rfl
@[simp] theorem withOutLen_klen (n : BitVec 16) : (s.withOutLen n).klen = s.klen := rfl
@[simp] theorem withOutLen_res (n : BitVec 16) : (s.withOutLen n).res = s.res := rfl
@[simp] theorem withOutLen_kbufLen (n : BitVec 16) : (s.withOutLen n).kbufLen = s.kbufLen := rfl
@[simp] theorem withOutLen_adcnt (n : BitVec 16) : (s.withOutLen n).adcnt = s.adcnt := rfl
@[simp] theorem withOutLen_adctl (n : BitVec 16) : (s.withOutLen n).adctl = s.adctl := rfl
@[simp] theorem withOutLen_nonceCtl (n : BitVec 16) : (s.withOutLen n).nonceCtl = s.nonceCtl := rfl
@[simp] theorem withOutLen_inLen (n : BitVec 16) : (s.withOutLen n).inLen = s.inLen := rfl
@[simp] theorem withOutLen_outLen (n : BitVec 16) : (s.withOutLen n).outLen = n := rfl
@[simp] theorem withOutLen_blocks (n : BitVec 16) : (s.withOutLen n).blocks = s.blocks := rfl
@[simp] theorem withOutLen_mem (n : BitVec 16) : (s.withOutLen n).mem = s.mem := rfl
@[simp] theorem withOutLen_pending (n : BitVec 16) : (s.withOutLen n).pending = s.pending := rfl
@[simp] theorem withOutLen_responses (n : BitVec 16) : (s.withOutLen n).responses = s.responses := rfl

/-! ### `withInstance` -/

@[simp] theorem withInstance_k1 (a z : Bytes) (b : Bool) (k : BitVec 8) : (s.withInstance a z b k).k1 = a := rfl
@[simp] theorem withInstance_k2 (a z : Bytes) (b : Bool) (k : BitVec 8) : (s.withInstance a z b k).k2 = z := rfl
@[simp] theorem withInstance_keyed (a z : Bytes) (b : Bool) (k : BitVec 8) : (s.withInstance a z b k).keyed = b := rfl
@[simp] theorem withInstance_klen (a z : Bytes) (b : Bool) (k : BitVec 8) : (s.withInstance a z b k).klen = k := rfl
@[simp] theorem withInstance_res (a z : Bytes) (b : Bool) (k : BitVec 8) : (s.withInstance a z b k).res = s.res := rfl
@[simp] theorem withInstance_kbufLen (a z : Bytes) (b : Bool) (k : BitVec 8) : (s.withInstance a z b k).kbufLen = s.kbufLen := rfl
@[simp] theorem withInstance_adcnt (a z : Bytes) (b : Bool) (k : BitVec 8) : (s.withInstance a z b k).adcnt = s.adcnt := rfl
@[simp] theorem withInstance_adctl (a z : Bytes) (b : Bool) (k : BitVec 8) : (s.withInstance a z b k).adctl = s.adctl := rfl
@[simp] theorem withInstance_nonceCtl (a z : Bytes) (b : Bool) (k : BitVec 8) : (s.withInstance a z b k).nonceCtl = s.nonceCtl := rfl
@[simp] theorem withInstance_inLen (a z : Bytes) (b : Bool) (k : BitVec 8) : (s.withInstance a z b k).inLen = s.inLen := rfl
@[simp] theorem withInstance_outLen (a z : Bytes) (b : Bool) (k : BitVec 8) : (s.withInstance a z b k).outLen = s.outLen := rfl
@[simp] theorem withInstance_blocks (a z : Bytes) (b : Bool) (k : BitVec 8) : (s.withInstance a z b k).blocks = s.blocks := rfl
@[simp] theorem withInstance_mem (a z : Bytes) (b : Bool) (k : BitVec 8) : (s.withInstance a z b k).mem = s.mem := rfl
@[simp] theorem withInstance_pending (a z : Bytes) (b : Bool) (k : BitVec 8) : (s.withInstance a z b k).pending = s.pending := rfl
@[simp] theorem withInstance_responses (a z : Bytes) (b : Bool) (k : BitVec 8) : (s.withInstance a z b k).responses = s.responses := rfl

/-! ### `withKbufLen` -/

@[simp] theorem withKbufLen_k1 (n : BitVec 8) : (s.withKbufLen n).k1 = s.k1 := rfl
@[simp] theorem withKbufLen_k2 (n : BitVec 8) : (s.withKbufLen n).k2 = s.k2 := rfl
@[simp] theorem withKbufLen_keyed (n : BitVec 8) : (s.withKbufLen n).keyed = s.keyed := rfl
@[simp] theorem withKbufLen_klen (n : BitVec 8) : (s.withKbufLen n).klen = s.klen := rfl
@[simp] theorem withKbufLen_res (n : BitVec 8) : (s.withKbufLen n).res = s.res := rfl
@[simp] theorem withKbufLen_kbufLen (n : BitVec 8) : (s.withKbufLen n).kbufLen = n := rfl
@[simp] theorem withKbufLen_adcnt (n : BitVec 8) : (s.withKbufLen n).adcnt = s.adcnt := rfl
@[simp] theorem withKbufLen_adctl (n : BitVec 8) : (s.withKbufLen n).adctl = s.adctl := rfl
@[simp] theorem withKbufLen_nonceCtl (n : BitVec 8) : (s.withKbufLen n).nonceCtl = s.nonceCtl := rfl
@[simp] theorem withKbufLen_inLen (n : BitVec 8) : (s.withKbufLen n).inLen = s.inLen := rfl
@[simp] theorem withKbufLen_outLen (n : BitVec 8) : (s.withKbufLen n).outLen = s.outLen := rfl
@[simp] theorem withKbufLen_blocks (n : BitVec 8) : (s.withKbufLen n).blocks = s.blocks := rfl
@[simp] theorem withKbufLen_mem (n : BitVec 8) : (s.withKbufLen n).mem = s.mem := rfl
@[simp] theorem withKbufLen_pending (n : BitVec 8) : (s.withKbufLen n).pending = s.pending := rfl
@[simp] theorem withKbufLen_responses (n : BitVec 8) : (s.withKbufLen n).responses = s.responses := rfl

/-! ### `withAdcnt` -/

@[simp] theorem withAdcnt_k1 (n : BitVec 8) : (s.withAdcnt n).k1 = s.k1 := rfl
@[simp] theorem withAdcnt_k2 (n : BitVec 8) : (s.withAdcnt n).k2 = s.k2 := rfl
@[simp] theorem withAdcnt_keyed (n : BitVec 8) : (s.withAdcnt n).keyed = s.keyed := rfl
@[simp] theorem withAdcnt_klen (n : BitVec 8) : (s.withAdcnt n).klen = s.klen := rfl
@[simp] theorem withAdcnt_res (n : BitVec 8) : (s.withAdcnt n).res = s.res := rfl
@[simp] theorem withAdcnt_kbufLen (n : BitVec 8) : (s.withAdcnt n).kbufLen = s.kbufLen := rfl
@[simp] theorem withAdcnt_adcnt (n : BitVec 8) : (s.withAdcnt n).adcnt = n := rfl
@[simp] theorem withAdcnt_adctl (n : BitVec 8) : (s.withAdcnt n).adctl = s.adctl := rfl
@[simp] theorem withAdcnt_nonceCtl (n : BitVec 8) : (s.withAdcnt n).nonceCtl = s.nonceCtl := rfl
@[simp] theorem withAdcnt_inLen (n : BitVec 8) : (s.withAdcnt n).inLen = s.inLen := rfl
@[simp] theorem withAdcnt_outLen (n : BitVec 8) : (s.withAdcnt n).outLen = s.outLen := rfl
@[simp] theorem withAdcnt_blocks (n : BitVec 8) : (s.withAdcnt n).blocks = s.blocks := rfl
@[simp] theorem withAdcnt_mem (n : BitVec 8) : (s.withAdcnt n).mem = s.mem := rfl
@[simp] theorem withAdcnt_pending (n : BitVec 8) : (s.withAdcnt n).pending = s.pending := rfl
@[simp] theorem withAdcnt_responses (n : BitVec 8) : (s.withAdcnt n).responses = s.responses := rfl

/-! ### `withAdctl` -/

@[simp] theorem withAdctl_k1 (i : Fin 8) (c : Slot) : (s.withAdctl i c).k1 = s.k1 := rfl
@[simp] theorem withAdctl_k2 (i : Fin 8) (c : Slot) : (s.withAdctl i c).k2 = s.k2 := rfl
@[simp] theorem withAdctl_keyed (i : Fin 8) (c : Slot) : (s.withAdctl i c).keyed = s.keyed := rfl
@[simp] theorem withAdctl_klen (i : Fin 8) (c : Slot) : (s.withAdctl i c).klen = s.klen := rfl
@[simp] theorem withAdctl_res (i : Fin 8) (c : Slot) : (s.withAdctl i c).res = s.res := rfl
@[simp] theorem withAdctl_kbufLen (i : Fin 8) (c : Slot) : (s.withAdctl i c).kbufLen = s.kbufLen := rfl
@[simp] theorem withAdctl_adcnt (i : Fin 8) (c : Slot) : (s.withAdctl i c).adcnt = s.adcnt := rfl
@[simp] theorem withAdctl_adctl (i : Fin 8) (c : Slot) : (s.withAdctl i c).adctl = s.adctl.set i c := rfl
@[simp] theorem withAdctl_nonceCtl (i : Fin 8) (c : Slot) : (s.withAdctl i c).nonceCtl = s.nonceCtl := rfl
@[simp] theorem withAdctl_inLen (i : Fin 8) (c : Slot) : (s.withAdctl i c).inLen = s.inLen := rfl
@[simp] theorem withAdctl_outLen (i : Fin 8) (c : Slot) : (s.withAdctl i c).outLen = s.outLen := rfl
@[simp] theorem withAdctl_blocks (i : Fin 8) (c : Slot) : (s.withAdctl i c).blocks = s.blocks := rfl
@[simp] theorem withAdctl_mem (i : Fin 8) (c : Slot) : (s.withAdctl i c).mem = s.mem := rfl
@[simp] theorem withAdctl_pending (i : Fin 8) (c : Slot) : (s.withAdctl i c).pending = s.pending := rfl
@[simp] theorem withAdctl_responses (i : Fin 8) (c : Slot) : (s.withAdctl i c).responses = s.responses := rfl

/-! ### `withNonceCtl` -/

@[simp] theorem withNonceCtl_k1 (c : Slot) : (s.withNonceCtl c).k1 = s.k1 := rfl
@[simp] theorem withNonceCtl_k2 (c : Slot) : (s.withNonceCtl c).k2 = s.k2 := rfl
@[simp] theorem withNonceCtl_keyed (c : Slot) : (s.withNonceCtl c).keyed = s.keyed := rfl
@[simp] theorem withNonceCtl_klen (c : Slot) : (s.withNonceCtl c).klen = s.klen := rfl
@[simp] theorem withNonceCtl_res (c : Slot) : (s.withNonceCtl c).res = s.res := rfl
@[simp] theorem withNonceCtl_kbufLen (c : Slot) : (s.withNonceCtl c).kbufLen = s.kbufLen := rfl
@[simp] theorem withNonceCtl_adcnt (c : Slot) : (s.withNonceCtl c).adcnt = s.adcnt := rfl
@[simp] theorem withNonceCtl_adctl (c : Slot) : (s.withNonceCtl c).adctl = s.adctl := rfl
@[simp] theorem withNonceCtl_nonceCtl (c : Slot) : (s.withNonceCtl c).nonceCtl = c := rfl
@[simp] theorem withNonceCtl_inLen (c : Slot) : (s.withNonceCtl c).inLen = s.inLen := rfl
@[simp] theorem withNonceCtl_outLen (c : Slot) : (s.withNonceCtl c).outLen = s.outLen := rfl
@[simp] theorem withNonceCtl_blocks (c : Slot) : (s.withNonceCtl c).blocks = s.blocks := rfl
@[simp] theorem withNonceCtl_mem (c : Slot) : (s.withNonceCtl c).mem = s.mem := rfl
@[simp] theorem withNonceCtl_pending (c : Slot) : (s.withNonceCtl c).pending = s.pending := rfl
@[simp] theorem withNonceCtl_responses (c : Slot) : (s.withNonceCtl c).responses = s.responses := rfl

/-! ### `withInLen` -/

@[simp] theorem withInLen_k1 (n : BitVec 16) : (s.withInLen n).k1 = s.k1 := rfl
@[simp] theorem withInLen_k2 (n : BitVec 16) : (s.withInLen n).k2 = s.k2 := rfl
@[simp] theorem withInLen_keyed (n : BitVec 16) : (s.withInLen n).keyed = s.keyed := rfl
@[simp] theorem withInLen_klen (n : BitVec 16) : (s.withInLen n).klen = s.klen := rfl
@[simp] theorem withInLen_res (n : BitVec 16) : (s.withInLen n).res = s.res := rfl
@[simp] theorem withInLen_kbufLen (n : BitVec 16) : (s.withInLen n).kbufLen = s.kbufLen := rfl
@[simp] theorem withInLen_adcnt (n : BitVec 16) : (s.withInLen n).adcnt = s.adcnt := rfl
@[simp] theorem withInLen_adctl (n : BitVec 16) : (s.withInLen n).adctl = s.adctl := rfl
@[simp] theorem withInLen_nonceCtl (n : BitVec 16) : (s.withInLen n).nonceCtl = s.nonceCtl := rfl
@[simp] theorem withInLen_inLen (n : BitVec 16) : (s.withInLen n).inLen = n := rfl
@[simp] theorem withInLen_outLen (n : BitVec 16) : (s.withInLen n).outLen = s.outLen := rfl
@[simp] theorem withInLen_blocks (n : BitVec 16) : (s.withInLen n).blocks = s.blocks := rfl
@[simp] theorem withInLen_mem (n : BitVec 16) : (s.withInLen n).mem = s.mem := rfl
@[simp] theorem withInLen_pending (n : BitVec 16) : (s.withInLen n).pending = s.pending := rfl
@[simp] theorem withInLen_responses (n : BitVec 16) : (s.withInLen n).responses = s.responses := rfl

/-! ### `withPending` -/

@[simp] theorem withPending_k1 (es : List HostEvent) : (s.withPending es).k1 = s.k1 := rfl
@[simp] theorem withPending_k2 (es : List HostEvent) : (s.withPending es).k2 = s.k2 := rfl
@[simp] theorem withPending_keyed (es : List HostEvent) : (s.withPending es).keyed = s.keyed := rfl
@[simp] theorem withPending_klen (es : List HostEvent) : (s.withPending es).klen = s.klen := rfl
@[simp] theorem withPending_res (es : List HostEvent) : (s.withPending es).res = s.res := rfl
@[simp] theorem withPending_kbufLen (es : List HostEvent) : (s.withPending es).kbufLen = s.kbufLen := rfl
@[simp] theorem withPending_adcnt (es : List HostEvent) : (s.withPending es).adcnt = s.adcnt := rfl
@[simp] theorem withPending_adctl (es : List HostEvent) : (s.withPending es).adctl = s.adctl := rfl
@[simp] theorem withPending_nonceCtl (es : List HostEvent) : (s.withPending es).nonceCtl = s.nonceCtl := rfl
@[simp] theorem withPending_inLen (es : List HostEvent) : (s.withPending es).inLen = s.inLen := rfl
@[simp] theorem withPending_outLen (es : List HostEvent) : (s.withPending es).outLen = s.outLen := rfl
@[simp] theorem withPending_blocks (es : List HostEvent) : (s.withPending es).blocks = s.blocks := rfl
@[simp] theorem withPending_mem (es : List HostEvent) : (s.withPending es).mem = s.mem := rfl
@[simp] theorem withPending_pending (es : List HostEvent) : (s.withPending es).pending = es := rfl
@[simp] theorem withPending_responses (es : List HostEvent) : (s.withPending es).responses = s.responses := rfl

/-! ### `respond` -/

@[simp] theorem respond_k1 (r : Response) : (s.respond r).k1 = s.k1 := rfl
@[simp] theorem respond_k2 (r : Response) : (s.respond r).k2 = s.k2 := rfl
@[simp] theorem respond_keyed (r : Response) : (s.respond r).keyed = s.keyed := rfl
@[simp] theorem respond_klen (r : Response) : (s.respond r).klen = s.klen := rfl
@[simp] theorem respond_res (r : Response) : (s.respond r).res = s.res := rfl
@[simp] theorem respond_kbufLen (r : Response) : (s.respond r).kbufLen = s.kbufLen := rfl
@[simp] theorem respond_adcnt (r : Response) : (s.respond r).adcnt = s.adcnt := rfl
@[simp] theorem respond_adctl (r : Response) : (s.respond r).adctl = s.adctl := rfl
@[simp] theorem respond_nonceCtl (r : Response) : (s.respond r).nonceCtl = s.nonceCtl := rfl
@[simp] theorem respond_inLen (r : Response) : (s.respond r).inLen = s.inLen := rfl
@[simp] theorem respond_outLen (r : Response) : (s.respond r).outLen = s.outLen := rfl
@[simp] theorem respond_blocks (r : Response) : (s.respond r).blocks = s.blocks := rfl
@[simp] theorem respond_mem (r : Response) : (s.respond r).mem = s.mem := rfl
@[simp] theorem respond_pending (r : Response) : (s.respond r).pending = s.pending := rfl
@[simp] theorem respond_responses (r : Response) : (s.respond r).responses = s.responses ++ [r] := rfl

end Sys2Proof.Machine.State
end

