-- ==== Sys2Proof/Laws/Ops.lean ====
section
/-! SUPPORT. One lemma for each shared operation that says once everything it can do: `done`, `raise`, block registers,
`SetOut`, the erasure and loading of an instance, `Input()`, `Items()`. -/

namespace Sys2Proof.Machine

/-! ### How a command ends -/

@[simp] theorem done_eq_next (s t : State) : done s = .next t ↔ t = s.withRes .ok := by
  simp [done, eq_comm]

@[simp] theorem raise_eq_next (c : Code) (s t : State) : raise c s = .next t ↔ t = s.withRes c := by
  simp [raise, eq_comm]

@[simp] theorem thenRespond_next (r : Response) (s : State) : thenRespond r (.next s) = .next (s.respond r) := rfl

/-! ### Block registers -/

@[simp] theorem readBlock_withRes (s : State) (c : Code) (j : RegIdx) :
    readBlock (s.withRes c) j = readBlock s j := rfl

@[simp] theorem readBlock_withMem (s : State) (m : List Host.Cell) (j : RegIdx) :
    readBlock (s.withMem m) j = readBlock s j := rfl

@[simp] theorem readBlock_respond (s : State) (r : Response) (j : RegIdx) :
    readBlock (s.respond r) j = readBlock s j := rfl

@[simp] theorem readBlock_withPending (s : State) (es : List HostEvent) (j : RegIdx) :
    readBlock (s.withPending es) j = readBlock s j := rfl

/-- A block register after a write of one of them. -/
theorem readBlock_withBlock (s : State) (i j : RegIdx) (v : Block) :
    readBlock (s.withBlock i v) j = if i = j then v else readBlock s j := by
  simp [readBlock, Vector.getElem_set, Fin.ext_iff]

@[simp] theorem readBlock_withBlock_same (s : State) (j : RegIdx) (v : Block) :
    readBlock (s.withBlock j v) j = v := by simp [readBlock_withBlock]

theorem readBlock_withBlock_other (s : State) {i j : RegIdx} (v : Block) (h : i ≠ j) :
    readBlock (s.withBlock i v) j = readBlock s j := by simp [readBlock_withBlock, h]

/-! ### `SetOut` -/

@[simp] theorem setOut_k1 (X : Bytes) (s : State) : (setOut X s).k1 = s.k1 := rfl
@[simp] theorem setOut_k2 (X : Bytes) (s : State) : (setOut X s).k2 = s.k2 := rfl
@[simp] theorem setOut_keyed (X : Bytes) (s : State) : (setOut X s).keyed = s.keyed := rfl
@[simp] theorem setOut_klen (X : Bytes) (s : State) : (setOut X s).klen = s.klen := rfl
@[simp] theorem setOut_res (X : Bytes) (s : State) : (setOut X s).res = s.res := rfl
@[simp] theorem setOut_kbufLen (X : Bytes) (s : State) : (setOut X s).kbufLen = s.kbufLen := rfl
@[simp] theorem setOut_adcnt (X : Bytes) (s : State) : (setOut X s).adcnt = s.adcnt := rfl
@[simp] theorem setOut_adctl (X : Bytes) (s : State) : (setOut X s).adctl = s.adctl := rfl
@[simp] theorem setOut_nonceCtl (X : Bytes) (s : State) : (setOut X s).nonceCtl = s.nonceCtl := rfl
@[simp] theorem setOut_inLen (X : Bytes) (s : State) : (setOut X s).inLen = s.inLen := rfl
@[simp] theorem setOut_outLen (X : Bytes) (s : State) : (setOut X s).outLen = BitVec.ofNat 16 X.length := rfl
@[simp] theorem setOut_blocks (X : Bytes) (s : State) : (setOut X s).blocks = s.blocks := rfl
@[simp] theorem setOut_mem (X : Bytes) (s : State) :
    (setOut X s).mem = Memory.writeBytes (Memory.clear s.mem outBase Config.outCap) outBase X := rfl
@[simp] theorem setOut_pending (X : Bytes) (s : State) : (setOut X s).pending = s.pending := rfl
@[simp] theorem setOut_responses (X : Bytes) (s : State) : (setOut X s).responses = s.responses := rfl

/-- The bytes after `SetOut(X)`: `X` at the start of `OUT`, then zeros, every byte outside `OUT` as before. -/
theorem read_setOut (X : Bytes) (s : State) (a : Nat) :
    Memory.read (setOut X s).mem a =
      if h : outBase ≤ a ∧ a < outBase + X.length then X[a - outBase]'(by omega)
      else if outBase ≤ a ∧ a < outBase + 4128 then 0x00#8 else Memory.read s.mem a := by
  rw [setOut_mem, Memory.read_writeBytes, Memory.read_clear]

theorem setOut_memWf (X : Bytes) {s : State} (h : Memory.wf s.mem) : Memory.wf (setOut X s).mem :=
  Memory.wf_writeBytes (Memory.wf_clear h _ _) _ _

/-! ### Erasing and loading an instance -/

/-- The bytes after the erasure of NEW: `KBUF` is zero, every other byte as before. -/
theorem read_eraseInstance (s : State) (a : Nat) :
    Memory.read (eraseInstance s).mem a =
      if kbufBase ≤ a ∧ a < kbufBase + 64 then 0x00#8 else Memory.read s.mem a := by
  simp [eraseInstance, Memory.read_clear]

theorem eraseInstance_memWf {s : State} (h : Memory.wf s.mem) : Memory.wf (eraseInstance s).mem :=
  Memory.wf_clear h _ _

/-! ### `Input()` and `Items()` -/

theorem input_eq_none_iff (s : State) : input s = none ↔ 4112 < s.inLen.toNat := by
  simp [input]

theorem input_eq_some_iff (s : State) (M : Bytes) :
    input s = some M ↔ s.inLen.toNat ≤ 4112 ∧ M = Memory.readBytes s.mem inBase s.inLen.toNat := by
  unfold input
  split
  · next h => simp at h ⊢; omega
  · next h => simp at h; simp [h, eq_comm]

theorem input_length {s : State} {M : Bytes} (h : input s = some M) : M.length = s.inLen.toNat := by
  rw [(input_eq_some_iff s M).mp h |>.2]; simp

theorem input_length_le {s : State} {M : Bytes} (h : input s = some M) : M.length ≤ 4112 := by
  rw [input_length h]; exact ((input_eq_some_iff s M).mp h).1

theorem slotItem_eq_none_iff (m : List Host.Cell) (c : Slot) (cap base : Nat) :
    slotItem m c cap base = none ↔ c.present = true ∧ cap < c.len.toNat := by
  unfold slotItem
  by_cases hp : c.present <;> by_cases hl : cap < c.len.toNat <;> simp [hp, hl]

theorem collect_eq_none_iff (L : List (Option Item)) : collect L = none ↔ none ∈ L := by
  induction L with
  | nil => simp [collect]
  | cons o L ih =>
    cases o with
    | none => simp [collect]
    | some it =>
      cases h : collect L with
      | none => simp [collect, h, ih.mp h]
      | some K =>
        have : none ∉ L := fun hm => by simp [ih.mpr hm] at h
        simp [collect, h, this]

/-- `Items()` is `LEN_ERROR` exactly when there are more than 8 slots in use, or a present slot in use or the present
nonce is longer than its capacity (60_exceptions.md R245). -/
theorem items_eq_none_iff (s : State) :
    items s = none ↔ 8 < s.adcnt.toNat ∨
      (∃ i : Fin 8, i.val < s.adcnt.toNat ∧ s.adctl[i].present = true ∧ 256 < s.adctl[i].len.toNat) ∨
      (s.nonceCtl.present = true ∧ 64 < s.nonceCtl.len.toNat) := by
  have hmem : ∀ (n : Nat) (i : Fin 8), n ≤ 8 → (i ∈ slotOrder.take n ↔ i.val < n) := by
    intro n i hn
    interval_cases n <;> revert i <;> decide
  by_cases h8 : 8 < s.adcnt.toNat
  · simp [items, h8]
  · have h8' : s.adcnt.toNat ≤ 8 := by omega
    simp only [items, h8, if_false, false_or, collect_eq_none_iff, List.mem_append, List.mem_map,
      List.mem_singleton, adItem, nonceItem, slotItem_eq_none_iff, hmem _ _ h8', eq_comm (a := none)]

end Sys2Proof.Machine
end

