-- ==== Sys2Proof/Laws/Bus.lean ====
section
/-! SUPPORT. The address map as inequalities, and what an accepted write outside `CMD` can do. -/

namespace Sys2Proof.Machine

open Sys2Proof

/-! ### The address map -/

/-- What stands at an address, as ranges (20_memory.md R61). -/
theorem kindAt_eq (a : Nat) : kindAt a =
    if a < 0x28 then
      [Kind.cmd, .res, .status, .nonceSize, .overhead, .kbufLen, .adcnt, .nonceCtl, .inLen, .outLen][a / 4]?
    else if 0x40 ≤ a ∧ a < 0x60 then some .adctl
    else if 0x80 ≤ a ∧ a < 0xC0 then some .blocks
    else if 0x100 ≤ a ∧ a < 0x140 then some .kbuf
    else if 0x200 ≤ a ∧ a < 0x240 then some .nonce
    else if 0x1000 ≤ a ∧ a < 0x1800 then some .ad
    else if 0x2000 ≤ a ∧ a < 0x3010 then some .inBuf
    else if 0x4000 ≤ a ∧ a < 0x5020 then some .outBuf
    else none := by
  by_cases h : a < 0x60
  · interval_cases a <;> rfl
  · have hf : ∀ (r : Region) (l : List Region), (r :: l).find? (fun r => r.contains a) =
      if r.first ≤ a ∧ a < r.first + r.size then some r else l.find? (fun r => r.contains a) := by
      intro r l; by_cases hc : r.first ≤ a ∧ a < r.first + r.size <;> simp [Region.contains, hc]
    simp only [kindAt, regionAt, addressMap, hf, List.find?_nil]
    rw [if_neg (by omega), if_neg (by omega)]
    iterate 9 rw [if_neg (by omega)]
    split_ifs <;> first | rfl | omega

/-- The bytes kept in `State.mem`, as ranges (20_memory.md R61). -/
theorem isBuffer_iff (a : Nat) :
    isBuffer a = true ↔ (0x100 ≤ a ∧ a < 0x140) ∨ (0x200 ≤ a ∧ a < 0x240) ∨ (0x1000 ≤ a ∧ a < 0x1800) ∨
      (0x2000 ≤ a ∧ a < 0x3010) ∨ (0x4000 ≤ a ∧ a < 0x5020) := by
  by_cases h : a < 0x28
  · have : isBuffer a = false := by interval_cases a <;> rfl
    simp only [this]
    constructor
    · simp
    · omega
  · rw [isBuffer, kindAt_eq, if_neg h]
    split_ifs <;> simp <;> omega

theorem isBuffer_of_inOut {a : Nat} (h : inOut a) : isBuffer a = true := by
  rw [isBuffer_iff]; simp only [inOut, outBase] at h; omega

/-! ### Accepted writes outside `CMD` -/

/-- Where the read-and-write control registers stand (20_memory.md R61). -/
theorem control_address {a : Nat} (h4 : a % 4 = 0) :
    (kindAt a = some .kbufLen → a = 0x14) ∧ (kindAt a = some .adcnt → a = 0x18) ∧
      (kindAt a = some .nonceCtl → a = 0x1C) ∧ (kindAt a = some .inLen → a = 0x20) ∧
      (kindAt a = some .adctl → a = 0x40 + 4 * (adctlIndex a).val) := by
  by_cases h : a < 0x60
  · interval_cases a <;> first | omega | decide
  · rw [kindAt_eq, if_neg (by omega), if_neg (by omega)]
    split_ifs <;> simp

/-- A control write to an aligned address touches the register there and nothing else (20_memory.md R68). -/
theorem controlWrite_frame {a : Nat} (h4 : a % 4 = 0) (v : Word) (s : State) :
    FrameOfControl a s (controlWrite a v s) := by
  obtain ⟨hK, hN, hC, hI, hA⟩ := control_address h4
  unfold controlWrite
  split <;> refine ⟨⟨rfl, rfl, rfl, rfl⟩, rfl, rfl, fun h => ?_, fun h => ?_, fun h => ?_, fun h => ?_, fun i h => ?_,
    fun _ => rfl, fun _ => rfl, rfl, rfl⟩ <;> first | rfl | skip
  · exact absurd (hK ‹_›) h
  · exact absurd (hN ‹_›) h
  · exact absurd (hC ‹_›) h
  · exact absurd (hI ‹_›) h
  · next hk => exact Vector.getElem_set_ne (adctlIndex a).isLt i.isLt (by have := hA hk; omega)

/-- A write of one byte of a block register or buffer touches that byte and nothing else (20_memory.md R66). -/
theorem byteWrite_frame (a : Nat) (b : Byte) (s : State) : FrameOfStore 1 a s (byteWrite a b s) := by
  unfold byteWrite
  split <;> refine ⟨⟨rfl, rfl, rfl, rfl, rfl, rfl⟩, ⟨rfl, rfl, rfl, rfl⟩, rfl, rfl, rfl, fun h => ?_, fun c h => ?_⟩
  case h_1.refine_1 hk => exact absurd hk h
  all_goals first
    | exact fun _ => rfl
    | rfl
    | (next hk =>
        have hc : c ≠ a := by
          rintro rfl
          rw [hk] at h
          simp at h
        exact Memory.read_write_other _ _ hc)

/-- A write of one byte: nothing, or a block register, or a byte of a buffer other than `OUT`. -/
theorem byteWrite_cases (a : Nat) (b : Byte) (s : State) :
    byteWrite a b s = s ∨ (∃ j v, byteWrite a b s = s.withBlock j v) ∨
    (isBuffer a = true ∧ ¬inOut a ∧ byteWrite a b s = s.withMem (Memory.write s.mem a b)) := by
  unfold byteWrite
  split
  · exact .inr (.inl ⟨_, _, rfl⟩)
  all_goals try exact .inl rfl
  all_goals
    next h =>
      refine .inr (.inr ⟨by simp [isBuffer, h], ?_, rfl⟩)
      intro ho
      simp only [inOut, outBase] at ho
      rw [kindAt_eq] at h
      have h1 : ¬a < 0x28 := by omega
      have h2 : ¬(0x40 ≤ a ∧ a < 0x60) := by omega
      have h3 : ¬(0x80 ≤ a ∧ a < 0xC0) := by omega
      have h4 : ¬(0x100 ≤ a ∧ a < 0x140) := by omega
      have h5 : ¬(0x200 ≤ a ∧ a < 0x240) := by omega
      have h6 : ¬(0x1000 ≤ a ∧ a < 0x1800) := by omega
      have h7 : ¬(0x2000 ≤ a ∧ a < 0x3010) := by omega
      simp [h1, h2, h3, h4, h5, h6, h7] at h
      try omega

/-- What holds of a state and is kept by a control write and by each byte written holds after an accepted write. -/
theorem storeWrite_induct (P : State → Prop) (n a : Nat) (v : Word) (s : State) (h0 : P s)
    (hc : P (controlWrite a v s)) (hb : ∀ t a b, P t → P (byteWrite a b t)) : P (storeWrite n a v s) := by
  unfold storeWrite
  split
  · exact hc
  · suffices ∀ (l : List Nat) t, P t → P (l.foldl (fun t j => byteWrite (a + j) (wordByte n v j) t) t) from
      this _ s h0
    intro l
    induction l with
    | nil => exact fun t ht => ht
    | cons j l ih => exact fun t ht => ih _ (hb t _ _ ht)

/-- No accepted write outside `CMD` touches the instance, `RES`, `OUTLEN` or the host's lists. -/
theorem storeWrite_frame (n a : Nat) (v : Word) (s : State) :
    SameInstance s (storeWrite n a v s) ∧ (storeWrite n a v s).res = s.res ∧
      (storeWrite n a v s).outLen = s.outLen ∧ (storeWrite n a v s).pending = s.pending ∧
      (storeWrite n a v s).responses = s.responses := by
  refine storeWrite_induct (fun t => SameInstance s t ∧ t.res = s.res ∧ t.outLen = s.outLen ∧
    t.pending = s.pending ∧ t.responses = s.responses) n a v s ⟨⟨rfl, rfl, rfl, rfl⟩, rfl, rfl, rfl, rfl⟩ ?_ ?_
  · unfold controlWrite
    split <;> exact ⟨⟨rfl, rfl, rfl, rfl⟩, rfl, rfl, rfl, rfl⟩
  · rintro t a b ⟨⟨h1, h2, h3, h4⟩, h5, h6, h7, h8⟩
    rcases byteWrite_cases a b t with h | ⟨j, w, h⟩ | ⟨-, -, h⟩ <;> rw [h] <;>
      exact ⟨⟨h1, h2, h3, h4⟩, h5, h6, h7, h8⟩

/-- No accepted write touches a byte of `OUT` (10_state.md R43). -/
theorem storeWrite_out (n a : Nat) (v : Word) (s : State) (o : Nat) (ho : inOut o) :
    Memory.read (storeWrite n a v s).mem o = Memory.read s.mem o := by
  refine storeWrite_induct (fun t => Memory.read t.mem o = Memory.read s.mem o) n a v s rfl ?_ ?_
  · unfold controlWrite
    split <;> rfl
  · intro t a b ht
    rcases byteWrite_cases a b t with h | ⟨j, w, h⟩ | ⟨-, hn, h⟩ <;> rw [h]
    · exact ht
    · exact ht
    · rw [State.withMem_mem, Memory.read_write_other _ _ (by rintro rfl; exact hn ho), ht]

/-- An accepted write keeps memory canonical and lists bytes of buffers only. -/
theorem storeWrite_memorySound (n a : Nat) (v : Word) {s : State} (hs : MemorySound s) :
    MemorySound (storeWrite n a v s) := by
  refine storeWrite_induct MemorySound n a v s hs ?_ ?_
  · unfold controlWrite
    split <;> exact hs
  · intro t a b ht
    rcases byteWrite_cases a b t with h | ⟨j, w, h⟩ | ⟨hb, -, h⟩ <;> rw [h]
    · exact ht
    · exact ht
    · refine ⟨Memory.wf_write ht.1 a b, fun c hc => ?_⟩
      rcases Memory.mem_write hc with h | h
      · rw [h]; exact hb
      · exact ht.2 c h

/-! ### Reads after writes -/

/-- The block registers as a range (20_memory.md R61). -/
theorem kindAt_eq_blocks_iff (a : Nat) : kindAt a = some .blocks ↔ 0x80 ≤ a ∧ a < 0xC0 := by
  by_cases h : a < 0x28
  · have : kindAt a ≠ some .blocks := by interval_cases a <;> decide
    exact iff_of_false this (by omega)
  · rw [kindAt_eq, if_neg h]
    split_ifs <;> simp <;> omega

/-- The byte of a write, as bits of its value and as a digit of its number (20_memory.md R66). -/
theorem wordByte_eq_writtenByte (n : Nat) (v : Word) (j : Nat) : wordByte n v j = writtenByte n v j := by
  apply BitVec.eq_of_toNat_eq
  rw [wordByte, writtenByte, BitVec.extractLsb'_toNat, BitVec.toNat_ofNat, Nat.shiftRight_eq_div_pow, Nat.pow_mul]

/-- One more byte at the low end of a value. -/
theorem toNat_shl_or (x : Word) (b : Byte) (h : x.toNat < 2 ^ 24) :
    ((x <<< 8) ||| b.setWidth 32).toNat = x.toNat * 256 + b.toNat := by
  have hb := b.isLt
  rw [BitVec.toNat_or, BitVec.toNat_shiftLeft, BitVec.toNat_setWidth, Nat.mod_eq_of_lt (by omega : b.toNat < 2 ^ 32),
    Nat.mod_eq_of_lt (by rw [Nat.shiftLeft_eq]; omega), ← Nat.shiftLeft_add_eq_or_of_lt hb, Nat.shiftLeft_eq]

/-- The value of an access is the sum of its bytes (20_memory.md R67). -/
theorem wordOf_eq_valueOf {n : Nat} (hn : n = 1 ∨ n = 2 ∨ n = 4) (f : Nat → Byte) :
    wordOf ((List.range n).map f) = BitVec.ofNat 32 (valueOf n f) := by
  have h0 := (f 0).isLt; have h1 := (f 1).isLt; have h2 := (f 2).isLt; have h3 := (f 3).isLt
  have e1 := toNat_shl_or 0#32 (f 0) (by simp)
  have e2 := toNat_shl_or _ (f 1) (by rw [e1]; simp; omega)
  have e3 := toNat_shl_or _ (f 2) (by rw [e2, e1]; simp; omega)
  have e4 := toNat_shl_or _ (f 3) (by rw [e3, e2, e1]; simp; omega)
  apply BitVec.eq_of_toNat_eq
  rcases hn with rfl | rfl | rfl <;>
    simp only [wordOf, valueOf, List.range_succ, List.range_zero, List.nil_append, List.cons_append, List.map_cons,
      List.map_nil, List.foldl_cons, List.foldl_nil, List.sum_cons, List.sum_nil, e1, e2, e3, e4,
      BitVec.toNat_ofNat] <;> simp <;> omega
/-- A read of one byte of a buffer is the stored byte (20_memory.md R67). -/
theorem byteRead_buffer {a : Nat} (h : kindAt a ∈ [some Kind.nonce, some .ad, some .inBuf, some .outBuf]) (s : State) :
    byteRead s a = Memory.read s.mem a := by
  simp only [List.mem_cons, List.not_mem_nil, or_false] at h
  rcases h with h | h | h | h <;> simp [byteRead, h]

/-- A read of one byte of a block register is that byte of the block (20_memory.md R62, R67). -/
theorem byteRead_block (r : RegIdx) (i : Nat) (hi : i < 16) (s : State) :
    byteRead s (blockAddress r i) = byteOf (readBlock s r) i := by
  have hk : kindAt (blockAddress r i) = some .blocks := (kindAt_eq_blocks_iff _).mpr (by simp only [blockAddress]; omega)
  have hidx : blockIndex (blockAddress r i) = r := by
    apply Fin.ext; simp only [blockIndex, Fin.ofNat, blockAddress]; omega
  have hbyte : blockByte (blockAddress r i) = i := by simp only [blockByte, blockAddress]; omega
  simp only [byteRead, hk, hidx, hbyte, readBlock]

/-- A byte of a block register after a byte of one was replaced. -/
theorem byteOf_set_setByte (R : Vector Block 4) (i i' : Fin 4) (k k' : Nat) (b : Byte) (hk : k' < 16) :
    byteOf (R.set i (setByte R[i] k b))[i'] k' = if i = i' ∧ k = k' then b else byteOf R[i'] k' := by
  by_cases hi : i = i'
  · subst hi
    have h : (R.set i (setByte R[i] k b))[i] = setByte R[i] k b := by simp
    rw [h, byteOf_setByte _ _ _ _ hk]
    simp
  · have h : (R.set i (setByte R[i] k b))[i'] = R[i'] := by
      simpa using Vector.getElem_set_ne (xs := R) (x := setByte R[i] k b) i.isLt i'.isLt (by simpa [Fin.ext_iff] using hi)
    rw [h, if_neg (by simp [hi])]

/-- A read of one byte after a write of one byte that is both readable and writable. -/
theorem byteRead_byteWrite (a : Nat) (b : Byte) (s : State) (c : Nat) 
    (hr : kindAt a ∈ [some Kind.blocks, some .nonce, some .ad, some .inBuf]) :
    byteRead (byteWrite a b s) c = if c = a then b else byteRead s c := by
  by_cases hb : kindAt a = some .blocks
  · have hab := (kindAt_eq_blocks_iff a).mp hb
    simp only [byteWrite, hb]
    by_cases hc : kindAt c = some .blocks
    · have hcb := (kindAt_eq_blocks_iff c).mp hc
      have hidx : (blockIndex a = blockIndex c ∧ blockByte a = blockByte c) ↔ c = a := by
        constructor
        · rintro ⟨hi, hv⟩
          have hi := congrArg Fin.val hi
          simp only [blockIndex, blockByte, Fin.ofNat] at hi hv
          omega
        · rintro rfl; exact ⟨rfl, rfl⟩
      simp only [byteRead, hc, State.withBlock_blocks]
      have h16 : blockByte c < 16 := Nat.mod_lt (c - 0x80) (by decide)
      refine (byteOf_set_setByte _ _ _ _ _ _ h16).trans ?_
      by_cases hca : c = a
      · rw [if_pos (hidx.mpr hca), if_pos hca]
      · rw [if_neg (mt hidx.mp hca), if_neg hca]
    · have hne : c ≠ a := by rintro rfl; exact hc hb
      rw [if_neg hne]
      unfold byteRead
      split <;> simp_all
  · simp only [List.mem_cons, List.not_mem_nil, or_false] at hr
    have hw : byteWrite a b s = s.withMem (Memory.write s.mem a b) := by
      unfold byteWrite; rcases hr with h | h | h | h <;> simp_all
    rw [hw]
    unfold byteRead
    by_cases hca : c = a
    · subst hca
      rcases hr with h | h | h | h <;> simp_all
    · split <;> simp [Memory.read_write_other _ _ hca, hca]

/-- Which accesses get no bus error (20_memory.md R70). -/
theorem accepted_iff (n a : Nat) : accepted n a = true ↔ a % n = 0 ∧ kindAt a ≠ none ∧ (0x60 ≤ a ∨ n = 4) := by
  simp only [accepted, isControl, kindAt, Bool.and_eq_true, decide_eq_true_eq, Bool.or_eq_true, Bool.not_eq_true',
    decide_eq_false_iff_not, beq_iff_eq]
  cases regionAt a <;> simp

theorem storeWrite_of_not_control (n a : Nat) (v : Word) (s : State) (h : 0x60 ≤ a) :
    storeWrite n a v s = (List.range n).foldl (fun t j => byteWrite (a + j) (wordByte n v j) t) s := by
  have : ¬ a < 0x60 := by omega
  simp [storeWrite, isControl, this]

/-- A read of one byte after a write of `n` bytes in places that are both readable and writable. -/
theorem byteRead_storeWrite (n a : Nat) (v : Word) (s : State) (b : Nat) (ha : 0x60 ≤ a)
    (h : ∀ j, j < n → kindAt (a + j) ∈ [some Kind.blocks, some .nonce, some .ad, some .inBuf]) :
    byteRead (storeWrite n a v s) b = if a ≤ b ∧ b < a + n then wordByte n v (b - a) else byteRead s b := by
  rw [storeWrite_of_not_control n a v s ha]
  suffices ∀ m, m ≤ n → byteRead ((List.range m).foldl (fun t j => byteWrite (a + j) (wordByte n v j) t) s) b =
      if a ≤ b ∧ b < a + m then wordByte n v (b - a) else byteRead s b from this n (Nat.le_refl n)
  intro m hm
  induction m with
  | zero => rw [if_neg (by omega)]; rfl
  | succ m ih =>
    rw [List.range_succ, List.foldl_append]
    simp only [List.foldl_cons, List.foldl_nil]
    rw [byteRead_byteWrite _ _ _ _ (h m (by omega)), ih (by omega)]
    by_cases hb : b = a + m
    · subst hb; simp
    · by_cases h2 : a ≤ b ∧ b < a + m
      · rw [if_neg hb, if_pos h2, if_pos (by omega)]
      · rw [if_neg hb, if_neg h2, if_neg (by omega)]

end Sys2Proof.Machine
end

