-- ==== Sys2Proof/Laws/Functions.lean ====
section
/-! SUPPORT. Lengths and first facts of the pure functions of the construction. -/

namespace Sys2Proof.Machine

theorem xorend_length (M : Bytes) (D : Block) (h : 16 ≤ M.length) : (xorend M D).length = M.length := by
  simp [xorend]; omega

/-- A byte of `xorend(M, D)`: before the last sixteen it is `M`'s, then `D` is folded in (41_vector_byte_ops.md R131). -/
theorem getElem_xorend (M : Bytes) (D : Block) (h : 16 ≤ M.length) (i : Nat) (hi : i < (xorend M D).length) :
    (xorend M D)[i] =
      if i < M.length - 16 then M[i]'(by rw [xorend_length M D h] at hi; exact hi)
      else M[i]'(by rw [xorend_length M D h] at hi; exact hi) ^^^ byteOf D (i - (M.length - 16)) := by
  have hi' : i < M.length := by rwa [xorend_length M D h] at hi
  by_cases hlt : i < M.length - 16
  · have hl : i < (M.take (M.length - 16)).length := by simp; omega
    simp only [xorend, List.getElem_append_left hl, List.getElem_take, if_pos hlt]
  · have hl : (M.take (M.length - 16)).length ≤ i := by simp; omega
    simp only [xorend, List.getElem_append_right hl, getElem_xorBytes, List.getElem_drop, getElem_blockBytes,
      if_neg hlt]
    congr 2
    all_goals (rw [List.length_take]; omega)

theorem pad_string_length (M : Bytes) (h : M.length < 16) : (M ++ [0x80#8] ++ zeros (15 - M.length)).length = 16 := by
  simp; omega

/-- The sixteen bytes of `pad(M)` (41_vector_byte_ops.md R132). -/
theorem blockBytes_pad (M : Bytes) (h : M.length < 16) :
    blockBytes (pad M) = M ++ [0x80#8] ++ zeros (15 - M.length) :=
  blockBytes_blockOf _ (pad_string_length M h)

/-- All the keystream blocks before the cut. -/
theorem keystream_blocks_length (C : Collaborators) (K2 : Bytes) (Q : Block) (m : Nat) :
    ((List.range m).flatMap fun i => blockBytes (C.E K2 (counterBlock Q i))).length = 16 * m := by
  induction m with
  | zero => rfl
  | succ m ih => rw [List.range_succ, List.flatMap_append, List.length_append, ih]; simp; omega

@[simp] theorem keystream_length (C : Collaborators) (K2 : Bytes) (Q : Block) (n : Nat) :
    (keystream C K2 Q n).length = n := by
  rw [keystream, List.length_take, keystream_blocks_length]; omega

/-- Byte `i` of `m` keystream blocks is byte `i mod 16` of block `i div 16` (44_aead.md R184). -/
theorem getElem_keystream_blocks (C : Collaborators) (K2 : Bytes) (Q : Block) (m i : Nat) (hi : i < 16 * m) :
    ((List.range m).flatMap fun i => blockBytes (C.E K2 (counterBlock Q i)))[i]'(by
        rw [keystream_blocks_length]; exact hi) =
      byteOf (C.E K2 (counterBlock Q (i / 16))) (i % 16) := by
  induction m with
  | zero => omega
  | succ m ih =>
    simp only [List.range_succ, List.flatMap_append, List.flatMap_cons, List.flatMap_nil, List.append_nil]
    by_cases h : i < 16 * m
    · rw [List.getElem_append_left (by rw [keystream_blocks_length]; exact h)]
      exact ih h
    · rw [List.getElem_append_right (by rw [keystream_blocks_length]; omega)]
      simp only [keystream_blocks_length, getElem_blockBytes]
      rw [show i / 16 = m by omega, show i - 16 * m = i % 16 by omega]

/-- Byte `i` of the keystream (44_aead.md R184). -/
theorem getElem_keystream (C : Collaborators) (K2 : Bytes) (Q : Block) (n i : Nat)
    (hi : i < (keystream C K2 Q n).length) :
    (keystream C K2 Q n)[i] = byteOf (C.E K2 (counterBlock Q (i / 16))) (i % 16) := by
  have h : i < n := by simpa using hi
  simp only [keystream, List.getElem_take]
  exact getElem_keystream_blocks C K2 Q _ i (by omega)

@[simp] theorem ctrXor_length (C : Collaborators) (K2 : Bytes) (Q : Block) (M : Bytes) :
    (ctrXor C K2 Q M).length = M.length := by simp [ctrXor]

theorem aeadSeal_length (C : Collaborators) (K1 K2 : Bytes) (L : List Item) (P : Bytes) :
    (aeadSeal C K1 K2 L P).length = P.length + 16 := by simp [aeadSeal]; omega

theorem candidate_length (C : Collaborators) (K2 S : Bytes) : (candidate C K2 S).length = S.length - 16 := by
  simp [candidate]

theorem aeadOpen_eq_some_iff (C : Collaborators) (K1 K2 : Bytes) (L : List Item) (S P : Bytes) :
    aeadOpen C K1 K2 L S = some P ↔
      16 ≤ S.length ∧ s2v C K1 L (candidate C K2 S) = blockOf (S.take 16) ∧ P = candidate C K2 S := by
  unfold aeadOpen
  by_cases h : S.length < 16
  · simp [h, Nat.not_le.mpr h]
  · by_cases h' : s2v C K1 L (candidate C K2 S) = blockOf (S.take 16)
    · simp [h, h', eq_comm, Nat.not_lt.mp h]
    · simp [h, h']

theorem aeadOpen_length {C : Collaborators} {K1 K2 : Bytes} {L : List Item} {S P : Bytes}
    (h : aeadOpen C K1 K2 L S = some P) : P.length = S.length - 16 := by
  rw [((aeadOpen_eq_some_iff C K1 K2 L S P).mp h).2.2, candidate_length]

/-- What `split` accepts, and what it gives (44_aead.md R180). -/
theorem splitKey_eq_some_iff (C : Collaborators) (KM a z : Bytes) :
    splitKey C KM = some (a, z) ↔
      KM.length % 2 = 0 ∧ 1 ≤ KM.length ∧ KM.length ≤ 64 ∧ a = KM.take (KM.length / 2) ∧
        z = KM.drop (KM.length / 2) ∧ C.keyValid a = true ∧ C.keyValid z = true := by
  unfold splitKey
  by_cases h1 : KM.length % 2 = 1
  · simp [h1]
  · by_cases h2 : KM.length = 0 ∨ 64 < KM.length
    · simp only [Config.kbufCap, h1, if_false, h2, if_true]
      constructor
      · simp
      · rintro ⟨-, h, h', -⟩; omega
    · simp only [Config.kbufCap, h1, if_false, h2, Bool.and_eq_true]
      split
      · next h => simp only [Option.some.injEq, Prod.mk.injEq]
                  constructor
                  · rintro ⟨rfl, rfl⟩; exact ⟨by omega, by omega, by omega, rfl, rfl, h.1, h.2⟩
                  · rintro ⟨-, -, -, rfl, rfl, -, -⟩; exact ⟨rfl, rfl⟩
      · next h => simp only [reduceCtorEq, false_iff]
                  rintro ⟨-, -, -, rfl, rfl, ha, hz⟩; exact h ⟨ha, hz⟩

end Sys2Proof.Machine
end

