-- ==== Sys2Proof/Laws/Exec.lean ====
section
/-! SUPPORT. What each command can do, said once: the outcome of each meaning by the case it takes, and the one
inversion lemma over all of them. -/

namespace Sys2Proof.Machine

open Sys2Proof

theorem execXorend_cases (rs1 : RegIdx) (s : State) :
    execXorend rs1 s = .next (s.withRes .lenError) ∧ (input s = none ∨ s.inLen.toNat < 16) ∨
    ∃ M, input s = some M ∧ 16 ≤ M.length ∧
      execXorend rs1 s = .next ((setOut (xorend M (readBlock s rs1)) s).withRes .ok) := by
  unfold execXorend
  cases h : input s with
  | none => simp [raise]
  | some M =>
    have hl := input_length h
    by_cases hM : M.length < 16
    · simp [hM, raise]; omega
    · simp [hM, done]; omega

theorem execPad_cases (rd : RegIdx) (s : State) :
    execPad rd s = .next (s.withRes .lenError) ∧ (input s = none ∨ 16 ≤ s.inLen.toNat) ∨
    ∃ M, input s = some M ∧ M.length < 16 ∧ execPad rd s = .next ((s.withBlock rd (pad M)).withRes .ok) := by
  unfold execPad
  cases h : input s with
  | none => simp [raise]
  | some M =>
    have hl := input_length h
    by_cases hM : 16 ≤ M.length
    · simp [hM, raise]; omega
    · simp [hM, done]; omega

theorem ctrWith_cases (C : Collaborators) (rs1 : RegIdx) (s : State) :
    s.keyed = false ∧ ctrWith C rs1 s = .next (s.withRes .notKeyed) ∨
    s.keyed = true ∧ input s = none ∧ ctrWith C rs1 s = .next (s.withRes .lenError) ∨
    s.keyed = true ∧ ∃ M, input s = some M ∧
      ctrWith C rs1 s = .next ((setOut (ctrXor C s.k2 (readBlock s rs1) M) s).withRes .ok) := by
  unfold ctrWith
  cases hk : s.keyed <;> cases h : input s <;> simp [raise, done]

theorem s2vWith_cases (C : Collaborators) (rd : RegIdx) (s : State) :
    s.keyed = false ∧ s2vWith C rd s = .next (s.withRes .notKeyed) ∨
    s.keyed = true ∧ (input s = none ∨ items s = none) ∧ s2vWith C rd s = .next (s.withRes .lenError) ∨
    s.keyed = true ∧ ∃ P L, input s = some P ∧ items s = some L ∧
      s2vWith C rd s = .next ((s.withBlock rd (s2v C s.k1 L P)).withRes .ok) := by
  unfold s2vWith
  cases hk : s.keyed <;> cases h : input s <;> cases h' : items s <;> simp [raise, done]

theorem sealWith_cases (C : Collaborators) (s : State) :
    s.keyed = false ∧ sealWith C s = .next (s.withRes .notKeyed) ∨
    s.keyed = true ∧ (input s = none ∨ items s = none) ∧ sealWith C s = .next (s.withRes .lenError) ∨
    s.keyed = true ∧ ∃ P L, input s = some P ∧ items s = some L ∧
      sealWith C s = .next ((setOut (aeadSeal C s.k1 s.k2 L P) s).withRes .ok) := by
  unfold sealWith
  cases hk : s.keyed <;> cases h : input s <;> cases h' : items s <;> simp [raise, done]

theorem openWith_cases (C : Collaborators) (s : State) :
    s.keyed = false ∧ openWith C s = .next (s.withRes .notKeyed) ∨
    s.keyed = true ∧ (input s = none ∨ items s = none) ∧ openWith C s = .next (s.withRes .lenError) ∨
    s.keyed = true ∧ ∃ S L, input s = some S ∧ items s = some L ∧
      (aeadOpen C s.k1 s.k2 L S = none ∧ openWith C s = .next ((setOut [] s).withRes .authError) ∨
        ∃ P, aeadOpen C s.k1 s.k2 L S = some P ∧ openWith C s = .next ((setOut P s).withRes .ok)) := by
  unfold openWith
  cases hk : s.keyed <;> cases h : input s <;> cases h' : items s <;> simp [raise, done]
  next S L => cases aeadOpen C s.k1 s.k2 L S <;> simp

theorem newWith_cases (C : Collaborators) (s : State) :
    (64 < s.kbufLen.toNat ∨ splitKey C (stagedKey s s.kbufLen.toNat) = none) ∧
      newWith C s = .next ((eraseInstance s).withRes .keyError) ∨
    ∃ a z, s.kbufLen.toNat ≤ 64 ∧ splitKey C (stagedKey s s.kbufLen.toNat) = some (a, z) ∧
      newWith C s = .next ((loadInstance a z (s.kbufLen.toNat / 2) (eraseInstance s)).withRes .ok) := by
  unfold newWith
  by_cases h : 64 < s.kbufLen.toNat
  · simp [h, raise]
  · cases hk : splitKey C (stagedKey s s.kbufLen.toNat) with
    | none => simp [h, raise]
    | some p => exact .inr ⟨p.1, p.2, by omega, rfl, by simp [h, done]⟩

/-- What a command that ends can have done, in any build: it wrote `RES` alone; or its destination register; or `OUT`; or, for NEW,
the instance. -/
theorem execWith_cases {C : Collaborators} {i : Instr} {s t : State} (h : execWith C i s = .next t) :
    (∃ c, c ≠ .ok ∧ t = s.withRes c) ∨
    (∃ rd v, destOf i = some rd ∧ t = (s.withBlock rd v).withRes .ok) ∨
    (∃ X c, writesOut i = true ∧ X.length ≤ 4128 ∧ t = (setOut X s).withRes c) ∨
    (i = .newKey ∧ t = (eraseInstance s).withRes .keyError) ∨
    (i = .newKey ∧ ∃ a z, s.kbufLen.toNat ≤ 64 ∧
      splitKey C (stagedKey s s.kbufLen.toNat) = some (a, z) ∧
      t = (loadInstance a z (s.kbufLen.toNat / 2) (eraseInstance s)).withRes .ok) := by
  cases i with
  | dbl rd rs1 => exact .inr (.inl ⟨rd, _, rfl, by simpa [execWith, execDbl] using h⟩)
  | xor rd rs1 rs2 => exact .inr (.inl ⟨rd, _, rfl, by simpa [execWith, execXor] using h⟩)
  | ctrseed rd rs1 => exact .inr (.inl ⟨rd, _, rfl, by simpa [execWith, execCtrseed] using h⟩)
  | xorend rs1 =>
    rcases execXorend_cases rs1 s with ⟨h', -⟩ | ⟨M, hM, hl, h'⟩ <;>
      simp only [execWith, h', Host.Outcome.next.injEq] at h
    · exact .inl ⟨.lenError, by decide, h.symm⟩
    · exact .inr (.inr (.inl ⟨_, .ok, rfl, by rw [xorend_length _ _ hl]; have := input_length_le hM; omega, h.symm⟩))
  | pad rd =>
    rcases execPad_cases rd s with ⟨h', -⟩ | ⟨M, hM, hl, h'⟩ <;>
      simp only [execWith, h', Host.Outcome.next.injEq] at h
    · exact .inl ⟨.lenError, by decide, h.symm⟩
    · exact .inr (.inl ⟨rd, _, rfl, h.symm⟩)
  | ctr rs1 =>
    rcases ctrWith_cases C rs1 s with ⟨-, h'⟩ | ⟨-, -, h'⟩ | ⟨-, M, hM, h'⟩ <;>
      simp only [execWith, h', Host.Outcome.next.injEq] at h
    · exact .inl ⟨.notKeyed, by decide, h.symm⟩
    · exact .inl ⟨.lenError, by decide, h.symm⟩
    · exact .inr (.inr (.inl ⟨_, .ok, rfl, by have := input_length_le hM; simp; omega, h.symm⟩))
  | s2v rd =>
    rcases s2vWith_cases C rd s with ⟨-, h'⟩ | ⟨-, -, h'⟩ | ⟨-, P, L, -, -, h'⟩ <;>
      simp only [execWith, h', Host.Outcome.next.injEq] at h
    · exact .inl ⟨.notKeyed, by decide, h.symm⟩
    · exact .inl ⟨.lenError, by decide, h.symm⟩
    · exact .inr (.inl ⟨rd, _, rfl, h.symm⟩)
  | newKey =>
    rcases newWith_cases C s with ⟨-, h'⟩ | ⟨a, z, hn, hs, h'⟩ <;>
      simp only [execWith, h', Host.Outcome.next.injEq] at h
    · exact .inr (.inr (.inr (.inl ⟨rfl, h.symm⟩)))
    · exact .inr (.inr (.inr (.inr ⟨rfl, a, z, hn, hs, h.symm⟩)))
  | sealMsg =>
    rcases sealWith_cases C s with ⟨-, h'⟩ | ⟨-, -, h'⟩ | ⟨-, P, L, hP, -, h'⟩ <;>
      simp only [execWith, h', Host.Outcome.next.injEq] at h
    · exact .inl ⟨.notKeyed, by decide, h.symm⟩
    · exact .inl ⟨.lenError, by decide, h.symm⟩
    · exact .inr (.inr (.inl ⟨_, .ok, rfl, by have := input_length_le hP; rw [aeadSeal_length]; omega, h.symm⟩))
  | openMsg =>
    rcases openWith_cases C s with ⟨-, h'⟩ | ⟨-, -, h'⟩ | ⟨-, S, L, hS, -, ⟨-, h'⟩ | ⟨P, hP, h'⟩⟩ <;>
      simp only [execWith, h', Host.Outcome.next.injEq] at h
    · exact .inl ⟨.notKeyed, by decide, h.symm⟩
    · exact .inl ⟨.lenError, by decide, h.symm⟩
    · exact .inr (.inr (.inl ⟨[], .authError, rfl, by simp, h.symm⟩))
    · exact .inr (.inr (.inl ⟨P, .ok, rfl, by have := input_length_le hS; rw [aeadOpen_length hP]; omega, h.symm⟩))

/-- This machine is the build `Config.wired`. -/
theorem exec_eq_execWith (i : Instr) (s : State) : exec i s = execWith Config.wired i s := by cases i <;> rfl

/-- What a command of this machine that ends can have done. -/
theorem exec_cases {i : Instr} {s t : State} (h : exec i s = .next t) :
    (∃ c, c ≠ .ok ∧ t = s.withRes c) ∨
    (∃ rd v, destOf i = some rd ∧ t = (s.withBlock rd v).withRes .ok) ∨
    (∃ X c, writesOut i = true ∧ X.length ≤ 4128 ∧ t = (setOut X s).withRes c) ∨
    (i = .newKey ∧ t = (eraseInstance s).withRes .keyError) ∨
    (i = .newKey ∧ ∃ a z, s.kbufLen.toNat ≤ 64 ∧
      splitKey Config.wired (stagedKey s s.kbufLen.toNat) = some (a, z) ∧
      t = (loadInstance a z (s.kbufLen.toNat / 2) (eraseInstance s)).withRes .ok) :=
  execWith_cases (exec_eq_execWith i s ▸ h)

end Sys2Proof.Machine
end

