-- ==== Sys2Proof/Laws/PerInstr.lean ====
section
/-! SUPPORT. The family `EncodeFits` of LAWS.json: the word of every command matches the row of the opcode map that
bears its operation code (30_encoding.md R91, R93), said of each constructor. -/

namespace Sys2Proof.Laws.EncodeFits

/-- The encoded word is a well-formed command word, whatever the operands. -/
def Statement (i : Instr) : Prop := wordWellFormed (encode i) = true

theorem dbl (rd rs1 : RegIdx) : Statement (.dbl rd rs1) := by unfold Statement; revert rd rs1; decide
theorem xor (rd rs1 rs2 : RegIdx) : Statement (.xor rd rs1 rs2) := by unfold Statement; revert rd rs1 rs2; decide
theorem xorend (rs1 : RegIdx) : Statement (.xorend rs1) := by unfold Statement; revert rs1; decide
theorem pad (rd : RegIdx) : Statement (.pad rd) := by unfold Statement; revert rd; decide
theorem ctrseed (rd rs1 : RegIdx) : Statement (.ctrseed rd rs1) := by unfold Statement; revert rd rs1; decide
theorem ctr (rs1 : RegIdx) : Statement (.ctr rs1) := by unfold Statement; revert rs1; decide
theorem s2v (rd : RegIdx) : Statement (.s2v rd) := by unfold Statement; revert rd; decide
theorem newKey : Statement .newKey := by unfold Statement; decide
theorem sealMsg : Statement .sealMsg := by unfold Statement; decide
theorem openMsg : Statement .openMsg := by unfold Statement; decide

end Sys2Proof.Laws.EncodeFits
end

