-- ==== Sys2Proof/Laws/Step.lean ====
section
/-! SUPPORT. What one step can do, said once for any meanings of the commands (those of this machine and of every
build). -/

namespace Sys2Proof.Machine

open Sys2Proof

variable (ex : Meanings)

theorem runCommandBy_of_decode {w : Word} {i : Instr} (h : decode w = .ok i) (s : State) :
    runCommandBy ex w s = ex i s := by simp [runCommandBy, h]

theorem runCommandBy_of_illegal {w : Word} {e : Illegal} (h : decode w = .error e) (s : State) :
    runCommandBy ex w s = .next (s.withRes .illegalCmd) := by simp [runCommandBy, h, raise]

theorem runCommand_of_decode {w : Word} {i : Instr} (h : decode w = .ok i) (s : State) :
    runCommand w s = exec i s := runCommandBy_of_decode exec h s

theorem runCommand_of_illegal {w : Word} {e : Illegal} (h : decode w = .error e) (s : State) :
    runCommand w s = .next (s.withRes .illegalCmd) := runCommandBy_of_illegal exec h s

/-- What a written command word can do: raise `ILLEGAL_CMD`, or run the command it encodes. -/
theorem runCommandBy_cases (w : Word) (s : State) :
    (∃ e, decode w = .error e ∧ runCommandBy ex w s = .next (s.withRes .illegalCmd)) ∨
    (∃ i, decode w = .ok i ∧ runCommandBy ex w s = ex i s) := by
  cases h : decode w with
  | error e => exact .inl ⟨e, rfl, runCommandBy_of_illegal ex h s⟩
  | ok i => exact .inr ⟨i, rfl, runCommandBy_of_decode ex h s⟩

theorem runCommand_cases (w : Word) (s : State) :
    (∃ e, decode w = .error e ∧ runCommand w s = .next (s.withRes .illegalCmd)) ∨
    (∃ i, decode w = .ok i ∧ runCommand w s = exec i s) := runCommandBy_cases exec w s

/-- The one accepted write that is a command is a 4-byte write at address 0x0000 (20_memory.md R68). -/
theorem accepted_cmd {n a : Nat} (h : accepted n a = true) (hk : kindAt a = some .cmd) : n = 4 ∧ a = 0 := by
  have ha : a < 4 := by
    by_contra hge
    by_cases h28 : a < 0x28
    · interval_cases a <;> simp_all [kindAt_eq]
    · rw [kindAt_eq, if_neg h28] at hk
      split_ifs at hk <;> simp at hk
  simp only [accepted, isControl, Bool.and_eq_true, decide_eq_true_eq, Bool.or_eq_true, Bool.not_eq_true',
    decide_eq_false_iff_not, beq_iff_eq] at h
  obtain ⟨⟨hmod, -⟩, hn⟩ := h
  have hn : n = 4 := by omega
  subst hn; omega

/-- What a bus write can do: a bus error, a command, or a store. -/
theorem issueWriteBy_cases (n a : Nat) (v : Word) (s : State) :
    (accepted n a = false ∧ issueWriteBy ex n a v s = .next (s.respond .busError)) ∨
    (accepted n a = true ∧ kindAt a = some .cmd ∧
      issueWriteBy ex n a v s = thenRespond .writeAccepted (runCommandBy ex v s)) ∨
    (accepted n a = true ∧ kindAt a ≠ some .cmd ∧
      issueWriteBy ex n a v s = .next ((storeWrite n a v s).respond .writeAccepted)) := by
  unfold issueWriteBy
  by_cases h : accepted n a = true
  · by_cases hk : kindAt a = some .cmd <;> simp [h, hk]
  · simp [Bool.not_eq_true _ ▸ h]

theorem thenRespond_eq_next {r : Response} {o : Host.Outcome State Fault Refusal} {t : State}
    (h : thenRespond r o = .next t) : ∃ u, o = .next u ∧ t = u.respond r := by
  cases o with
  | next u => exact ⟨u, rfl, by simpa [eq_comm] using h⟩
  | fault f => nomatch f
  | refused x => simp [thenRespond] at h

/-- What one step can have done: nothing, with no event left; or, with the event taken, an answer alone (a read or a
bus error), or a command written to `CMD`, or a store, or a reset. -/
theorem stepBy_cases {s t : State} (h : stepBy ex s = .next t) :
    (s.pending = [] ∧ t = s) ∨
    ∃ e rest, s.pending = e :: rest ∧
      ((∃ r, t = (s.withPending rest).respond r) ∨
       (∃ w u, e = cmdWrite w ∧ runCommandBy ex w (s.withPending rest) = .next u ∧
          t = u.respond .writeAccepted) ∨
       (∃ n a v, t = (storeWrite n a v (s.withPending rest)).respond .writeAccepted) ∨
       (e = .reset ∧ t = resetCore (s.withPending rest))) := by
  unfold stepBy at h
  split at h
  · next hp => exact .inl ⟨hp, by simpa [eq_comm] using h⟩
  · next e rest hp =>
    refine .inr ⟨e, rest, hp, ?_⟩
    have hrd : ∀ n a, issueRead n a (s.withPending rest) = .next t → ∃ r, t = (s.withPending rest).respond r := by
      intro n a h
      unfold issueRead at h
      split at h <;> exact ⟨_, by simpa [eq_comm] using h⟩
    have hwr : ∀ n a v, issueWriteBy ex n a v (s.withPending rest) = .next t →
        (∃ r, t = (s.withPending rest).respond r) ∨
        (n = 4 ∧ a = 0 ∧ ∃ u, runCommandBy ex v (s.withPending rest) = .next u ∧ t = u.respond .writeAccepted) ∨
        (∃ n a v, t = (storeWrite n a v (s.withPending rest)).respond .writeAccepted) := by
      intro n a v h
      rcases issueWriteBy_cases ex n a v (s.withPending rest) with ⟨-, h'⟩ | ⟨hacc, hk, h'⟩ | ⟨-, -, h'⟩ <;> rw [h'] at h
      · exact .inl ⟨_, by simpa [eq_comm] using h⟩
      · obtain ⟨u, hu, rfl⟩ := thenRespond_eq_next h
        exact .inr (.inl ⟨(accepted_cmd hacc hk).1, (accepted_cmd hacc hk).2, u, hu, rfl⟩)
      · exact .inr (.inr ⟨n, a, v, by simpa [eq_comm] using h⟩)
    cases e with
    | rd8 a => exact .inl (hrd 1 _ h)
    | rd16 a => exact .inl (hrd 2 _ h)
    | rd32 a => exact .inl (hrd 4 _ h)
    | wr8 a v => rcases hwr 1 _ _ h with h | ⟨h, -⟩ | h <;> simp_all
    | wr16 a v => rcases hwr 2 _ _ h with h | ⟨h, -⟩ | h <;> simp_all
    | wr32 a v =>
      rcases hwr 4 _ _ h with h | ⟨-, ha, u, hu, rfl⟩ | h
      · exact .inl h
      · have ha : a = 0x0000#16 := by apply BitVec.eq_of_toNat_eq; simpa using ha
        exact .inr (.inl ⟨v, u, by rw [ha]; rfl, hu, rfl⟩)
      · exact .inr (.inr (.inl h))
    | reset => exact .inr (.inr (.inr ⟨rfl, by simpa [deliverBy, eq_comm] using h⟩))

/-- `stepBy_cases` for this machine. -/
theorem step_cases {s t : State} (h : step s = .next t) :
    (s.pending = [] ∧ t = s) ∨
    ∃ e rest, s.pending = e :: rest ∧
      ((∃ r, t = (s.withPending rest).respond r) ∨
       (∃ w u, e = cmdWrite w ∧ runCommand w (s.withPending rest) = .next u ∧
          t = u.respond .writeAccepted) ∨
       (∃ n a v, t = (storeWrite n a v (s.withPending rest)).respond .writeAccepted) ∨
       (e = .reset ∧ t = resetCore (s.withPending rest))) := stepBy_cases exec h

end Sys2Proof.Machine
end

