-- ==== Sys2Proof/Machine/Cmac.lean ====
section
/-! DEFINITION. The informative instantiation of the keyed hash (45_collaborators.md R230): CMAC over a 16-byte block
cipher. The machine is not wired to it: its `H` is a parameter (45_collaborators.md R222; log entry 13). -/

namespace Sys2Proof.Machine

/-- The last block of a message of CMAC, 0 to 16 bytes, with the sub-key of its length (45_collaborators.md R230). -/
def cmacLast (S1 S2 : Block) (last : Bytes) : Block :=
  if last.length = 16 then xorBlock (blockOf last) S1 else xorBlock (pad last) S2

/-- `CMAC(K, M)` for the block cipher `E` (45_collaborators.md R230). -/
def cmac (E : Bytes → Block → Block) (K M : Bytes) : Block :=
  let S1 := dbl (E K 0#128)
  let m := max 1 ((M.length + 15) / 16)
  let X := (List.range (m - 1)).foldl
    (fun X i => E K (xorBlock X (blockOf ((M.drop (16 * i)).take 16)))) 0#128
  E K (xorBlock X (cmacLast S1 (dbl S1) (M.drop (16 * (m - 1)))))

/-- Collaborators whose keyed hash is CMAC over their own block cipher (45_collaborators.md R222, R230). -/
def cmacCollaborators (E : Bytes → Block → Block) (keyValid : Bytes → Bool) : Collaborators :=
  { E := E, H := cmac E, keyValid := keyValid }

end Sys2Proof.Machine
end

