-- ==== Sys2Proof/Machine/Aes.lean ====
section
/-! DEFINITION. The informative instantiation of the block cipher (45_collaborators.md R231): AES encryption of one
block, and the key lengths it accepts. The spec names FIPS-197 and does not reproduce it, so the algorithm here is
PRESUMED from general knowledge and checked against the values the spec prints (log entry 13). The machine is not
wired to it: its `E` is a parameter (45_collaborators.md R221). -/

namespace Sys2Proof.Machine.Aes

/-- The substitution table, one row of sixteen bytes for each high nibble (PRESUMED, log entry 13). -/
def sboxRows : List Block :=
  [ 0x637c777bf26b6fc53001672bfed7ab76#128, 0xca82c97dfa5947f0add4a2af9ca472c0#128,
    0xb7fd9326363ff7cc34a5e5f171d83115#128, 0x04c723c31896059a071280e2eb27b275#128,
    0x09832c1a1b6e5aa0523bd6b329e32f84#128, 0x53d100ed20fcb15b6acbbe394a4c58cf#128,
    0xd0efaafb434d338545f9027f503c9fa8#128, 0x51a3408f929d38f5bcb6da2110fff3d2#128,
    0xcd0c13ec5f974417c4a77e3d645d1973#128, 0x60814fdc222a908846eeb814de5e0bdb#128,
    0xe0323a0a4906245cc2d3ac629195e479#128, 0xe7c8376d8dd54ea96c56f4ea657aae08#128,
    0xba78252e1ca6b4c6e8dd741f4bbd8b8a#128, 0x703eb5664803f60e613557b986c11d9e#128,
    0xe1f8981169d98e949b1e87e9ce5528df#128, 0x8ca1890dbfe6426841992d0fb054bb16#128 ]

/-- The substitution of one byte. -/
def sbox (b : Byte) : Byte := byteOf (sboxRows.getD (b.toNat / 16) 0#128) (b.toNat % 16)

/-- A word, most significant byte first, with every byte substituted. -/
def subWord (w : Word) : Word := wordOf ((List.range 4).map fun j => sbox (wordByte 4 w j))

/-- Doubling in the field of bytes. -/
def xtime (b : Byte) : Byte := (b <<< 1) ^^^ (if b.msb then 0x1b#8 else 0x00#8)

/-- The round constant of one key-expansion turn. -/
def rcon (n : Nat) : Byte := (List.range (n - 1)).foldl (fun b _ => xtime b) 0x01#8

/-- The words of the key, four bytes each. -/
def keyWords (K : Bytes) : List Word := (List.range (K.length / 4)).map fun i => wordOf ((K.drop (4 * i)).take 4)

/-- One more word of the key schedule of a key of `nk` words. -/
def nextWord (nk : Nat) (ws : List Word) : Word :=
  let i := ws.length
  let t := ws.getD (i - 1) 0#32
  let t :=
    if i % nk = 0 then subWord (t.rotateLeft 8) ^^^ ((rcon (i / nk)).setWidth 32 <<< 24)
    else if 6 < nk ∧ i % nk = 4 then subWord t
    else t
  ws.getD (i - nk) 0#32 ^^^ t

/-- The round keys: four words for each of the `nk + 7` additions. -/
def roundKeys (K : Bytes) : List Bytes :=
  let nk := K.length / 4
  let ws := (List.range (4 * (nk + 7) - nk)).foldl (fun ws _ => ws ++ [nextWord nk ws]) (keyWords K)
  (List.range (nk + 7)).map fun r =>
    (List.range 16).map fun i => wordByte 4 (ws.getD (4 * r + i / 4) 0#32) (i % 4)

/-- The rows of the state, byte `r + 4*c` in row `r`, turned left by their number. -/
def shiftRows (S : Bytes) : Bytes := (List.range 16).map fun i => S.getD ((i + 4 * (i % 4)) % 16) 0x00#8

/-- The columns of the state, each multiplied by the fixed polynomial. -/
def mixColumns (S : Bytes) : Bytes :=
  (List.range 16).map fun i =>
    let b (k : Nat) : Byte := S.getD (i / 4 * 4 + (i + k) % 4) 0x00#8
    xtime (b 0) ^^^ (xtime (b 1) ^^^ b 1) ^^^ b 2 ^^^ b 3

/-- The rounds after the first key addition; the last one mixes no columns. -/
def rounds : List Bytes → Bytes → Bytes
  | [], S => S
  | [k], S => xorBytes (shiftRows (S.map sbox)) k
  | k :: ks, S => rounds ks (xorBytes (mixColumns (shiftRows (S.map sbox))) k)

/-- AES encryption of one block under a key of 16, 24 or 32 bytes (45_collaborators.md R231). -/
def encrypt (K : Bytes) (X : Block) : Block :=
  match roundKeys K with
  | [] => X
  | k :: ks => blockOf (rounds ks (xorBytes (blockBytes X) k))

/-- The key lengths of AES (45_collaborators.md R231). -/
def keyValid (K : Bytes) : Bool := K.length == 16 || K.length == 24 || K.length == 32

/-- The collaborators of the published construction: AES, and CMAC over it (45_collaborators.md R230, R231). -/
def collaborators : Collaborators := cmacCollaborators encrypt keyValid

end Sys2Proof.Machine.Aes
end

