-- ==== Sys2Proof/Machine/Assembler.lean ====
section
/-! DEFINITION. The assembler's text of a command (30_encoding.md R99) and the pseudo-instructions as the bus writes
they stand for (30_encoding.md R100). They carry no hardware meaning: each is a list of host events. -/

namespace Sys2Proof.Machine

/-- `b0` to `b3`. -/
def regText (r : RegIdx) : String := "b" ++ toString r.val

/-- A command as text: mnemonic, then its register operands, destination first (30_encoding.md R99). -/
def asmText : Instr → String
  | .dbl rd rs1 => "dbl " ++ regText rd ++ ", " ++ regText rs1
  | .xor rd rs1 rs2 => "xor " ++ regText rd ++ ", " ++ regText rs1 ++ ", " ++ regText rs2
  | .xorend rs1 => "xorend " ++ regText rs1
  | .pad rd => "pad " ++ regText rd
  | .ctrseed rd rs1 => "ctrseed " ++ regText rd ++ ", " ++ regText rs1
  | .ctr rs1 => "ctr " ++ regText rs1
  | .s2v rd => "s2v " ++ regText rd
  | .newKey => "new"
  | .sealMsg => "seal"
  | .openMsg => "open"

/-- Write the bytes of `X` at `base`: 4-byte writes, then one byte at a time (30_encoding.md R100). That an address past
the window wraps modulo 2^16 is the model's choice (log entry 19, DESIGN CHOICE). -/
def writeString (base : Nat) : Bytes → List HostEvent
  | a :: b :: c :: d :: X => .wr32 (BitVec.ofNat 16 base) (wordOf [a, b, c, d]) :: writeString (base + 4) X
  | b :: X => .wr8 (BitVec.ofNat 16 base) b :: writeString (base + 1) X
  | [] => []

/-- The pseudo-instructions (30_encoding.md R100). -/
inductive Pseudo where
  | ldb (j : RegIdx) (X : Block)
  | ldin (X : Bytes)
  | ldad (i : Fin 8) (X : Bytes)
  | ldadAbsent (i : Fin 8)
  | adcnt (m : Nat)
  | ldnonce (X : Bytes)
  | ldnonceAbsent
  | ldkey (X : Bytes)
deriving DecidableEq, Repr

/-- The bus writes a pseudo-instruction stands for (30_encoding.md R100). That a written value of 2^32 or more is cut to
its low 32 bits is the model's choice (log entry 19, DESIGN CHOICE). -/
def expand : Pseudo → List HostEvent
  | .ldb j X => writeString (0x0080 + 16 * j.val) (blockBytes X)
  | .ldin X => writeString inBase X ++ [.wr32 0x0020#16 (BitVec.ofNat 32 X.length)]
  | .ldad i X =>
    writeString (adBase i.val) X ++
      [.wr32 (BitVec.ofNat 16 (0x0040 + 4 * i.val)) (BitVec.ofNat 32 (0x80000000 + X.length))]
  | .ldadAbsent i => [.wr32 (BitVec.ofNat 16 (0x0040 + 4 * i.val)) 0#32]
  | .adcnt m => [.wr32 0x0018#16 (BitVec.ofNat 32 m)]
  | .ldnonce X => writeString nonceBase X ++ [.wr32 0x001C#16 (BitVec.ofNat 32 (0x80000000 + X.length))]
  | .ldnonceAbsent => [.wr32 0x001C#16 0#32]
  | .ldkey X => writeString kbufBase X ++ [.wr32 0x0014#16 (BitVec.ofNat 32 X.length)]

end Sys2Proof.Machine
end

