-- ==== Sys2Proof/Tests/Slice0.lean ====
section
/-! SUPPORT. The model's own tests. Expected values are those printed in 95_test_vectors.md (the section is named at
each test) or worked out by hand from the rule named; the last part gives one concrete witness for the hypotheses of
each statement. -/

namespace Sys2Proof.Tests

open Sys2Proof Sys2Proof.Machine

/-! ### Helpers -/

/-- The `n` bytes of a hexadecimal string as the spec prints it. -/
def hex (n v : Nat) : Bytes := (List.range n).map fun i => BitVec.ofNat 8 (v >>> (8 * (n - 1 - i)))

/-- `K1` of 95_test_vectors.md section 2. -/
def key1 : Bytes := hex 16 0x101112131415161718191a1b1c1d1e1f
/-- `K2` of 95_test_vectors.md section 2. -/
def key2 : Bytes := hex 16 0xa0a1a2a3a4a5a6a7a8a9aaabacadaeaf

/-- `H_toy` of 95_test_vectors.md section 2. -/
def toyHash (K M : Bytes) : Block :=
  (List.range ((M.length + 15) / 16)).foldl
    (fun acc i =>
      dbl acc ^^^ blockOf ((M.drop (16 * i)).take 16 ++ zeros (16 - ((M.drop (16 * i)).take 16).length)))
    (blockOf K) ^^^ BitVec.ofNat 128 (M.length % 256)

/-- The toy collaborators of 95_test_vectors.md section 2. -/
def toy : Collaborators :=
  { E := fun K X => X ^^^ blockOf K, H := toyHash, keyValid := fun K => K.length == 16 }

/-- The code and the output of a command that ended, or none. -/
def report (o : Host.Outcome State Fault Refusal) : Option (Code × Bytes) :=
  match o with
  | .next t => some (t.res, Memory.readBytes t.mem outBase t.outLen.toNat)
  | _ => none

/-- The code and one block register after a command that ended, or none. -/
def reportBlock (j : RegIdx) (o : Host.Outcome State Fault Refusal) : Option (Code × Block) :=
  match o with
  | .next t => some (t.res, readBlock t j)
  | _ => none

/-- The code and the registers of an instance. -/
structure KeyReport where
  res : Code
  k1 : Bytes
  k2 : Bytes
  status : Word
  kbufLen : BitVec 8
deriving DecidableEq

/-- The code and the registers of an instance after a command that ended, or none. -/
def reportKeys (o : Host.Outcome State Fault Refusal) : Option KeyReport :=
  match o with
  | .next t => some ⟨t.res, t.k1, t.k2, statusWord t, t.kbufLen⟩
  | _ => none

/-- The whole state after a step, or none. -/
def stateAfter (o : Host.Outcome State Fault Refusal) : Option State :=
  match o with
  | .next t => some t
  | _ => none

/-- A state with an input. -/
def loadInput (X : Bytes) (s : State) : State :=
  (s.withMem (Memory.writeBytes s.mem inBase X)).withInLen (BitVec.ofNat 16 X.length)

/-- The reset state with staged key material. -/
def staged (X : Bytes) : State :=
  (State.reset.withMem (Memory.writeBytes [] kbufBase X)).withKbufLen (BitVec.ofNat 8 X.length)

/-- A core keyed with `K1`, `K2`. -/
def keyed (a z : Bytes) : State := State.reset.withInstance a z true (BitVec.ofNat 8 a.length)

/-- The 18-byte plaintext of 95_test_vectors.md sections 3.5 and 3.6. -/
def plain18 : Bytes := hex 18 0x00112233445566778899aabbccddeeff0102

/-- The item list of 95_test_vectors.md section 3.6, first row. -/
def list3 : List Item := [.present (hex 2 0xaabb), .absent, .present (hex 1 0xcc)]

/-- The sealed output of 95_test_vectors.md section 3.6, first row. -/
def sealed34 : Bytes :=
  hex 34 0xf51cff1b211b251ef8c21c26f0caf4dc55ac7f8bc1ebe5ce58f21c3610bab48c54bf

/-- A keyed core with the slots of program P2 and the input `X`. -/
def p2State (X : Bytes) : State :=
  loadInput X
    (((((keyed key1 key2).withMem
      (Memory.writeBytes (Memory.writeBytes [] (adBase 0) (hex 2 0xaabb)) nonceBase (hex 1 0xcc))).withAdctl 0
        (slotOfWord 0x80000002#32)).withAdcnt 2#8).withNonceCtl (slotOfWord 0x80000001#32))

/-! ### Decoding (95_test_vectors.md, decoding vectors; 30_encoding.md R90 to R95) -/

theorem test_decode_dbl : decode 0b00000000000000000000000100000001#32 = .ok (.dbl 1 0) := by decide
theorem test_decode_dbl_same : decode 0b00000000000000000011001100000001#32 = .ok (.dbl 3 3) := by decide
theorem test_decode_dbl_low : decode 0b00000000000000000010000000000001#32 = .ok (.dbl 0 2) := by decide
theorem test_decode_xor : decode 0b00000000000000100001000100000010#32 = .ok (.xor 1 1 2) := by decide
theorem test_decode_xor_top : decode 0b00000000000000110011001100000010#32 = .ok (.xor 3 3 3) := by decide
theorem test_decode_xorend : decode 0b00000000000000000011000000000011#32 = .ok (.xorend 3) := by decide
theorem test_decode_pad : decode 0b00000000000000000000001100000100#32 = .ok (.pad 3) := by decide
theorem test_decode_ctrseed : decode 0b00000000000000000011001100000101#32 = .ok (.ctrseed 3 3) := by decide
theorem test_decode_ctr : decode 0b00000000000000000001000000000110#32 = .ok (.ctr 1) := by decide
theorem test_decode_s2v : decode 0b00000000000000000000001000000111#32 = .ok (.s2v 2) := by decide
theorem test_decode_new : decode 0b00000000000000000000000000010000#32 = .ok .newKey := by decide
theorem test_decode_seal : decode 0b00000000000000000000000000010001#32 = .ok .sealMsg := by decide
theorem test_decode_open : decode 0b00000000000000000000000000010010#32 = .ok .openMsg := by decide

/-- The encoder gives the words 95_test_vectors.md sections 3.1 to 3.4 print for commands. -/
theorem test_encode_words :
    encode (.dbl 1 0) = 0x00000101#32 ∧ encode (.xor 3 3 1) = 0x00013302#32 ∧ encode (.xorend 3) = 0x00003003#32 ∧
    encode (.pad 3) = 0x00000304#32 ∧ encode (.ctrseed 1 0) = 0x00000105#32 ∧ encode (.ctr 1) = 0x00001006#32 ∧
    encode (.s2v 0) = 0x00000007#32 ∧ encode .newKey = 0x00000010#32 ∧ encode .sealMsg = 0x00000011#32 ∧
    encode .openMsg = 0x00000012#32 := by decide

/-- Words of unassigned operation codes are rejected by name. -/
theorem test_decode_unassigned :
    [0x00000000#32, 0x00000008#32, 0x0000000f#32, 0x00000013#32, 0x000000ff#32, 0x00000100#32, 0xffffffff#32].all
      (fun w => decide (decode w = .error (.unassignedOpcode (opField w)))) = true := by decide

/-- Words with a bit set that the format fixes to 0 are rejected by name. -/
theorem test_decode_fixed_bits :
    [0x00000401#32, 0x00004001#32, 0x00010001#32, 0x00000103#32, 0x00001004#32, 0x00000106#32, 0x00001007#32,
        0x00001010#32, 0x00000111#32, 0x80000011#32, 0x00040002#32].all
      (fun w => decide (decode w = .error (.fixedBitSet (opField w)))) = true := by decide

/-- The reading of table words: whole rows, and no row of another length. -/
theorem test_decodeTableWord :
    decodeTableWord 32 0x00021102 = some (.xor 1 1 2) ∧ decodeTableWord 8 0x10 = some .newKey ∧
    decodeTableWord 32 0x00000013 = none ∧ decodeTableWord 64 0x10 = none := by decide

/-! ### WellFormed: one ill-formed word for each check -/

theorem smoke_wellFormed_unassigned_opcode : wordWellFormed 0x00000013#32 = false := by decide
theorem smoke_wellFormed_zero_word : wordWellFormed 0x00000000#32 = false := by decide
theorem smoke_wellFormed_rd_unused : wordWellFormed 0x00000103#32 = false := by decide
theorem smoke_wellFormed_rs1_unused : wordWellFormed 0x00001004#32 = false := by decide
theorem smoke_wellFormed_rs2_unused : wordWellFormed 0x00010001#32 = false := by decide
theorem smoke_wellFormed_bits_11_10 : wordWellFormed 0x00000401#32 = false := by decide
theorem smoke_wellFormed_bits_15_14 : wordWellFormed 0x00004001#32 = false := by decide
theorem smoke_wellFormed_bits_31_18 : wordWellFormed 0x00040002#32 = false ∧ wordWellFormed 0x80000011#32 = false := by
  decide
theorem smoke_wellFormed_accepts : wordWellFormed 0x00033302#32 = true ∧ wordWellFormed 0x00000012#32 = true := by
  decide

/-- No two rows of the opcode map share an operation code. -/
theorem test_rows_have_different_codes : opRows.Pairwise fun r r' => r.op &&& 0xFF#32 ≠ r'.op &&& 0xFF#32 := by decide

/-! ### The pure functions (95_test_vectors.md sections 2 and 3) -/

/-- Section 3.1. -/
theorem test_dbl_vectors :
    [(0x00000000000000000000000000000000#128, 0x00000000000000000000000000000000#128),
        (0x00000000000000000000000000000001#128, 0x00000000000000000000000000000002#128),
        (0x80000000000000000000000000000000#128, 0x00000000000000000000000000000087#128),
        (0xffffffffffffffffffffffffffffffff#128, 0xffffffffffffffffffffffffffffff79#128),
        (0x40000000000000000000000000000000#128, 0x80000000000000000000000000000000#128),
        (0x7fffffffffffffffffffffffffffffff#128, 0xfffffffffffffffffffffffffffffffe#128),
        (0x00800000000000000000000000000000#128, 0x01000000000000000000000000000000#128),
        (0x00000000000000000000000000000080#128, 0x00000000000000000000000000000100#128),
        (0x80000000000000000000000000000087#128, 0x00000000000000000000000000000189#128),
        (0xc0000000000000000000000000000001#128, 0x80000000000000000000000000000085#128),
        (0x0e04dfafc1efbf040140582859bf073a#128, 0x1c09bf5f83df7e080280b050b37e0e74#128),
        (0xedf09de876c642ee4d78bce4ceedfc4f#128, 0xdbe13bd0ed8c85dc9af179c99ddbf819#128),
        (0x0123456789abcdeffedcba9876543210#128, 0x02468acf13579bdffdb97530eca86420#128)].all
      (fun p => dbl p.1 == p.2) = true := by decide +kernel

/-- Section 3.2. -/
theorem test_xor_vector :
    xorBlock 0x1c09bf5f83df7e080280b050b37e0e74#128 0xf1f922b7f5193ce64ff80cb47d93f23b#128 =
      0xedf09de876c642ee4d78bce4ceedfc4f#128 := by decide +kernel

/-- Section 3.2. -/
theorem test_xorend_vectors :
    xorend (hex 16 0xffffffffffffffffffffffffffffffff) 0x000102030405060708090a0b0c0d0e0f#128 =
      hex 16 0xfffefdfcfbfaf9f8f7f6f5f4f3f2f1f0 ∧
    xorend (hex 17 0xaaffffffffffffffffffffffffffffffff) 0x000102030405060708090a0b0c0d0e0f#128 =
      hex 17 0xaafffefdfcfbfaf9f8f7f6f5f4f3f2f1f0 ∧
    xorend (hex 32 0x101112131415161718191a1b1c1d1e1f202122232425262728292a2b2c2d2e2f)
        0x000102030405060708090a0b0c0d0e0f#128 =
      hex 32 0x101112131415161718191a1b1c1d1e1f20202020202020202020202020202020 := by decide +kernel

/-- Section 3.2. -/
theorem test_pad_vectors :
    pad [] = 0x80000000000000000000000000000000#128 ∧ pad (hex 1 0x01) = 0x01800000000000000000000000000000#128 ∧
    pad (hex 14 0x112233445566778899aabbccddee) = 0x112233445566778899aabbccddee8000#128 ∧
    pad (hex 15 0x0102030405060708090a0b0c0d0e0f) = 0x0102030405060708090a0b0c0d0e0f80#128 ∧
    pad (zeros 15) = 0x00000000000000000000000000000080#128 := by decide +kernel

/-- Section 3.3. -/
theorem test_ctrseed_vectors :
    [(0xffffffffffffffffffffffffffffffff#128, 0xffffffffffffffff7fffffff7fffffff#128),
        (0x00000000000000000000000000000000#128, 0x00000000000000000000000000000000#128),
        (0x00000000000000008000000080000000#128, 0x00000000000000000000000000000000#128),
        (0x85632d07c6e8f37f950acd320a2ecc93#128, 0x85632d07c6e8f37f150acd320a2ecc93#128),
        (0x7bdb6e3b432667eb06f4d14bff2fbd0f#128, 0x7bdb6e3b432667eb06f4d14b7f2fbd0f#128),
        (0x00112233445566778899aabbccddeeff#128, 0x00112233445566770899aabb4cddeeff#128)].all
      (fun p => ctrseed p.1 == p.2) = true := by decide +kernel

/-- Section 2: the toys. -/
theorem test_toy_values :
    toyHash key1 [] = 0x101112131415161718191a1b1c1d1e1f#128 ∧
    toyHash key1 (zeros 16) = 0x20222426282a2c2e30323436383a3c2e#128 ∧
    toyHash key1 (hex 2 0xaabb) = 0x8a992426282a2c2e30323436383a3c3c#128 ∧
    toyHash key1 (hex 20 0x000102030405060708090a0b0c0d0e0f10111213) =
      0x50575e59585e545270767c7a686e6476#128 := by decide +kernel

/-- Section 3.4, with the carry into byte 14 and the wrap modulo `2^128`. -/
theorem test_keystream_vectors :
    keystream toy key2 0x000000000000000000000000000000fe#128 40 =
      hex 40 0xa0a1a2a3a4a5a6a7a8a9aaabacadae51a0a1a2a3a4a5a6a7a8a9aaabacadae50a0a1a2a3a4a5a6a7 ∧
    keystream toy key2 0xffffffffffffffffffffffffffffffff#128 20 =
      hex 20 0x5f5e5d5c5b5a59585756555453525150a0a1a2a3 ∧
    keystream toy key2 0xffffffffffffffffffffffffffffffff#128 0 = [] ∧
    ctrXor toy key2 0x000000000000000000000000000000fe#128 (hex 20 0x000102030405060708090a0b0c0d0e0f10111213) =
      hex 20 0xa0a0a0a0a0a0a0a0a0a0a0a0a0a0a05eb0b0b0b0 := by decide +kernel

/-- Section 3.5 (a) to (f). -/
theorem test_s2v_vectors :
    s2v toy key1 [.absent] [] = 0xe0666c6a787e747250565c5a484e4472#128 ∧
    s2v toy key1 [.absent, .absent] [] = 0xe0666c6a787e747250565c5a484e4472#128 ∧
    s2v toy key1 [.present []] [] = 0x00889098a0a8b0b8c0c8d0d8e0e8f0a8#128 ∧
    s2v toy key1 list3 plain18 = 0xf51cff1b211b251ef8c21c26f0caf4dc#128 ∧
    s2v toy key1 [.present (hex 1 0xcc), .absent, .present (hex 2 0xaabb)] plain18 =
      0xf518a881211b251ef8c21c26f0caf4dc#128 ∧
    s2v toy key1 [.absent] (zeros 16) = 0x00000000000000000000000000000000#128 ∧
    s2v toy key1 [.absent, .absent] (zeros 15) = 0x60666c6a787e747250565c5a484e44f2#128 := by decide +kernel

/-- Section 3.5 (c), step by step: the accumulator and `T`. -/
theorem test_s2v_steps :
    s2vAccumulator toy key1 list3 = 0x7998fcf2d8d6c4ca909e8c82a8a6b478#128 ∧
    s2vFinal (s2vAccumulator toy key1 list3) plain18 = hex 18 0x00115babb8a7bea14c533a25405f4659b57a := by
  decide +kernel

/-- Section 3.6, sealed outputs. -/
theorem test_seal_vectors :
    aeadSeal toy key1 key2 list3 plain18 = sealed34 ∧
    aeadSeal toy key1 key2 [.absent] [] = hex 16 0xe0666c6a787e747250565c5a484e4472 ∧
    aeadSeal toy key1 key2 [.absent] plain18 =
      hex 34 0x7d4a4c6e90b2c4e7290b5d7f81a3d5e4ddfaccfe70420437093b5d6f61d395b4dce9 ∧
    aeadSeal toy key1 key2 [.absent, .absent] (zeros 15) =
      hex 31 0x60666c6a787e747250565c5a484e44f2c0c7cec9dcdbd2d5f8fff6f1e4e3ea := by decide +kernel

/-- Section 3.6, opening with the sealer's list and with changed ones. -/
theorem test_open_vectors :
    aeadOpen toy key1 key2 list3 sealed34 = some plain18 ∧
    aeadOpen toy key1 key2 list3 (sealed34.set 20 0xc0#8) = none ∧
    aeadOpen toy key1 key2 list3 (zeros 15) = none ∧
    aeadOpen toy key1 key2 [.present (hex 2 0xaabc), .absent, .present (hex 1 0xcc)] sealed34 = none ∧
    aeadOpen toy key1 key2 [.present (hex 2 0xaabb), .present [], .present (hex 1 0xcc)] sealed34 = none ∧
    aeadOpen toy key1 key2 [.present (hex 2 0xaabb), .present (hex 1 0xcc)] sealed34 = some plain18 ∧
    aeadOpen toy key1 key2 [.absent, .present (hex 2 0xaabb), .present (hex 1 0xcc)] sealed34 = some plain18 ∧
    aeadOpen toy key1 key2 [.present (hex 1 0xcc), .absent, .present (hex 2 0xaabb)] sealed34 = none := by
  decide +kernel

/-! ### Known answers (95_test_vectors.md section 5): the calls of AES and CMAC it prints, as a table -/

/-- The calls printed in section 5.1. -/
def known1 : Collaborators where
  H K M :=
    if K ≠ hex 16 0xfffefdfcfbfaf9f8f7f6f5f4f3f2f1f0 then 0#128
    else if M = zeros 16 then 0x0e04dfafc1efbf040140582859bf073a#128
    else if M = hex 24 0x101112131415161718191a1b1c1d1e1f2021222324252627 then 0xf1f922b7f5193ce64ff80cb47d93f23b#128
    else if M = hex 16 0xcac30894b8eaf254035bc20540357819 then 0x85632d07c6e8f37f950acd320a2ecc93#128
    else 0#128
  E K X :=
    if K = hex 16 0xf0f1f2f3f4f5f6f7f8f9fafbfcfdfeff ∧ X = 0x85632d07c6e8f37f150acd320a2ecc93#128 then
      0x51e218d2c5a2ab8c4345c4a623b2f08f#128
    else 0#128
  keyValid K := K.length == 16

theorem test_known_answer_deterministic :
    aeadSeal known1 (hex 16 0xfffefdfcfbfaf9f8f7f6f5f4f3f2f1f0) (hex 16 0xf0f1f2f3f4f5f6f7f8f9fafbfcfdfeff)
        [.present (hex 24 0x101112131415161718191a1b1c1d1e1f2021222324252627), .absent]
        (hex 14 0x112233445566778899aabbccddee) =
      hex 30 0x85632d07c6e8f37f950acd320a2ecc9340c02b9690c4dc04daef7f6afe5c := by decide +kernel

/-- The calls printed in section 5.2. -/
def known2 : Collaborators where
  H K M :=
    if K ≠ hex 16 0x7f7e7d7c7b7a79787776757473727170 then 0#128
    else if M = zeros 16 then 0xc8b43b5974960e7ce6a5dd85231e591a#128
    else if M = hex 40 0x00112233445566778899aabbccddeeffdeaddadadeaddadaffeeddccbbaa99887766554433221100 then
      0x3c9b689ab41102e4809547141dd0d15a#128
    else if M = hex 10 0x102030405060708090a0 then 0xd98c9b0be42cb2d7aa98478ed11eda1b#128
    else if M = hex 16 0x09f911029d74e35bd84156c5635688c0 then 0x128c62a1ce3747a8372c1c05a538b96d#128
    else if M = hex 47 0x7468697320697320736f6d6520706c61696e7465787420746f20656e637279662d0c6201f3341575342a3745f5c625
      then 0x7bdb6e3b432667eb06f4d14bff2fbd0f#128
    else 0#128
  E K X :=
    if K ≠ hex 16 0x404142434445464748494a4b4c4d4e4f then 0#128
    else if X = 0x7bdb6e3b432667eb06f4d14b7f2fbd0f#128 then 0xbff8665cfdd73363550f7400e8f9d376#128
    else if X = 0x7bdb6e3b432667eb06f4d14b7f2fbd10#128 then 0xb2c9088e713b8617d8839226d9f88159#128
    else if X = 0x7bdb6e3b432667eb06f4d14b7f2fbd11#128 then 0x9e44d827234949bc1b12348ebc195ec7#128
    else 0#128
  keyValid K := K.length == 16

theorem test_known_answer_nonce_based :
    aeadSeal known2 (hex 16 0x7f7e7d7c7b7a79787776757473727170) (hex 16 0x404142434445464748494a4b4c4d4e4f)
        [.present (hex 40 0x00112233445566778899aabbccddeeffdeaddadadeaddadaffeeddccbbaa99887766554433221100),
          .present (hex 10 0x102030405060708090a0), .present (hex 16 0x09f911029d74e35bd84156c5635688c0)]
        (hex 47 0x7468697320697320736f6d6520706c61696e7465787420746f20656e6372797074207573696e67205349562d414553) =
      hex 63 0x7bdb6e3b432667eb06f4d14bff2fbd0fcb900f2fddbe404326601965c889bf17dba77ceb094fa663b7a3f748ba8af829ea64ad544a272e9c485b62a3fd5c0d := by
  decide +kernel

/-- CMAC (45_collaborators.md R230) by hand with the toy cipher: of one full block of zeros it is
`dbl(K1) ^ K1`. -/
theorem test_cmac_by_hand :
    cmac toy.E key1 (zeros 16) = 0x303336353c3f3a39282b2e2d24272221#128 ∧
    cmac toy.E key1 [] = (pad [] ^^^ dbl (dbl (blockOf key1))) ^^^ blockOf key1 := by decide +kernel

/-- The check values of 45_collaborators.md R231. -/
theorem test_aes_check_values :
    Aes.encrypt (hex 16 0x000102030405060708090a0b0c0d0e0f) 0x00112233445566778899aabbccddeeff#128 =
      0x69c4e0d86a7b0430d8cdb78070b4c55a#128 ∧
    Aes.encrypt (hex 16 0xf0f1f2f3f4f5f6f7f8f9fafbfcfdfeff) 0x85632d07c6e8f37f150acd320a2ecc93#128 =
      0x51e218d2c5a2ab8c4345c4a623b2f08f#128 := by decide +kernel

/-- The check value of 45_collaborators.md R230. -/
theorem test_cmac_check_value :
    Aes.collaborators.H (hex 16 0xfffefdfcfbfaf9f8f7f6f5f4f3f2f1f0) (zeros 16) =
      0x0e04dfafc1efbf040140582859bf073a#128 := by decide +kernel

/-- Section 5.3, key material of 48 and of 64 bytes. -/
theorem test_known_answers_longer_keys :
    aeadSeal Aes.collaborators ((List.range 24).map (BitVec.ofNat 8)) ((List.range' 24 24).map (BitVec.ofNat 8))
        [.present (hex 24 0x101112131415161718191a1b1c1d1e1f2021222324252627), .absent]
        (hex 14 0x112233445566778899aabbccddee) =
      hex 30 0xdf2e1ddfc2598382d1acb410c2388078d23875e91f9a8a650d5a632697f8 ∧
    aeadSeal Aes.collaborators ((List.range 32).map (BitVec.ofNat 8)) ((List.range' 32 32).map (BitVec.ofNat 8))
        [.present (hex 24 0x101112131415161718191a1b1c1d1e1f2021222324252627), .absent]
        (hex 14 0x112233445566778899aabbccddee) =
      hex 30 0x801aa54859afc2c7a67a2892d0058e3e4fc606d573f01104a12bf8ab150c := by decide +kernel

/-! ### The commands, one at a time -/

/-- Program P1, first command. -/
theorem test_exec_dbl :
    reportBlock 1 (exec (.dbl 1 0) (State.reset.withBlock 0 0x0e04dfafc1efbf040140582859bf073a#128)) =
      some (.ok, 0x1c09bf5f83df7e080280b050b37e0e74#128) := by decide +kernel

/-- Program P1, third command: source and destination are one register. -/
theorem test_exec_dbl_same :
    reportBlock 1 (exec (.dbl 1 1) (State.reset.withBlock 1 0xedf09de876c642ee4d78bce4ceedfc4f#128)) =
      some (.ok, 0xdbe13bd0ed8c85dc9af179c99ddbf819#128) := by decide +kernel

/-- Program P1, last command. -/
theorem test_exec_xor :
    reportBlock 3 (exec (.xor 3 3 1) ((State.reset.withBlock 3 0x112233445566778899aabbccddee8000#128).withBlock 1
        0xdbe13bd0ed8c85dc9af179c99ddbf819#128)) =
      some (.ok, 0xcac30894b8eaf254035bc20540357819#128) := by decide +kernel

/-- Section 3.2, the row of 17 bytes. -/
theorem test_exec_xorend :
    report (exec (.xorend 2) ((loadInput (hex 17 0xaaffffffffffffffffffffffffffffffff) State.reset).withBlock 2
        0x000102030405060708090a0b0c0d0e0f#128)) =
      some (.ok, hex 17 0xaafffefdfcfbfaf9f8f7f6f5f4f3f2f1f0) := by decide +kernel

/-- Program P5: `xorend` with 15 input bytes. -/
theorem test_exec_xorend_short :
    exec (.xorend 0) (State.reset.withInLen 15#16) = .next ((State.reset.withInLen 15#16).withRes .lenError) := rfl

/-- Program P1, `pad b3`. -/
theorem test_exec_pad :
    reportBlock 3 (exec (.pad 3) (loadInput (hex 14 0x112233445566778899aabbccddee) State.reset)) =
      some (.ok, 0x112233445566778899aabbccddee8000#128) := by decide +kernel

/-- Program P5: `pad` with 16 input bytes. -/
theorem test_exec_pad_long :
    exec (.pad 0) (State.reset.withInLen 16#16) = .next ((State.reset.withInLen 16#16).withRes .lenError) := rfl

/-- Program P4, `ctrseed b1, b0`. -/
theorem test_exec_ctrseed :
    reportBlock 1 (exec (.ctrseed 1 0) (State.reset.withBlock 0 0x7d4a4c6e90b2c4e7290b5d7f81a3d5e4#128)) =
      some (.ok, 0x7d4a4c6e90b2c4e7290b5d7f01a3d5e4#128) := by decide +kernel

/-- Program P4, `ctr b1`. -/
theorem test_exec_ctr :
    report (execWith toy (.ctr 1)
        ((loadInput plain18 (keyed key1 key2)).withBlock 1 0x7d4a4c6e90b2c4e7290b5d7f01a3d5e4#128)) =
      some (.ok, hex 18 0xddfaccfe70420437093b5d6f61d395b4dce9) := by decide +kernel

/-- `CTR` without a key and with a byte too many (60_exceptions.md R242, R245). -/
theorem test_exec_ctr_faults :
    report (execWith toy (.ctr 1) State.reset) = some (.notKeyed, []) ∧
    report (execWith toy (.ctr 1) ((keyed key1 key2).withInLen 4113#16)) = some (.lenError, []) := by decide +kernel

/-- Program P4, `s2v b0`. -/
theorem test_exec_s2v :
    reportBlock 0 (execWith toy (.s2v 0) (loadInput plain18 (keyed key1 key2))) =
      some (.ok, 0x7d4a4c6e90b2c4e7290b5d7f81a3d5e4#128) := by decide +kernel

/-- Program P2, `new`. -/
theorem test_exec_new :
    reportKeys (execWith toy .newKey (staged (key1 ++ key2))) =
      some ⟨.ok, key1, key2, 0x00001001#32, 0#8⟩ := by decide +kernel

/-- Program P5: key material of 33 bytes, of 48 bytes (halves of 24), and of 31 bytes on a keyed core. -/
theorem test_exec_new_refused :
    reportKeys (execWith toy .newKey (State.reset.withKbufLen 33#8)) = some ⟨.keyError, [], [], 0#32, 0#8⟩ ∧
    reportKeys (execWith toy .newKey (State.reset.withKbufLen 48#8)) = some ⟨.keyError, [], [], 0#32, 0#8⟩ ∧
    reportKeys (execWith toy .newKey ((keyed key1 key2).withKbufLen 31#8)) = some ⟨.keyError, [], [], 0#32, 0#8⟩ := by
  decide +kernel

/-- Program P2, `seal`. -/
theorem test_exec_seal : report (execWith toy .sealMsg (p2State plain18)) = some (.ok, sealed34) := by decide +kernel

/-- Program P5: too many slots, a slot too long, and the same slot absent. -/
theorem test_exec_seal_lengths :
    report (execWith toy .sealMsg ((keyed key1 key2).withAdcnt 9#8)) = some (.lenError, []) ∧
    report (execWith toy .sealMsg (((keyed key1 key2).withAdcnt 1#8).withAdctl 0 (slotOfWord 0x80000101#32))) =
      some (.lenError, []) ∧
    report (execWith toy .sealMsg
        ((((keyed key1 key2).withAdcnt 1#8).withAdctl 0 (slotOfWord 0x00000101#32)).withInLen 15#16)) =
      some (.ok, hex 31 0x60666c6a787e747250565c5a484e44f2c0c7cec9dcdbd2d5f8fff6f1e4e3ea) := by decide +kernel

/-- Program P2, `open`. -/
theorem test_exec_open : report (execWith toy .openMsg (p2State sealed34)) = some (.ok, plain18) := by decide +kernel

/-- Program P2, `open` of the tampered output; program P5, `open` of 15 bytes. -/
theorem test_exec_open_rejects :
    report (execWith toy .openMsg (p2State (sealed34.set 20 0xc0#8))) = some (.authError, []) ∧
    report (execWith toy .openMsg (p2State (zeros 15))) = some (.authError, []) := by decide +kernel

/-! ### The step, the bus and the registers -/

/-- A command runs as the first step after reset: PAD of the empty input. -/
theorem test_step_runs_fetched_word :
    reportBlock 0 (step (State.reset.withFetchWord 32 0x00000004)) =
      some (.ok, 0x80000000000000000000000000000000#128) := by decide +kernel

/-- An illegal word written to `CMD` (program P5). -/
theorem test_step_illegal_word :
    (stateAfter (step (State.reset.withFetchWord 32 0x00000401))).map (fun t => resWord t) = some 0x00000010#32 := by
  decide +kernel

/-- The table of bus accesses of program P5, from the reset state. -/
theorem test_bus_access_table :
    busRead 2 0x0002 State.reset = none ∧ busRead 1 0x0000 State.reset = none ∧ accepted 1 0x0000 = false ∧
    busRead 4 0x0028 State.reset = none ∧ busRead 4 0x005c State.reset = some 0#32 ∧
    busRead 4 0x0060 State.reset = none ∧ busRead 2 0x0081 State.reset = none ∧
    busRead 2 0x0082 State.reset = some 0#32 ∧ busRead 4 0x00bc State.reset = some 0#32 ∧
    busRead 4 0x00c0 State.reset = none ∧ busRead 4 0x013c State.reset = some 0#32 ∧
    busRead 4 0x0140 State.reset = none ∧ busRead 4 0x023c State.reset = some 0#32 ∧
    busRead 4 0x0240 State.reset = none ∧ busRead 4 0x17fc State.reset = some 0#32 ∧
    busRead 4 0x1800 State.reset = none ∧ accepted 2 0x2001 = false ∧ accepted 4 0x2002 = false ∧
    accepted 4 0x300c = true ∧ accepted 4 0x3010 = false ∧ accepted 1 0x3010 = false ∧
    busRead 4 0x501c State.reset = some 0#32 ∧ busRead 4 0x5020 State.reset = none ∧
    storeWrite 4 0x4000 0xdeadbeef#32 State.reset = State.reset ∧ busRead 4 0x0000 State.reset = some 0#32 := by
  decide +kernel

/-- The table of byte lanes of program P5. -/
theorem test_byte_lanes :
    busRead 1 0x0083 (storeWrite 4 0x0080 0x0e04dfaf#32 State.reset) = some 0xaf#32 ∧
    busRead 2 0x0082 (storeWrite 4 0x0080 0x0e04dfaf#32 State.reset) = some 0xdfaf#32 ∧
    busRead 4 0x0080 (storeWrite 4 0x0080 0x0e04dfaf#32 State.reset) = some 0x0e04dfaf#32 ∧
    readBlock (storeWrite 4 0x0080 0x0e04dfaf#32 State.reset) 0 = 0x0e04dfaf000000000000000000000000#128 ∧
    busRead 4 0x2000 (storeWrite 2 0x2002 0x0000beef#32 State.reset) = some 0x0000beef#32 ∧
    busRead 4 0x0100 (storeWrite 4 0x0100 0x11223344#32 State.reset) = some 0#32 ∧
    stagedKey (storeWrite 4 0x0100 0x11223344#32 State.reset) 4 = hex 4 0x11223344 := by decide +kernel

/-- The table of field masks of program P5. -/
theorem test_field_masks :
    busRead 4 0x0040 (storeWrite 4 0x0040 0xffffffff#32 State.reset) = some 0x8000ffff#32 ∧
    busRead 4 0x001c (storeWrite 4 0x001c 0xffffffff#32 State.reset) = some 0x8000ffff#32 ∧
    busRead 4 0x0020 (storeWrite 4 0x0020 0xffffffff#32 State.reset) = some 0x0000ffff#32 ∧
    busRead 4 0x0018 (storeWrite 4 0x0018 0xffffffff#32 State.reset) = some 0x000000ff#32 ∧
    busRead 4 0x0014 (storeWrite 4 0x0014 0xffffffff#32 State.reset) = some 0x000000ff#32 ∧
    ([0x0004, 0x0008, 0x000c, 0x0024].all fun a =>
      busRead 4 a (storeWrite 4 a 0xffffffff#32 State.reset) == some 0#32) = true ∧
    busRead 4 0x0010 (storeWrite 4 0x0010 0xffffffff#32 State.reset) = some 0x00000010#32 := by decide +kernel

/-- The codes as `RES` shows them (60_exceptions.md R240). -/
theorem test_codes :
    [Code.ok, .keyError, .authError, .illegalCmd, .notKeyed, .lenError].map Code.value =
      [0x00#8, 0x01#8, 0x02#8, 0x10#8, 0x11#8, 0x12#8] := by decide

/-- A host event is answered; a bus error leaves `RES` alone (20_memory.md R70). -/
theorem test_step_bus_error :
    step (State.reset.withPending [.wr8 0x0000#16 0x10#8]) = .next (State.reset.respond .busError) := rfl

/-- Pseudo-instructions as the programs P1 and P2 expand them (30_encoding.md R100). -/
theorem test_expand :
    expand (.ldin (hex 6 0x11223344ddee)) =
      [.wr32 0x2000#16 0x11223344#32, .wr8 0x2004#16 0xdd#8, .wr8 0x2005#16 0xee#8, .wr32 0x0020#16 6#32] ∧
    expand (.ldad 0 (hex 2 0xaabb)) =
      [.wr8 0x1000#16 0xaa#8, .wr8 0x1001#16 0xbb#8, .wr32 0x0040#16 0x80000002#32] ∧
    expand (.ldadAbsent 1) = [.wr32 0x0044#16 0#32] ∧ expand (.adcnt 2) = [.wr32 0x0018#16 2#32] ∧
    expand (.ldnonce (hex 1 0xcc)) = [.wr8 0x0200#16 0xcc#8, .wr32 0x001c#16 0x80000001#32] ∧
    asmText (.xor 1 1 2) = "xor b1, b1, b2" := by decide +kernel

/-! ### Witnesses: concrete states and operands that meet the hypotheses of each statement -/

/-- The core keyed with `K1`, `K2` of 95_test_vectors.md section 2. -/
def own : State := keyed key1 key2

/-- Every length at its capacity. -/
def fullState : State :=
  (((own.withAdcnt 8#8).withAdctl 7 ⟨true, 256#16⟩).withNonceCtl ⟨true, 64#16⟩).withInLen 4112#16

theorem fullState_legal : LengthsLegal fullState := by
  refine ⟨by decide, by decide, ?_, fun _ => by decide⟩
  have h : ∀ i : Fin 8, fullState.adctl[i].len.toNat ≤ 256 := by
    have h : fullState.adctl = (Vector.replicate 8 (⟨false, 0#16⟩ : Slot)).set 7 ⟨true, 256#16⟩ := rfl
    rw [h]; decide
  exact fun i _ _ => h i

theorem reset_legal : LengthsLegal State.reset := ⟨by decide, by decide, by decide, by decide⟩
theorem own_legal : LengthsLegal own := ⟨by decide, by decide, by decide, by decide⟩

theorem witness_EncodeUndoesDecode : decode 0x00033302#32 = .ok (.xor 3 3 3) := by decide

theorem witness_LegalWordsAreTheRowsWords :
    ∃ r ∈ opRows, ∃ r' ∈ opRows, r.accepts 0x00033302#32 = true ∧ r'.accepts 0x00033302#32 = true :=
  ⟨⟨"XOR", 0x02#32, .DSS⟩, by decide, ⟨"XOR", 0x02#32, .DSS⟩, by decide, by decide, by decide⟩

theorem witness_IllegalWordsRaiseIllegalCmd :
    decode 0x00000000#32 = .error (.unassignedOpcode 0#8) ∧
    opField 0x00000100#32 = 0x00#8 ∧ opField 0x00000008#32 = 0x08#8 ∧ opField 0x0000000f#32 = 0x0F#8 ∧
    opField 0x00000013#32 = 0x13#8 ∧ opField 0x000000ff#32 = 0xFF#8 ∧
    BitVec.getLsbD 0x00000402#32 10 = true ∧ BitVec.getLsbD 0x00000802#32 11 = true ∧
    BitVec.getLsbD 0x00004002#32 14 = true ∧ BitVec.getLsbD 0x00008002#32 15 = true ∧
    BitVec.getLsbD 0x00040002#32 18 = true ∧ BitVec.getLsbD 0x80000002#32 31 = true ∧
    (opField 0x00000106#32 = 0x06#8 ∧ rdField 0x00000106#32 ≠ 0) ∧
    (opField 0x00003004#32 = 0x04#8 ∧ rs1Field 0x00003004#32 ≠ 0) ∧
    (opField 0x00030001#32 ≠ 0x02#8 ∧ rs2Field 0x00030001#32 ≠ 0) := by decide

/-- Both branches of the reduction, and the last byte the shift rule speaks of. -/
theorem witness_DblIsShiftAndReduce :
    14 < 15 ∧ (byteOf 0x80000000000000000000000000000000#128 0).getLsbD 7 = true ∧
    (byteOf 0x7fffffffffffffffffffffffffffffff#128 0).getLsbD 7 = false ∧
    2 ^ 127 ≤ (0x80000000000000000000000000000000#128).toNat := by decide +kernel

theorem witness_XorendAndPadByteForByte :
    16 ≤ (zeros 16).length ∧ (zeros 16).length = 16 ∧ 0 < (zeros 17).length - 16 ∧ 15 < 16 ∧
    (zeros 15).length < 16 ∧ ([] : Bytes).length < 16 := by decide

/-- Two seeds that differ in bit 64, which is kept, and two that differ in bit 63 alone. -/
theorem witness_CtrseedClearsTwoBits :
    15 < 16 ∧ 15 ≠ 8 ∧ 15 ≠ 12 ∧ 127 < 128 ∧ 64 ≠ 63 ∧ 64 ≠ 31 ∧
    (0#128).getLsbD 64 ≠ (1#128 <<< 64).getLsbD 64 ∧ ctrseed (1#128 <<< 63) = ctrseed 0#128 := by decide

theorem witness_S2vStepByStep : 16 ≤ (zeros 16).length ∧ (zeros 15).length < 16 := by decide

theorem witness_CtrIsItsOwnInverse : 16 < 17 ∧ 16 < (zeros 17).length := by decide

theorem witness_CounterNeverCarries : 2 ^ 31 - 1 < 2 ^ 31 := by decide

theorem witness_SealedOutputLayout : 17 < plain18.length := by decide

theorem witness_OpenAcceptsOnlySealedOutputs : aeadOpen toy key1 key2 list3 sealed34 = some plain18 := by
  decide +kernel

/-- The tag of section 3.6 with bit 7 of byte 8 flipped. -/
theorem witness_ClearedTagBitForgeryIsRejected :
    0xf51cff1b211b251e78c21c26f0caf4dc#128 ≠ s2v toy key1 list3 plain18 ∧
    ctrseed 0xf51cff1b211b251e78c21c26f0caf4dc#128 = ctrseed (s2v toy key1 list3 plain18) := by decide +kernel

theorem witness_PadCommand :
    (State.reset.withInLen 0#16).inLen.toNat < 16 ∧ (State.reset.withInLen 15#16).inLen.toNat < 16 ∧
    16 ≤ (State.reset.withInLen 16#16).inLen.toNat ∧ 16 ≤ (State.reset.withInLen 0xFFFF#16).inLen.toNat := by decide

theorem witness_XorendCommand :
    (16 ≤ (State.reset.withInLen 16#16).inLen.toNat ∧ (State.reset.withInLen 16#16).inLen.toNat ≤ 4112) ∧
    (16 ≤ (State.reset.withInLen 4112#16).inLen.toNat ∧ (State.reset.withInLen 4112#16).inLen.toNat ≤ 4112) ∧
    (State.reset.withInLen 15#16).inLen.toNat < 16 ∧ 4112 < (State.reset.withInLen 4113#16).inLen.toNat := by decide

theorem witness_CtrCommand :
    fullState.keyed = true ∧ fullState.inLen.toNat ≤ 4112 ∧ 4111 < fullState.inLen.toNat ∧
    own.keyed = true ∧ own.inLen.toNat ≤ 4112 ∧ own.inLen.toNat ≤ 0 ∧ 0 < 4128 :=
  ⟨rfl, by decide, by decide, rfl, by decide, by decide, by decide⟩

/-- Each cause of failure at its first value, and a list that is made. -/
theorem witness_ItemsSpellTheSlots :
    8 < (State.reset.withAdcnt 9#8).adcnt.toNat ∧
    ((0 : Fin 8).val < ((State.reset.withAdcnt 1#8).withAdctl 0 ⟨true, 257#16⟩).adcnt.toNat ∧
      ((State.reset.withAdcnt 1#8).withAdctl 0 ⟨true, 257#16⟩).adctl[(0 : Fin 8)] = ⟨true, 257#16⟩) ∧
    ((State.reset.withNonceCtl ⟨true, 65#16⟩).nonceCtl.present = true ∧
      64 < (State.reset.withNonceCtl ⟨true, 65#16⟩).nonceCtl.len.toNat) ∧
    items (p2State []) = some list3 := by decide +kernel

theorem witness_S2vCommand : fullState.keyed = true ∧ LengthsLegal fullState := ⟨rfl, fullState_legal⟩

theorem witness_SealCommand : own.keyed = true ∧ LengthsLegal own := ⟨rfl, own_legal⟩

/-- An input that opens on the core itself: the tag of the empty message under its own key. -/
def tagState : State := loadInput (blockBytes (s2v Config.wired key1 [.absent] [])) own

theorem tagState_input :
    Memory.readBytes tagState.mem inBase tagState.inLen.toNat =
      blockBytes (s2v Config.wired key1 [.absent] []) := by
  have h := Memory.readBytes_writeBytes own.mem inBase (blockBytes (s2v Config.wired key1 [.absent] []))
  rw [blockBytes_length] at h
  exact h

theorem tagState_legal : LengthsLegal tagState := by
  refine ⟨?_, by decide, by decide, by decide⟩
  have h : tagState.inLen.toNat = 16 := rfl
  omega

theorem tag_opens :
    aeadOpen Config.wired key1 key2 [.absent]
      (blockBytes (s2v Config.wired key1 [.absent] [])) = some [] := by
  have hc : ∀ X : Block, candidate Config.wired key2 (blockBytes X) = [] := fun X =>
    List.eq_nil_of_length_eq_zero (by rw [candidate_length, blockBytes_length])
  have ht : ∀ X : Block, (blockBytes X).take 16 = blockBytes X := fun X => List.take_of_length_le (by simp)
  simp [aeadOpen, hc, ht]

theorem witness_OpenCommandReturnsThePlaintext :
    tagState.keyed = true ∧ LengthsLegal tagState ∧ items tagState = some [.absent] ∧
    aeadOpen Config.wired tagState.k1 tagState.k2 [.absent]
      (Memory.readBytes tagState.mem inBase tagState.inLen.toNat) = some [] :=
  ⟨rfl, tagState_legal, rfl, by rw [tagState_input]; exact tag_opens⟩

/-- The same tag with one bit that `ctrseed` clears flipped, and inputs of 0 and 15 bytes. -/
theorem witness_OpenCommandRejects :
    (own.keyed = true ∧ LengthsLegal own ∧ items own = some [.absent] ∧ own.inLen.toNat < 16) ∧
    (LengthsLegal (own.withInLen 15#16) ∧ items (own.withInLen 15#16) = some [.absent] ∧
      (own.withInLen 15#16).inLen.toNat < 16) ∧
    ∀ V, V = s2v Config.wired key1 [.absent] [] →
      aeadOpen Config.wired key1 key2 [.absent] (blockBytes (V ^^^ (1#128 <<< 63))) = none := by
  refine ⟨⟨rfl, own_legal, rfl, by decide⟩,
    ⟨⟨by decide, by decide, by decide, by decide⟩, rfl, by decide⟩, ?_⟩
  rintro V rfl
  have hc : ∀ X : Block, candidate Config.wired key2 (blockBytes X) = [] := fun X =>
    List.eq_nil_of_length_eq_zero (by rw [candidate_length, blockBytes_length])
  have ht : ∀ X : Block, (blockBytes X).take 16 = blockBytes X := fun X => List.take_of_length_le (by simp)
  have hne : ∀ X : Block, X ≠ X ^^^ (1#128 <<< 63) := by
    intro X h
    have h2 := congrArg (fun Y : Block => Y.getLsbD 63) h
    simp at h2
  rw [aeadOpen, if_neg (by simp), hc, ht, blockOf_blockBytes, if_neg (hne _)]

/-- Staged key material of 32 bytes that the toy accepts, and the shortest and longest lengths; whether the algorithm of
this machine accepts is left open, and the statement says both. -/
theorem witness_NewCommandLoadsTheKeys :
    ((staged (key1 ++ key2)).kbufLen.toNat % 2 = 0 ∧ 1 ≤ (staged (key1 ++ key2)).kbufLen.toNat ∧
      (staged (key1 ++ key2)).kbufLen.toNat ≤ 64) ∧
    StagedKeysValid toy (staged (key1 ++ key2)) ∧ ¬StagedKeysValid toy (staged (key1 ++ key1 ++ key2)) ∧
    ((State.reset.withKbufLen 2#8).kbufLen.toNat % 2 = 0 ∧ 1 ≤ (State.reset.withKbufLen 2#8).kbufLen.toNat) ∧
    (State.reset.withKbufLen 64#8).kbufLen.toNat % 2 = 0 ∧ (State.reset.withKbufLen 64#8).kbufLen.toNat ≤ 64 := by
  decide +kernel

/-- Odd, empty, too long, and each half refused (the toy accepts 16 bytes only). -/
theorem witness_NewCommandRefusesBadKeys :
    (State.reset.withKbufLen 1#8).kbufLen.toNat % 2 = 1 ∧ State.reset.kbufLen.toNat = 0 ∧
    64 < (State.reset.withKbufLen 66#8).kbufLen.toNat ∧
    (toy.keyValid (Memory.readBytes State.reset.mem kbufBase (48 / 2)) = false ∧
      (State.reset.withKbufLen 48#8).kbufLen.toNat = 48) ∧
    toy.keyValid (Memory.readBytes State.reset.mem (kbufBase + 48 / 2) (48 / 2)) = false := by decide +kernel

theorem witness_RegisterCommandsFrame :
    (∀ rd rs1, ∃ t, exec (.dbl rd rs1) State.reset = .next t) ∧
    (∀ rd rs1 rs2, ∃ t, exec (.xor rd rs1 rs2) State.reset = .next t) ∧
    (∀ rd, ∃ t, exec (.pad rd) State.reset = .next t) ∧ (∀ rd rs1, ∃ t, exec (.ctrseed rd rs1) State.reset = .next t) ∧
    (∀ rd, ∃ t, exec (.s2v rd) own = .next t) ∧ destOf (.dbl 3 0) = some 3 ∧ destOf (.s2v 2) = some 2 :=
  ⟨fun _ _ => ⟨_, rfl⟩, fun _ _ _ => ⟨_, rfl⟩, fun _ => ⟨_, rfl⟩, fun _ _ => ⟨_, rfl⟩, fun _ => ⟨_, rfl⟩, rfl, rfl⟩

theorem own_seal : ∃ t, exec .sealMsg own = .next t ∧ t.res = .ok := ⟨_, rfl, rfl⟩

theorem own_open : ∃ t, exec .openMsg own = .next t ∧ t.res = .authError := ⟨_, rfl, rfl⟩

theorem witness_OutputCommandsFrame :
    (∃ t, exec (.xorend 0) (State.reset.withInLen 16#16) = .next t) ∧ (∃ t, exec (.ctr 3) own = .next t) ∧
    (∃ t, exec .sealMsg own = .next t) ∧ (∃ t, exec .openMsg own = .next t) ∧ writesOut (.ctr 3) = true :=
  ⟨⟨_, rfl⟩, ⟨_, rfl⟩, ⟨_, rfl⟩, ⟨_, rfl⟩, rfl⟩

theorem witness_CommandsKeepSlotsAndInput :
    (∃ t, runCommand 0x00000010#32 own = .next t) ∧ (∃ t, runCommand 0x00000000#32 own = .next t) ∧
    kindAt 0x17FF = some .ad ∧ kindAt 0x0200 = some .nonce ∧ kindAt 0x300F = some .inBuf :=
  ⟨⟨_, rfl⟩, ⟨_, rfl⟩, rfl, rfl, rfl⟩

theorem witness_UnkeyedCommandsRaiseNotKeyed :
    State.reset.keyed = false ∧ needsKey (.pad 0) = false ∧ ∃ t, exec (.pad 0) State.reset = .next t :=
  ⟨rfl, rfl, _, rfl⟩

/-- Each length that is too large or too small at its first value. -/
theorem witness_LenErrorTable :
    4112 < (own.withInLen 4113#16).inLen.toNat ∧ (own.withInLen 15#16).inLen.toNat < 16 ∧
    16 ≤ (own.withInLen 16#16).inLen.toNat ∧ (own.withInLen 4113#16).keyed = true ∧
    ¬LengthsLegal (own.withInLen 4113#16) ∧ ¬LengthsLegal (own.withAdcnt 9#8) ∧
    ¬LengthsLegal (own.withNonceCtl ⟨true, 65#16⟩) ∧
    ¬LengthsLegal ((own.withAdcnt 1#8).withAdctl 0 ⟨true, 257#16⟩) ∧
    (own.keyed = true ∧ LengthsLegal own ∧ own.inLen.toNat < 16) ∧
    (∃ t, exec (.dbl 0 0) own = .next t) ∧ ∃ t, exec .newKey own = .next t := by
  refine ⟨by decide, by decide, by decide, rfl, fun h => absurd h.input (by decide),
    fun h => absurd h.count (by decide), fun h => absurd (h.nonce rfl) (by decide),
    fun h => absurd (h.slots 0 (by decide) rfl) (by decide), ⟨rfl, own_legal, by decide⟩, ⟨_, rfl⟩, ⟨_, rfl⟩⟩

theorem witness_ChecksComeInOrder :
    decode 0x00000000#32 = .error (.unassignedOpcode 0#8) ∧
    (decode 0x00000012#32 = .ok .openMsg ∧ needsKey .openMsg = true ∧ State.reset.keyed = false) ∧
    ((own.withAdcnt 9#8).keyed = true ∧ ¬LengthsLegal (own.withAdcnt 9#8) ∧ (own.withAdcnt 9#8).inLen.toNat < 16) ∧
    (∃ t, exec .openMsg own = .next t) ∧ ∃ t, exec .openMsg (keyed key1 key2) = .next t :=
  ⟨by decide, ⟨by decide, rfl, rfl⟩, ⟨rfl, fun h => absurd h.count (by decide), by decide⟩, ⟨_, rfl⟩, ⟨_, rfl⟩⟩

/-- One fault of each kind: `NOT_KEYED`, `LEN_ERROR`, `KEY_ERROR`, `AUTH_ERROR`. -/
theorem witness_FaultsArePrecise :
    (∃ t, exec .sealMsg State.reset = .next t ∧ t.res ≠ .ok) ∧
    (∃ t, exec (.pad 0) (own.withInLen 16#16) = .next t ∧ t.res ≠ .ok) ∧
    (∃ t, exec .newKey own = .next t ∧ t.res ≠ .ok) ∧ ∃ t, exec .openMsg own = .next t ∧ t.res ≠ .ok :=
  ⟨⟨_, rfl, by simp⟩, ⟨_, rfl, by simp⟩, ⟨_, rfl, by simp⟩, ⟨_, rfl, by simp⟩⟩

theorem witness_FaultRepeatsUnchanged : ∃ t, exec .openMsg own = .next t ∧ t.res ≠ .ok := ⟨_, rfl, by simp⟩

/-- Two failed opens: an empty input, and one of 15 bytes. -/
theorem witness_FailedOpenDisclosesNothing :
    (∃ t, exec .openMsg own = .next t ∧ t.res = .authError) ∧
    ∃ t, exec .openMsg (own.withInLen 15#16) = .next t ∧ t.res = .authError := ⟨⟨_, rfl, rfl⟩, ⟨_, rfl, rfl⟩⟩

theorem witness_SetOutIsTheWholeOutput :
    (zeros 4128).length ≤ 4128 ∧ (own.withPending [cmdWrite 0x00000011#32]).pending = [cmdWrite 0x00000011#32] ∧
    (∃ t, step (own.withPending [cmdWrite 0x00000011#32]) = .next t) ∧ cmdWrite 0x00000011#32 ≠ .reset :=
  ⟨by rw [zeros_length], rfl, ⟨_, rfl⟩, by decide⟩

/-- A byte of `IN` beyond `INLEN.LEN`, a byte of a slot not in use and one of an absent nonce are changed. -/
theorem witness_UnusedBytesHaveNoEffect :
    ∃ s s' : State, s' ≠ s ∧ s'.adcnt = s.adcnt ∧ s'.adctl = s.adctl ∧ s'.nonceCtl = s.nonceCtl ∧ s'.inLen = s.inLen ∧
      (∀ j, j < s.inLen.toNat → Memory.read s'.mem (inBase + j) = Memory.read s.mem (inBase + j)) ∧
      (∀ (i : Fin 8) (j : Nat), i.val < s.adcnt.toNat → s.adctl[i].present = true → j < s.adctl[i].len.toNat →
        Memory.read s'.mem (adBase i.val + j) = Memory.read s.mem (adBase i.val + j)) ∧
      (s.nonceCtl.present = true → ∀ j, j < s.nonceCtl.len.toNat →
        Memory.read s'.mem (nonceBase + j) = Memory.read s.mem (nonceBase + j)) :=
  ⟨State.reset, State.reset.withMem [(0x0200, 1#8), (0x1000, 2#8), (0x2000, 3#8)], by decide, rfl, rfl, rfl, rfl,
    fun j hj => absurd hj (Nat.not_lt_zero j), fun i _ hi => absurd hi (Nat.not_lt_zero i.val), by decide⟩

/-- The first and the last byte of the longest rows, and an unmapped address on either side. -/
theorem witness_AddressMapRanges :
    kindAt 0x1FFF = none ∧ kindAt 0x2000 = some .inBuf ∧ kindAt 0x300F = some .inBuf ∧ kindAt 0x3010 = none ∧
    kindAt 0x3FFF = none ∧ kindAt 0x4000 = some .outBuf ∧ kindAt 0x501F = some .outBuf ∧ kindAt 0xFFFF = none ∧
    0xFFFF < 65536 := ⟨rfl, rfl, rfl, rfl, rfl, rfl, rfl, rfl, by decide⟩

theorem witness_AlignedAccessesDoNotStraddle : 0x0081 % 2 ≠ 0 ∧ 0x300C % 4 = 0 ∧ 3 < 4 := by decide

/-- One access for each cause, and one that is accepted. -/
theorem witness_BusErrorsAreExactlyThese :
    (accessOf (.rd16 0x0081#16) = some (2, 0x81) ∧ 0x81 % 2 ≠ 0) ∧
    (accessOf (.wr32 0x0060#16 0#32) = some (4, 0x60) ∧ kindAt 0x60 = none) ∧
    (accessOf (.wr8 0x005F#16 0#8) = some (1, 0x5F) ∧ 0x5F < 0x60 ∧ 1 ≠ 4) ∧
    (accessOf (.wr32 0x0000#16 0x00000010#32) = some (4, 0) ∧ 0 % 4 = 0 ∧ kindAt 0 = some .cmd) ∧
    (State.reset.withPending [.rd16 0x0081#16]).pending = [.rd16 0x0081#16] :=
  ⟨⟨rfl, by decide⟩, ⟨rfl, rfl⟩, ⟨rfl, by decide, by decide⟩, ⟨rfl, by decide, rfl⟩, rfl⟩

theorem witness_ReadsChangeNothing :
    (State.reset.withPending [.rd32 0x0010#16]).pending = [.rd32 0x0010#16] ∧ isRead (.rd32 0x0010#16) = true ∧
    accessOf (.rd32 0x0010#16) = some (4, 0x10) ∧ busRead 4 0x10 State.reset = some 16#32 ∧
    accessOf (.rd8 0x0010#16) = some (1, 0x10) ∧ busRead 1 0x10 State.reset = none :=
  ⟨rfl, rfl, rfl, rfl, rfl, rfl⟩

/-- The last word of `OUT`, the first one of the other buffers, the last bytes of the last block register. -/
theorem witness_ReadsChangeNothing_values :
    (accepted 4 0x501C = true ∧ kindAt 0x501C = some .outBuf) ∧ (accepted 2 0x2000 = true ∧ kindAt 0x2000 = some .inBuf) ∧
    (accepted 1 0x1000 = true ∧ kindAt 0x1000 = some .ad) ∧ (accepted 4 0x0200 = true ∧ kindAt 0x0200 = some .nonce) ∧
    (12 % 4 = 0 ∧ 12 + 4 ≤ 16 ∧ blockAddress 3 15 = 0x00BF) ∧ accepted 1 0x013F = true ∧ kindAt 0x013F = some .kbuf :=
  ⟨⟨rfl, rfl⟩, ⟨rfl, rfl⟩, ⟨rfl, rfl⟩, ⟨rfl, rfl⟩, by decide, rfl, rfl⟩

/-- Worked out from R67: `OUT` bytes 0 and 1 as a halfword, and the example of R66 read back from `B[0]`. -/
theorem test_read_values :
    busRead 2 0x4000 (setOut (hex 2 0xAABB) State.reset) = some 0xAABB#32 ∧
    busRead 4 0x0080 (State.reset.withBlock 0 0x0e04dfaf000000000000000000000000#128) = some 0x0e04dfaf#32 := by
  decide +kernel

/-- The last halfword of a written word, at the end of the block registers and of `IN`. -/
theorem witness_ReadsSeeWrittenBytes :
    (accepted 4 0x00BC = true ∧ accepted 2 0x00BE = true ∧ kindAt 0x00BC = some .blocks) ∧
    (accepted 4 0x300C = true ∧ accepted 1 0x300F = true ∧ kindAt 0x300C = some .inBuf) ∧
    0x00BE + 2 ≤ 0x00BC + 4 ∧ 0x300F + 1 ≤ 0x300C + 4 ∧ kindAt 0x0200 = some .nonce ∧ kindAt 0x1000 = some .ad ∧
    kindAt 0x300C ≠ some .blocks ∧ (15 < 16 ∧ blockAddress 3 15 < 0x00BC + 4) ∧ blockAddress 3 11 < 0x00BC :=
  ⟨⟨rfl, rfl, rfl⟩, ⟨rfl, rfl, rfl⟩, by decide, by decide, rfl, rfl, by decide, by decide, by decide⟩

theorem witness_KeyBufferHidesAndOutputIgnores :
    accepted 4 0x013C = true ∧ kindAt 0x013C = some .kbuf ∧ accepted 4 0x501C = true ∧ kindAt 0x501C = some .outBuf :=
  ⟨rfl, rfl, rfl, rfl⟩

/-- The last `ADCTL` register, and one whose other registers are framed. -/
theorem witness_ControlRegistersStoreTheirFields :
    (accepted 4 0x005C = true ∧ 0x005C < 0x60 ∧ 0x005C ≠ 0x0040 + 4 * (6 : Fin 8).val) ∧
    (accepted 4 0x0018 = true ∧ 0x0018 < 0x60 ∧ 0x0018 ≠ 0x0020) ∧
    0x0024 ∈ [0x0004, 0x0008, 0x000C, 0x0010, 0x0024] :=
  ⟨⟨rfl, by decide, by decide⟩, ⟨rfl, by decide, by decide⟩, by decide⟩

/-- Worked out from R68: a write of `ADCNT` keeps its low byte and leaves `INLEN` and `RES` alone. -/
theorem test_adcnt_write :
    (storeWrite 4 0x0018 0x00000F03#32 (own.withInLen 16#16)).adcnt = 3#8 ∧
    (storeWrite 4 0x0018 0x00000F03#32 (own.withInLen 16#16)).inLen = 16#16 ∧
    (storeWrite 4 0x0018 0x00000F03#32 (own.withRes .lenError)).res = .lenError := ⟨rfl, rfl, rfl⟩

theorem witness_ReadOnlyRegistersRead : (1 ≤ 7 ∧ 7 ≤ 7) ∧ 16 ≤ 31 := by decide

/-- Two keyed cores with other keys and other staged bytes. -/
theorem witness_KeysCannotBeRead :
    ∃ s s' : State, s'.k1 ≠ s.k1 ∧ s'.k2 ≠ s.k2 ∧ Memory.read s'.mem 0x0100 ≠ Memory.read s.mem 0x0100 ∧
      s'.keyed = s.keyed ∧ s'.klen = s.klen ∧ s'.res = s.res ∧ s'.kbufLen = s.kbufLen ∧ s'.adcnt = s.adcnt ∧
      s'.adctl = s.adctl ∧ s'.nonceCtl = s.nonceCtl ∧ s'.inLen = s.inLen ∧ s'.outLen = s.outLen ∧
      s'.blocks = s.blocks ∧ ∀ b, ¬inKbuf b → Memory.read s'.mem b = Memory.read s.mem b := by
  refine ⟨keyed key1 key2, (keyed key2 key1).withMem [(0x0100, 1#8)], by decide, by decide, by decide, rfl, rfl, rfl,
    rfl, rfl, rfl, rfl, rfl, rfl, rfl, fun b hb => ?_⟩
  have h : ¬0x0100 = b := by rintro rfl; exact hb ⟨by decide, by decide⟩
  simp [Memory.read_cons, h, keyed, State.reset]

theorem witness_OnlyNewAndResetChangeTheInstance :
    ∃ t, (own.withPending [cmdWrite 0x00000012#32]).pending = [cmdWrite 0x00000012#32] ∧
      step (own.withPending [cmdWrite 0x00000012#32]) = .next t ∧ cmdWrite 0x00000012#32 ≠ .reset ∧
      cmdWrite 0x00000012#32 ≠ cmdWrite 0x00000010#32 := ⟨_, rfl, rfl, by decide, by decide⟩

theorem witness_StepRunsTheDecodedCommand :
    (decode 0x00000004#32 = .ok (.pad 0) ∧ ∃ u, exec (.pad 0) (State.reset.withPending [.rd8 0x0004#16]) = .next u) ∧
    (State.reset.withPending [cmdWrite 0x00000004#32, .rd8 0x0004#16]).pending =
      [cmdWrite 0x00000004#32, .rd8 0x0004#16] ∧
    (State.reset.withPending [.rd8 0x0004#16]).pending = [.rd8 0x0004#16] ∧
    decode 0x00000401#32 = .error (.fixedBitSet 0x01#8) := ⟨⟨by decide, _, rfl⟩, rfl, rfl, by decide⟩

/-- An accepted write of each size outside `CMD`: the last byte of `IN`, a halfword of `NONCE`, and `RES`, which
ignores it. -/
theorem witness_StepRunsTheDecodedCommand_writes :
    (storeOf (.wr8 0x300F#16 0xDD#8) = some (1, 0x300F, 0xDD#32) ∧ accepted 1 0x300F = true ∧
      kindAt 0x300F ≠ some .cmd) ∧
    (storeOf (.wr16 0x0202#16 0xBEEF#16) = some (2, 0x0202, 0xBEEF#32) ∧ accepted 2 0x0202 = true ∧
      kindAt 0x0202 ≠ some .cmd) ∧
    (storeOf (.wr32 0x0004#16 0x01020304#32) = some (4, 0x0004, 0x01020304#32) ∧ accepted 4 0x0004 = true ∧
      kindAt 0x0004 ≠ some .cmd) ∧
    (State.reset.withPending [.wr8 0x300F#16 0xDD#8]).pending = [.wr8 0x300F#16 0xDD#8] :=
  ⟨⟨rfl, rfl, by decide⟩, ⟨rfl, rfl, by decide⟩, ⟨rfl, rfl, by decide⟩, rfl⟩

theorem witness_ResetPutsEverythingAtItsResetValue :
    (own.withPending [.reset, .rd8 0x0004#16]).pending = [.reset, .rd8 0x0004#16] ∧
    busRead 4 0x0010 State.reset = some 16#32 ∧ busRead 1 0x501F State.reset = some 0#32 := ⟨rfl, rfl, rfl⟩

theorem witness_StepNeverStops : own.pending = [] := rfl

/-- A sound keyed state of the build with the toy and a SEAL to run, and a sound state of this machine with a NEW to
run. -/
theorem witness_StepKeepsSound :
    (Sound toy (own.withPending [cmdWrite 0x00000011#32]) ∧
      ∃ t, stepWith toy (own.withPending [cmdWrite 0x00000011#32]) = .next t) ∧
    Sound Config.wired (State.reset.withPending [cmdWrite 0x00000010#32]) ∧
      ∃ t, step (State.reset.withPending [cmdWrite 0x00000010#32]) = .next t := by
  refine ⟨⟨⟨⟨Memory.wf_nil, fun c hc => nomatch hc⟩, ?_, by decide, fun i _ _ => rfl⟩, _, rfl⟩,
    ⟨⟨Memory.wf_nil, fun c hc => nomatch hc⟩, ?_, by decide, fun i _ _ => rfl⟩, _, rfl⟩ <;> decide +kernel

theorem witness_SealIsTheCompositionOfTheSmallerCommands : ∃ t, exec .sealMsg own = .next t ∧ t.res = .ok := own_seal

/-- The empty message sealed, then its sealed output as the input of the same core. -/
theorem witness_OpenAfterSealReturnsTheInput :
    ∃ t u, exec .sealMsg own = .next t ∧ t.res = .ok ∧ SameInstance own u ∧ items u = items own ∧
      input u = some (Memory.readBytes t.mem outBase t.outLen.toNat) := by
  have ht : exec .sealMsg own = .next ((setOut (aeadSeal Config.wired key1 key2 [.absent] [])
    own).withRes .ok) := rfl
  refine ⟨_, tagState, ht, rfl, ⟨rfl, rfl, rfl, rfl⟩, rfl, ?_⟩
  have hs : aeadSeal Config.wired key1 key2 [.absent] [] =
      blockBytes (s2v Config.wired key1 [.absent] []) := by simp [aeadSeal, ctrXor, xorBytes]
  rw [input_eq_some_iff, tagState_input, hs]
  refine ⟨tagState_legal.input, ?_⟩
  have h := Memory.readBytes_writeBytes (Memory.clear own.mem outBase 4128) outBase
    (blockBytes (s2v Config.wired key1 [.absent] []))
  rw [blockBytes_length] at h
  rw [State.withRes_mem, State.withRes_outLen, setOut_mem, setOut_outLen, blockBytes_length,
    show (BitVec.ofNat 16 16).toNat = 16 from rfl]
  exact h

theorem witness_CallCounts :
    ((State.reset.withKbufLen 2#8).kbufLen.toNat % 2 = 0 ∧ 1 ≤ (State.reset.withKbufLen 2#8).kbufLen.toNat ∧
      (State.reset.withKbufLen 64#8).kbufLen.toNat ≤ 64) ∧
    (own.keyed = true ∧ own.inLen.toNat ≤ 4112 ∧ items own = some [.absent] ∧ own.inLen.toNat < 16) ∧
    (16 ≤ tagState.inLen.toNat ∧ tagState.inLen.toNat ≤ 4112 ∧ items tagState = some [.absent]) :=
  ⟨by decide, ⟨rfl, by decide, rfl, by decide⟩, ⟨Nat.le_refl 16, tagState_legal.input, rfl⟩⟩

/-- Two builds that differ in `H` and in `KeyValid` but not in the one call CTR makes of them. -/
theorem witness_CommandsDependOnTheirCallsAlone :
    ∀ c ∈ calls toy (.ctr 0) (loadInput (hex 3 0x010203) (keyed key1 key2)),
      c.agrees toy { E := toy.E, H := fun _ _ => 0#128, keyValid := fun _ => false } := by
  intro c hc
  have h : c = .cipher key2 0#128 := by
    have : calls toy (.ctr 0) (loadInput (hex 3 0x010203) (keyed key1 key2)) = [.cipher key2 0#128] := by
      decide +kernel
    rw [this] at hc; simpa using hc
  subst h; rfl

/-- The same two builds, one step: the host writes a CTR to `CMD`. -/
theorem witness_CommandsDependOnTheirCallsAlone_step :
    ((own.withPending [cmdWrite 0x00001006#32]).pending = [cmdWrite 0x00001006#32] ∧
      decode 0x00001006#32 = .ok (.ctr 1) ∧ ∃ u, execWith toy (.ctr 1) (own.withPending []) = .next u) ∧
    ∀ c ∈ calls toy (.ctr 1) (own.withPending []),
      c.agrees toy { E := toy.E, H := fun _ _ => 0#128, keyValid := fun _ => false } :=
  ⟨⟨rfl, by decide, _, rfl⟩, fun _ hc => nomatch hc⟩

/-- The machine the host runs is the build `Config.wired`. -/
theorem test_core_is_the_wired_build : core = coreWith Config.wired := by
  have h : step = stepWith Config.wired := by
    funext s
    have h : exec = execWith Config.wired := by funext i s; exact exec_eq_execWith i s
    rw [step, stepWith, h]
  rw [core, coreWith, h]

/-- Program P2, `new` as a step of the build with the toy. -/
theorem test_stepWith_new :
    reportKeys (stepWith toy ((staged (key1 ++ key2)).withFetchWord 32 0x00000010)) =
      some ⟨.ok, key1, key2, 0x00001001#32, 0#8⟩ := by decide +kernel

end Sys2Proof.Tests
end

section
/-! PROOFS. The read-only registers as the host reads them (10_state.md R28 to R34, R42). -/

namespace Sys2Proof.Machine

/-- A 4-byte read in the control region is the value of the register there (20_memory.md R68). -/
theorem busRead_of_isControl {a : Nat} (hacc : accepted 4 a = true) (hc : isControl a = true) (s : State) :
    busRead 4 a s = some (controlRead a s) := by simp [busRead, hacc, hc]

/-- Every bit of `STATUS`: `KEYED` in bit 0, `KLEN` from bit 8 on, nothing else (10_state.md R29). -/
theorem getLsbD_statusWord (s : State) (k : Nat) :
    (statusWord s).getLsbD k = if k = 0 then s.keyed else decide (8 ≤ k) && s.klen.getLsbD (k - 8) := by
  have hflag : (if s.keyed then 1#32 else 0#32).getLsbD k = (s.keyed && decide (k = 0)) := by
    cases s.keyed <;> simp [BitVec.getLsbD_one]
  rw [statusWord, BitVec.getLsbD_or, hflag, BitVec.getLsbD_shiftLeft, BitVec.getLsbD_setWidth]
  by_cases h0 : k = 0
  · simp [h0]
  by_cases h32 : k < 32
  · have hk : k - 8 < 32 := by omega
    have hge : (!decide (k < 8)) = decide (8 ≤ k) := by rw [← decide_not, decide_eq_decide, Nat.not_lt]
    simp [h0, h32, hk, hge]
  · have hz : s.klen.getLsbD (k - 8) = false := BitVec.getLsbD_of_ge _ _ (by omega)
    simp [h0, h32, hz]

/-- `KLEN` is the field 15:8 of `STATUS` (10_state.md R29). -/
theorem extractLsb'_statusWord_klen (s : State) : (statusWord s).extractLsb' 8 8 = s.klen := by
  apply BitVec.eq_of_getLsbD_eq
  intro k hk
  simp [getLsbD_statusWord, hk]

/-- Bits 7:1 and 31:16 of `STATUS` are 0 (10_state.md R29). -/
theorem statusWord_reserved (s : State) {k : Nat} (hk : (1 ≤ k ∧ k ≤ 7) ∨ 16 ≤ k) :
    (statusWord s).getLsbD k = false := by
  rw [getLsbD_statusWord, if_neg (by omega)]
  rcases hk with ⟨-, h7⟩ | h16
  · have h8 : ¬8 ≤ k := by omega
    simp [h8]
  · rw [BitVec.getLsbD_of_ge _ _ (by omega), Bool.and_false]

/-- Settles O49: each register is an accepted 4-byte read of the control region, and `STATUS` is read bit by bit. -/
theorem readOnlyRegistersRead : Obligations.ReadOnlyRegistersRead := by
  refine ⟨⟨rfl, rfl, rfl, rfl, rfl, rfl⟩, fun s => ⟨?res, ⟨statusWord s, ?status, ?keyed, ?klen, ?reserved⟩,
    ?nonceSize, ?overhead, ?outLen⟩⟩
  case keyed => rw [getLsbD_statusWord, if_pos rfl]
  case klen => exact extractLsb'_statusWord_klen s
  case reserved => exact fun k hk => statusWord_reserved s hk
  all_goals exact busRead_of_isControl (by decide) (by decide) s

end Sys2Proof.Machine
end

section
/-! PROOFS. What the functions and the commands of the construction ask of the collaborators: two builds that answer
the calls alike compute the same (00_scope.md R9, 45_collaborators.md R227). -/

namespace Sys2Proof.Machine

/-! ### The calls of a command that gets to its computation -/

theorem calls_ctr (C : Collaborators) (rs1 : RegIdx) {s : State} {M : Bytes} (hk : s.keyed = true)
    (hM : input s = some M) : calls C (.ctr rs1) s = keystreamCalls s.k2 (readBlock s rs1) M.length := by
  simp [calls, hk, hM]

theorem calls_s2v (C : Collaborators) (rd : RegIdx) {s : State} {P : Bytes} {L : List Item} (hk : s.keyed = true)
    (hP : input s = some P) (hL : items s = some L) : calls C (.s2v rd) s = s2vCalls C s.k1 L P := by
  simp [calls, hk, hP, hL]

theorem calls_sealMsg (C : Collaborators) {s : State} {P : Bytes} {L : List Item} (hk : s.keyed = true)
    (hP : input s = some P) (hL : items s = some L) : calls C .sealMsg s =
      s2vCalls C s.k1 L P ++ keystreamCalls s.k2 (ctrseed (s2v C s.k1 L P)) P.length := by
  simp [calls, hk, hP, hL]

theorem calls_openMsg (C : Collaborators) {s : State} {S : Bytes} {L : List Item} (hk : s.keyed = true)
    (hS : input s = some S) (hL : items s = some L) (h16 : 16 ≤ S.length) : calls C .openMsg s =
      keystreamCalls s.k2 (ctrseed (blockOf (S.take 16))) (S.length - 16) ++
        s2vCalls C s.k1 L (candidate C s.k2 S) := by
  simp [calls, hk, hS, hL, Nat.not_lt.mpr h16]

theorem calls_newKey (C : Collaborators) {s : State} (heven : s.kbufLen.toNat % 2 ≠ 1) (hpos : s.kbufLen.toNat ≠ 0)
    (hcap : s.kbufLen.toNat ≤ 64) : calls C .newKey s =
      [.keyCheck ((stagedKey s s.kbufLen.toNat).take (s.kbufLen.toNat / 2)),
        .keyCheck ((stagedKey s s.kbufLen.toNat).drop (s.kbufLen.toNat / 2))] := by
  simp [calls, heven, hpos, Nat.not_lt.mpr hcap]

/-! ### The functions -/

section
variable {C C' : Collaborators} {K1 K2 : Bytes} {L : List Item}

/-- The fold over the items asks for the hash of the present ones alone (42_s2v.md R150, R153). -/
theorem foldl_s2vFold_congr (h : ∀ X ∈ presentItems L, C.H K1 X = C'.H K1 X) (D : Block) :
    L.foldl (s2vFold C K1) D = L.foldl (s2vFold C' K1) D := by
  induction L generalizing D with
  | nil => rfl
  | cons it L ih =>
    cases it with
    | absent => exact ih h D
    | present X =>
      have hX : s2vFold C K1 D (.present X) = s2vFold C' K1 D (.present X) := by
        simp only [s2vFold, h X (List.mem_cons_self ..)]
      rw [List.foldl_cons, List.foldl_cons, hX]
      exact ih (fun Y hY => h Y (List.mem_cons_of_mem X hY)) _

/-- `s2v` depends on the collaborators through its calls (42_s2v.md R154). -/
theorem s2v_congr {P : Bytes} (h : ∀ c ∈ s2vCalls C K1 L P, c.agrees C C') : s2v C K1 L P = s2v C' K1 L P := by
  obtain ⟨hzero, hitems, hlast⟩ : C.H K1 (zeros 16) = C'.H K1 (zeros 16) ∧
      (∀ X ∈ presentItems L, C.H K1 X = C'.H K1 X) ∧
      C.H K1 (s2vFinal (s2vAccumulator C K1 L) P) = C'.H K1 (s2vFinal (s2vAccumulator C K1 L) P) := by
    simpa [s2vCalls, Call.agrees, or_imp, forall_and] using h
  have hacc : s2vAccumulator C K1 L = s2vAccumulator C' K1 L := by
    rw [s2vAccumulator, foldl_s2vFold_congr hitems, hzero, s2vAccumulator]
  rw [s2v, hlast, hacc, s2v]

/-- `keystream` depends on the collaborators through its calls (44_aead.md R184). -/
theorem keystream_congr {Q : Block} {n : Nat} (h : ∀ c ∈ keystreamCalls K2 Q n, c.agrees C C') :
    keystream C K2 Q n = keystream C' K2 Q n := by
  have hE : ∀ i ∈ List.range ((n + 15) / 16),
      blockBytes (C.E K2 (counterBlock Q i)) = blockBytes (C'.E K2 (counterBlock Q i)) :=
    fun i hi => congrArg blockBytes (h _ (List.mem_map_of_mem hi))
  rw [keystream, List.flatMap_congr hE, keystream]

theorem ctrXor_congr {Q : Block} {M : Bytes} (h : ∀ c ∈ keystreamCalls K2 Q M.length, c.agrees C C') :
    ctrXor C K2 Q M = ctrXor C' K2 Q M := by rw [ctrXor, keystream_congr h, ctrXor]

theorem aeadSeal_congr {P : Bytes} (hs2v : ∀ c ∈ s2vCalls C K1 L P, c.agrees C C')
    (hctr : ∀ c ∈ keystreamCalls K2 (ctrseed (s2v C K1 L P)) P.length, c.agrees C C') :
    aeadSeal C K1 K2 L P = aeadSeal C' K1 K2 L P := by
  rw [aeadSeal, ctrXor_congr hctr, s2v_congr hs2v, aeadSeal]

theorem aeadOpen_of_short {S : Bytes} (h : S.length < 16) : aeadOpen C K1 K2 L S = none := by simp [aeadOpen, h]

theorem aeadOpen_congr {S : Bytes}
    (hctr : ∀ c ∈ keystreamCalls K2 (ctrseed (blockOf (S.take 16))) (S.length - 16), c.agrees C C')
    (hs2v : ∀ c ∈ s2vCalls C K1 L (candidate C K2 S), c.agrees C C') :
    aeadOpen C K1 K2 L S = aeadOpen C' K1 K2 L S := by
  have hcand : candidate C K2 S = candidate C' K2 S :=
    ctrXor_congr (by rwa [List.length_drop])
  rw [aeadOpen, s2v_congr hs2v, hcand, aeadOpen]

/-- `split` depends on the collaborators through its two key checks, which it makes of an even, non-empty key that
fits `KBUF` (44_aead.md R180). -/
theorem splitKey_congr {KM : Bytes} (h : KM.length % 2 ≠ 1 → KM.length ≠ 0 → KM.length ≤ 64 →
      C.keyValid (KM.take (KM.length / 2)) = C'.keyValid (KM.take (KM.length / 2)) ∧
      C.keyValid (KM.drop (KM.length / 2)) = C'.keyValid (KM.drop (KM.length / 2))) :
    splitKey C KM = splitKey C' KM := by
  unfold splitKey
  by_cases hodd : KM.length % 2 = 1
  · rw [if_pos hodd, if_pos hodd]
  by_cases hlen : KM.length = 0 ∨ 64 < KM.length
  · rw [if_neg hodd, if_neg hodd, if_pos hlen, if_pos hlen]
  · obtain ⟨hfirst, hsecond⟩ := h hodd (by omega) (by omega)
    rw [hfirst, hsecond]

end

/-! ### The commands -/

section
variable {C C' : Collaborators} {s : State}

theorem ctrWith_congr (rs1 : RegIdx) (h : ∀ c ∈ calls C (.ctr rs1) s, c.agrees C C') :
    ctrWith C rs1 s = ctrWith C' rs1 s := by
  unfold ctrWith
  split_ifs with hk
  · cases hM : input s with
    | none => rfl
    | some M => rw [calls_ctr C rs1 hk hM] at h; simp only [ctrXor_congr h]
  · rfl

theorem s2vWith_congr (rd : RegIdx) (h : ∀ c ∈ calls C (.s2v rd) s, c.agrees C C') :
    s2vWith C rd s = s2vWith C' rd s := by
  unfold s2vWith
  split_ifs with hk
  · cases hP : input s with
    | none => rfl
    | some P =>
      cases hL : items s with
      | none => rfl
      | some L => rw [calls_s2v C rd hk hP hL] at h; simp only [s2v_congr h]
  · rfl

theorem sealWith_congr (h : ∀ c ∈ calls C .sealMsg s, c.agrees C C') : sealWith C s = sealWith C' s := by
  unfold sealWith
  split_ifs with hk
  · cases hP : input s with
    | none => rfl
    | some P =>
      cases hL : items s with
      | none => rfl
      | some L =>
        rw [calls_sealMsg C hk hP hL, List.forall_mem_append] at h
        simp only [aeadSeal_congr h.1 h.2]
  · rfl

theorem openWith_congr (h : ∀ c ∈ calls C .openMsg s, c.agrees C C') : openWith C s = openWith C' s := by
  unfold openWith
  split_ifs with hk
  · cases hS : input s with
    | none => rfl
    | some S =>
      cases hL : items s with
      | none => rfl
      | some L =>
        by_cases hshort : S.length < 16
        · simp only [aeadOpen_of_short hshort]
        · rw [calls_openMsg C hk hS hL (by omega), List.forall_mem_append] at h
          simp only [aeadOpen_congr h.1 h.2]
  · rfl

theorem newWith_congr (h : ∀ c ∈ calls C .newKey s, c.agrees C C') : newWith C s = newWith C' s := by
  have hlen : (stagedKey s s.kbufLen.toNat).length = s.kbufLen.toNat := Memory.readBytes_length ..
  have hsplit : splitKey C (stagedKey s s.kbufLen.toNat) = splitKey C' (stagedKey s s.kbufLen.toNat) := by
    apply splitKey_congr
    rw [hlen]
    intro heven hpos hcap
    rw [calls_newKey C heven hpos hcap, List.forall_mem_cons, List.forall_mem_singleton] at h
    exact h
  rw [newWith, hsplit, newWith]

/-- What a command does depends on the collaborators through its calls alone (45_collaborators.md R227). -/
theorem execWith_congr (i : Instr) (h : ∀ c ∈ calls C i s, c.agrees C C') : execWith C i s = execWith C' i s := by
  cases i with
  | dbl | xor | xorend | pad | ctrseed => rfl
  | ctr rs1 => exact ctrWith_congr rs1 h
  | s2v rd => exact s2vWith_congr rd h
  | newKey => exact newWith_congr h
  | sealMsg => exact sealWith_congr h
  | openMsg => exact openWith_congr h

end

end Sys2Proof.Machine
end

section
/-! PROOFS. One step as a function of the meanings of the commands, and with them of the collaborators
(10_state.md R50). -/

namespace Sys2Proof.Machine

/-- `KeyValid` of this machine keeps the bounds of 45_collaborators.md R224. -/
theorem wired_legal : Config.wired.Legal := by
  intro K hK
  have hbounds : (0 < K.length ∧ K.length ≤ Config.kMax) ∧ Config.keyVerdict K = true := by
    simpa [Config.wired, Config.keyValid] using hK
  exact hbounds.1

variable {ex ex' : Meanings} {s : State}

/-- The step in which the host writes `CMD`: the word runs, and the host is answered (20_memory.md R75). -/
theorem stepBy_cmdWrite {w : Word} {rest : List HostEvent} (hp : s.pending = cmdWrite w :: rest) :
    stepBy ex s = thenRespond .writeAccepted (runCommandBy ex w (s.withPending rest)) := by
  simp only [stepBy, hp]
  rfl

/-- A bus write depends on the meanings of the commands only where it is a write of `CMD` (20_memory.md R68, R75). -/
theorem issueWriteBy_congr {n a : Nat} {v : Word}
    (h : n = 4 → a = 0 → runCommandBy ex v s = runCommandBy ex' v s) :
    issueWriteBy ex n a v s = issueWriteBy ex' n a v s := by
  unfold issueWriteBy
  split_ifs with hacc hk
  · obtain ⟨hn, ha⟩ := accepted_cmd hacc hk
    rw [h hn ha]
  · rfl
  · rfl

/-- A step depends on the meanings of the commands only where the host writes a command to `CMD`. -/
theorem stepBy_congr (h : ∀ w i rest, s.pending = cmdWrite w :: rest → decode w = .ok i →
      ex i (s.withPending rest) = ex' i (s.withPending rest)) : stepBy ex s = stepBy ex' s := by
  unfold stepBy
  cases hp : s.pending with
  | nil => rfl
  | cons e rest =>
    cases e with
    | rd8 | rd16 | rd32 | reset => rfl
    | wr8 | wr16 => exact issueWriteBy_congr fun h4 => absurd h4 (by decide)
    | wr32 a v =>
      apply issueWriteBy_congr
      intro _ ha
      have hcmd : HostEvent.wr32 a v = cmdWrite v := by rw [cmdWrite, BitVec.eq_of_toNat_eq (y := 0x0000#16) ha]
      cases hd : decode v with
      | error _ => rw [runCommandBy_of_illegal ex hd, runCommandBy_of_illegal ex' hd]
      | ok i =>
        rw [runCommandBy_of_decode ex hd, runCommandBy_of_decode ex' hd]
        exact h v i rest (by rw [hp, hcmd]) hd

/-- This machine's step is the step of the build `Config.wired`. -/
theorem step_eq_stepWith (s : State) : step s = stepWith Config.wired s :=
  stepBy_congr fun _ i rest _ _ => exec_eq_execWith i (s.withPending rest)

/-- In every build a command written to `CMD` runs as that build's command, then the host is answered. -/
theorem stepWith_cmdWrite {C : Collaborators} {u : State} {w : Word} {i : Instr} {rest : List HostEvent}
    (hd : decode w = .ok i) (hp : s.pending = cmdWrite w :: rest)
    (hu : execWith C i (s.withPending rest) = .next u) : stepWith C s = .next (u.respond .writeAccepted) := by
  rw [stepWith, stepBy_cmdWrite hp, runCommandBy_of_decode _ hd, hu, thenRespond_next]

end Sys2Proof.Machine
end

section
/-! PROOFS. The machine as a function of its collaborators (00_scope.md R9). -/

namespace Sys2Proof.Machine

/-- Settles O60: from `execWith_congr` for the commands and, through `stepBy_congr`, for the step. -/
theorem commandsDependOnTheirCallsAlone : Obligations.CommandsDependOnTheirCallsAlone :=
  ⟨exec_eq_execWith, step_eq_stepWith, wired_legal,
    fun _ _ _ _ _ _ hd hp hu => stepWith_cmdWrite hd hp hu,
    fun _ _ i _ h => execWith_congr i h,
    fun _ _ _ h => stepBy_congr fun w i rest hp hd => execWith_congr i (h w i rest hp hd)⟩

end Sys2Proof.Machine
end

section
/-! PROOFS. What each command leaves unchanged (10_state.md R20, R24), and `OUT` and `OUTLEN` as `SetOut` and a step
leave them (R46). -/

namespace Sys2Proof.Machine

/-! ### Frames of the two families -/

/-- A command with a destination register does not write `OUT` (10_state.md R20, R24). -/
theorem writesOut_of_destOf {i : Instr} {rd : RegIdx} (h : destOf i = some rd) : writesOut i = false := by
  cases i with
  | dbl | xor | pad | ctrseed | s2v => rfl
  | xorend | ctr | newKey | sealMsg | openMsg => cases h

theorem frameOfRegister_withRes (rd : RegIdx) (s : State) (c : Code) : FrameOfRegister rd s (s.withRes c) :=
  ⟨⟨rfl, rfl, rfl, rfl, rfl, rfl⟩, ⟨rfl, rfl, rfl, rfl⟩, rfl, rfl, fun _ _ => rfl, fun _ => rfl⟩

theorem frameOfRegister_withBlock (rd : RegIdx) (v : Block) (s : State) (c : Code) :
    FrameOfRegister rd s ((s.withBlock rd v).withRes c) where
  host := ⟨rfl, rfl, rfl, rfl, rfl, rfl⟩
  keys := ⟨rfl, rfl, rfl, rfl⟩
  kbufLen := rfl
  outLen := rfl
  blocks _ hj := readBlock_withBlock_other s v hj.symm
  bytes _ := rfl

/-- Settles O30: of the cases of `exec_cases` such a command takes the fault or the write of its own register. -/
theorem registerCommandsFrame : Obligations.RegisterCommandsFrame := by
  intro i rd s t hrd h
  rcases exec_cases h with ⟨c, -, rfl⟩ | ⟨rd', v, hrd', rfl⟩ | ⟨X, c, hout, -, -⟩ | ⟨rfl, -⟩ | ⟨rfl, -⟩
  · exact frameOfRegister_withRes rd s c
  · obtain rfl : rd = rd' := Option.some.inj (hrd.symm.trans hrd')
    exact frameOfRegister_withBlock rd v s .ok
  · rw [writesOut_of_destOf hrd] at hout
    contradiction
  all_goals contradiction

theorem frameOfOutput_refl (s : State) : FrameOfOutput s s :=
  ⟨⟨rfl, rfl, rfl, rfl, rfl, rfl⟩, ⟨rfl, rfl, rfl, rfl⟩, rfl, fun _ => rfl, fun _ _ => rfl⟩

/-- `RES` is no part of the frame. -/
theorem frameOfOutput_withRes {s t : State} (h : FrameOfOutput s t) (c : Code) : FrameOfOutput s (t.withRes c) :=
  { h with host := { h.host with }, keys := { h.keys with } }

/-- `SetOut` of a string that fits changes no byte outside `OUT` (10_state.md R46). -/
theorem read_setOut_outside {X : Bytes} (hX : X.length ≤ 4128) (s : State) {a : Nat} (ha : ¬inOut a) :
    Memory.read (setOut X s).mem a = Memory.read s.mem a := by
  simp only [inOut] at ha
  rw [read_setOut, dif_neg (by omega), if_neg ha]

theorem frameOfOutput_setOut {X : Bytes} (hX : X.length ≤ 4128) (s : State) : FrameOfOutput s (setOut X s) where
  host := ⟨rfl, rfl, rfl, rfl, rfl, rfl⟩
  keys := ⟨rfl, rfl, rfl, rfl⟩
  kbufLen := rfl
  blocks _ := rfl
  bytes _ ha := read_setOut_outside hX s ha

/-- Settles O31: of the cases of `exec_cases` such a command takes the fault or `SetOut`. -/
theorem outputCommandsFrame : Obligations.OutputCommandsFrame := by
  intro i s t hout h
  rcases exec_cases h with ⟨c, -, rfl⟩ | ⟨rd, v, hrd, -⟩ | ⟨X, c, -, hX, rfl⟩ | ⟨rfl, -⟩ | ⟨rfl, -⟩
  · exact frameOfOutput_withRes (frameOfOutput_refl s) c
  · rw [writesOut_of_destOf hrd] at hout
    contradiction
  · exact frameOfOutput_withRes (frameOfOutput_setOut hX s) c
  all_goals contradiction

/-! ### What holds after a step -/

/-- What a state keeps under everything a step is made of it keeps under a step. -/
theorem stepBy_induct (P : State → Prop) {ex : Meanings} {s t : State}
    (hpending : ∀ u es, P u → P (u.withPending es)) (hrespond : ∀ u r, P u → P (u.respond r))
    (hillegal : ∀ u, P u → P (u.withRes .illegalCmd)) (hcommand : ∀ i u v, P u → ex i u = .next v → P v)
    (hstore : ∀ n a v u, P u → P (storeWrite n a v u)) (hreset : ∀ u, P u → P (resetCore u))
    (hs : P s) (h : stepBy ex s = .next t) : P t := by
  rcases stepBy_cases ex h with ⟨-, rfl⟩ | ⟨e, rest, -, hcases⟩
  · exact hs
  have hs' : P (s.withPending rest) := hpending s rest hs
  rcases hcases with ⟨r, rfl⟩ | ⟨w, u, -, hu, rfl⟩ | ⟨n, a, v, rfl⟩ | ⟨-, rfl⟩
  · exact hrespond _ r hs'
  · apply hrespond
    rcases runCommandBy_cases ex w (s.withPending rest) with ⟨_, -, hrun⟩ | ⟨i, -, hrun⟩ <;> rw [hrun] at hu
    · obtain rfl : (s.withPending rest).withRes .illegalCmd = u := by simpa using hu
      exact hillegal _ hs'
    · exact hcommand i _ u hs' hu
  · exact hrespond _ _ (hstore n a v _ hs')
  · exact hreset _ hs'

/-! ### `OUT` and `OUTLEN` -/

theorem outputIs_setOut {X : Bytes} (hX : X.length ≤ 4128) (s : State) : OutputIs X (setOut X s) where
  length := by
    rw [setOut_outLen, BitVec.toNat_ofNat]
    omega
  bytes i hi := by
    rw [read_setOut, dif_pos (by omega)]
    simp
  beyond i hi hcap := by rw [read_setOut, dif_neg (by omega), if_pos (by omega)]

/-- `OUT` and `OUTLEN` are as before, or they are what `SetOut` of some string that fits leaves (10_state.md R46). -/
def OutKeptOrSet (s t : State) : Prop :=
  (t.outLen = s.outLen ∧ ∀ a, inOut a → Memory.read t.mem a = Memory.read s.mem a) ∨
  ∃ X : Bytes, X.length ≤ 4128 ∧ OutputIs X t

namespace OutKeptOrSet

theorem refl (s : State) : OutKeptOrSet s s := .inl ⟨rfl, fun _ _ => rfl⟩

/-- An update that touches neither `OUTLEN` nor a byte of memory changes nothing. -/
theorem of_eq {s t u : State} (h : OutKeptOrSet s t) (hlen : u.outLen = t.outLen) (hmem : u.mem = t.mem) :
    OutKeptOrSet s u := by
  rcases h with ⟨hl, hb⟩ | ⟨X, hX, hl, hb, hz⟩
  · exact .inl ⟨hlen.trans hl, hmem ▸ hb⟩
  · exact .inr ⟨X, hX, hlen ▸ hl, hmem ▸ hb, hmem ▸ hz⟩

theorem trans {s t u : State} (hst : OutKeptOrSet s t) (htu : OutKeptOrSet t u) : OutKeptOrSet s u := by
  rcases htu with ⟨hl, hb⟩ | hset
  · rcases hst with ⟨hl', hb'⟩ | ⟨X, hX, hlen, hbytes, hbeyond⟩
    · exact .inl ⟨hl.trans hl', fun a ha => (hb a ha).trans (hb' a ha)⟩
    · refine .inr ⟨X, hX, hl ▸ hlen, fun i hi => ?_, fun i hi hcap => ?_⟩
      · rw [hb _ ⟨by omega, by omega⟩, hbytes i hi]
      · rw [hb _ ⟨by omega, by omega⟩, hbeyond i hi hcap]
  · exact .inr hset

/-- No byte beyond `OUTLEN` comes up: both outcomes keep `OUT` zero there. -/
theorem outputSound {s t : State} (h : OutKeptOrSet s t) (hs : OutputSound s) : OutputSound t := by
  rcases h with ⟨hl, hb⟩ | ⟨X, hX, hlen, -, hbeyond⟩
  · refine ⟨hl ▸ hs.1, fun i hi hcap => ?_⟩
    rw [hb _ ⟨by omega, by omega⟩, hs.2 i (hl ▸ hi) hcap]
  · exact ⟨hlen ▸ hX, fun i hi hcap => hbeyond i (hlen ▸ hi) hcap⟩

end OutKeptOrSet

/-- `KBUF` and `OUT` share no byte, so the erasure of NEW leaves `OUT` alone. -/
theorem read_eraseInstance_out (s : State) {a : Nat} (ha : inOut a) :
    Memory.read (eraseInstance s).mem a = Memory.read s.mem a := by
  simp only [inOut, outBase] at ha
  rw [read_eraseInstance, if_neg (by simp only [kbufBase]; omega)]

/-- A command of any build keeps `OUT` and `OUTLEN`, or ends in a `SetOut`. -/
theorem execWith_outKeptOrSet {C : Collaborators} {i : Instr} {s t : State} (h : execWith C i s = .next t) :
    OutKeptOrSet s t := by
  have herase : OutKeptOrSet s (eraseInstance s) := .inl ⟨rfl, fun _ ha => read_eraseInstance_out s ha⟩
  rcases execWith_cases h with ⟨c, -, rfl⟩ | ⟨rd, v, -, rfl⟩ | ⟨X, c, -, hX, rfl⟩ | ⟨-, rfl⟩ |
    ⟨-, a, z, -, -, rfl⟩
  · exact (OutKeptOrSet.refl s).of_eq rfl rfl
  · exact (OutKeptOrSet.refl s).of_eq rfl rfl
  · have hset : OutKeptOrSet s (setOut X s) := .inr ⟨X, hX, outputIs_setOut hX s⟩
    exact hset.of_eq rfl rfl
  · exact herase.of_eq rfl rfl
  · exact herase.of_eq rfl rfl

/-- Reset leaves `OUT` as `SetOut` of the empty string does (10_state.md R48). -/
theorem outputIs_resetCore (s : State) : OutputIs [] (resetCore s) :=
  ⟨rfl, fun _ hi => absurd hi (Nat.not_lt_zero _), fun _ _ _ => rfl⟩

/-- A step of any build keeps `OUT` and `OUTLEN`, or leaves what `SetOut` of some string does. -/
theorem stepWith_outKeptOrSet {C : Collaborators} {s t : State} (h : stepWith C s = .next t) : OutKeptOrSet s t := by
  refine stepBy_induct (OutKeptOrSet s) (ex := execWith C) (fun _ _ hu => hu.of_eq rfl rfl)
    (fun _ _ hu => hu.of_eq rfl rfl) (fun _ hu => hu.of_eq rfl rfl)
    (fun _ _ _ hu hv => hu.trans (execWith_outKeptOrSet hv)) (fun n a v u hu => ?store) (fun u _ => ?reset)
    (.refl s) h
  case store =>
    obtain ⟨-, -, hlen, -, -⟩ := storeWrite_frame n a v u
    exact hu.trans (.inl ⟨hlen, fun o ho => storeWrite_out n a v u o ho⟩)
  case reset => exact .inr ⟨[], Nat.zero_le _, outputIs_resetCore u⟩

/-- Settles O40: `SetOut` byte by byte from `read_setOut`, and the step from the cases it can take. -/
theorem setOutIsTheWholeOutput : Obligations.SetOutIsTheWholeOutput :=
  ⟨fun _ s hX => ⟨outputIs_setOut hX s, frameOfOutput_setOut hX s, rfl⟩,
    fun s _ _ _ _ h _ => stepWith_outKeptOrSet (step_eq_stepWith s ▸ h)⟩

end Sys2Proof.Machine
end

section
/-! PROOFS. The operands a command takes: `Items()` and `Input()` (10_state.md R37, R39, R44, R45). -/

namespace Sys2Proof.Machine

/-- A list of items is collected exactly when none is missing. -/
theorem collect_eq_some_iff (os : List (Option Item)) (L : List Item) : collect os = some L ↔ os = L.map some := by
  induction os generalizing L with
  | nil => cases L <;> simp [collect]
  | cons o os ih =>
    cases o with
    | none => cases L <;> simp [collect]
    | some it =>
      cases L with
      | nil => cases hc : collect os <;> simp [collect, hc]
      | cons it' L =>
        rw [List.map_cons, List.cons.injEq, ← ih L]
        cases hc : collect os <;> simp [collect, hc]

/-- Where the item of a slot stands in a collected list, the list has what the slot spells (10_state.md R44). -/
theorem getElem?_of_slotItem {os : List (Option Item)} {L : List Item} (hmap : os = L.map some) {k : Nat}
    {m : List Host.Cell} {c : Slot} {cap base : Nat} (h : os[k]? = some (slotItem m c cap base)) :
    L[k]? = some (if c.present then .present (Memory.readBytes m base c.len.toNat) else .absent) := by
  rw [hmap, List.getElem?_map] at h
  obtain ⟨it, hit, hspell⟩ := Option.map_eq_some_iff.mp h
  rw [hit]
  unfold slotItem at hspell
  split_ifs at hspell ⊢ <;> exact hspell

theorem slotOrder_eq_finRange : slotOrder = List.finRange 8 := by decide

/-- The slots in use are those below the count (10_state.md R35, R44). -/
theorem lt_of_mem_take_slotOrder {n : Nat} {i : Fin 8} (h : i ∈ slotOrder.take n) : i.val < n := by
  rw [slotOrder_eq_finRange] at h
  obtain ⟨k, hk, rfl⟩ := List.mem_take_iff_getElem.mp h
  rw [List.getElem_finRange]
  exact lt_of_lt_of_le hk (Nat.min_le_left ..)

theorem getElem?_take_slotOrder {n : Nat} {i : Fin 8} (hi : i.val < n) : (slotOrder.take n)[i.val]? = some i := by
  simp [slotOrder_eq_finRange, hi]

theorem items_eq_some_iff (s : State) (L : List Item) : items s = some L ↔
    s.adcnt.toNat ≤ 8 ∧ (slotOrder.take s.adcnt.toNat).map (adItem s) ++ [nonceItem s] = L.map some := by
  unfold items
  split_ifs with h
  · exact iff_of_false (by simp) fun hle => absurd hle.1 (Nat.not_le.mpr h)
  · rw [collect_eq_some_iff, and_iff_right (Nat.not_lt.mp h)]

/-- Settles O23: the collected list has a slot's item at each index below the count, and the nonce's at the count. -/
theorem itemsSpellTheSlots : Obligations.ItemsSpellTheSlots := by
  intro s
  refine ⟨items_eq_none_iff s, fun L hL => ?_⟩
  obtain ⟨hcount, hmap⟩ := (items_eq_some_iff s L).mp hL
  have hlen : ((slotOrder.take s.adcnt.toNat).map (adItem s)).length = s.adcnt.toNat := by
    rw [List.length_map, List.length_take]
    exact Nat.min_eq_left hcount
  refine ⟨?length, fun i hi => getElem?_of_slotItem (cap := 256) hmap ?slot,
    getElem?_of_slotItem (cap := 64) hmap ?nonce⟩
  case length => rw [← List.length_map (f := some), ← hmap, List.length_append, hlen, List.length_singleton]
  case slot =>
    rw [List.getElem?_append_left (hlen.symm ▸ hi), List.getElem?_map, getElem?_take_slotOrder hi]
    rfl
  case nonce =>
    rw [List.getElem?_append_right hlen.le, hlen, Nat.sub_self]
    rfl

/-- A slot spells the same item where the bytes in use agree (10_state.md R37, R39). -/
theorem slotItem_congr {m m' : List Host.Cell} {c : Slot} (cap : Nat) {base : Nat}
    (h : c.present = true → ∀ j, j < c.len.toNat → Memory.read m' (base + j) = Memory.read m (base + j)) :
    slotItem m' c cap base = slotItem m c cap base := by
  unfold slotItem
  split_ifs with hp
  · rfl
  · rw [Memory.readBytes_congr (h hp)]
  · rfl

/-- Settles O41: `Input()` and each item in use read only the bytes on which the two states agree. -/
theorem unusedBytesHaveNoEffect : Obligations.UnusedBytesHaveNoEffect := by
  intro s s' hcnt hctl hnonceCtl hinLen hin had hnonce
  have hnonceItem : nonceItem s' = nonceItem s := by
    unfold nonceItem
    rw [hnonceCtl]
    exact slotItem_congr _ hnonce
  have hadItem : ∀ i ∈ slotOrder.take s.adcnt.toNat, adItem s' i = adItem s i := by
    intro i hi
    unfold adItem
    rw [hctl]
    exact slotItem_congr _ fun hp j => had i j (lt_of_mem_take_slotOrder hi) hp
  constructor
  · unfold input
    rw [hinLen, Memory.readBytes_congr hin]
  · unfold items
    rw [hcnt, hnonceItem, List.map_congr_left hadItem]

end Sys2Proof.Machine
end

section
/-! PROOFS. Reset (10_state.md R48; 70_reset_and_hazards.md R270), and that every step of every build keeps the state
sound (10_state.md R20, R29, R32, R42, R46). -/

namespace Sys2Proof.Machine

/-! ### Reset and what the window reads after it -/

/-- Where `OVERHEAD` stands (20_memory.md R61). -/
theorem kindAt_eq_overhead_iff (a : Nat) : kindAt a = some .overhead ↔ 0x10 ≤ a ∧ a < 0x14 := by
  by_cases h : a < 0x28
  · interval_cases a <;> decide
  · rw [kindAt_eq, if_neg h]
    split_ifs <;> simp <;> omega

/-- After reset every control register reads 0, but `OVERHEAD` (10_state.md R48). -/
theorem controlRead_reset (a : Nat) :
    controlRead a State.reset = if kindAt a = some .overhead then 16#32 else 0#32 := by
  unfold controlRead
  split
  case h_11 h =>
    have hslot : State.reset.adctl[adctlIndex a] = ⟨false, 0#16⟩ := Vector.getElem_replicate _
    rw [hslot, h]
    rfl
  all_goals
    next h =>
      rw [h]
      rfl

theorem byteRead_reset (a : Nat) : byteRead State.reset a = 0x00#8 := by
  unfold byteRead
  split
  · have hblock : State.reset.blocks[blockIndex a] = 0#128 := Vector.getElem_replicate _
    rw [hblock, byteOf, BitVec.extractLsb'_zero]
  all_goals rfl

theorem wordOf_zeros (n : Nat) : wordOf (zeros n) = 0#32 := by
  induction n with
  | zero => rfl
  | succ n ih =>
    rw [zeros, List.replicate_succ', ← zeros, wordOf_append_singleton, ih]
    rfl

/-- After reset every accepted read answers 0, but that of `OVERHEAD` (10_state.md R48). -/
theorem busRead_reset {n a : Nat} {v : Word} (h : busRead n a State.reset = some v) :
    v = if a = 0x0010 then 16#32 else 0#32 := by
  unfold busRead at h
  split_ifs at h with hacc hc <;> obtain rfl := Option.some.inj h
  · obtain ⟨hmod, -, hn⟩ := (accepted_iff n a).mp hacc
    simp only [isControl, decide_eq_true_eq] at hc
    obtain rfl : n = 4 := by omega
    have hiff : kindAt a = some .overhead ↔ a = 0x10 := by
      rw [kindAt_eq_overhead_iff]
      omega
    simp only [controlRead_reset, hiff]
  · have hne : a ≠ 0x10 := by rintro rfl; exact hc rfl
    simp only [byteRead_reset, if_neg hne, List.map_const', List.length_range]
    exact wordOf_zeros n

/-- Settles O53: the step by its branch for a reset, what the window reads from `busRead_reset`. -/
theorem resetPutsEverythingAtItsResetValue : Obligations.ResetPutsEverythingAtItsResetValue := by
  refine ⟨fun s rest hp => ⟨resetCore (s.withPending rest), ?step, rfl, rfl⟩, rfl, rfl, rfl, rfl, fun _ => rfl,
    fun _ _ _ h => busRead_reset h⟩
  case step => simp only [step, stepBy, hp, deliverBy]

/-! ### Soundness -/

/-- Settles O55: no byte is listed, there is no key, and `OUTLEN` is 0. -/
theorem resetIsSound : Obligations.ResetIsSound := fun _ =>
  ⟨⟨Memory.wf_nil, by decide⟩, ⟨rfl, rfl, rfl⟩, ⟨Nat.zero_le _, fun _ _ _ => rfl⟩⟩

theorem memorySound_setOut {X : Bytes} (hX : X.length ≤ 4128) {s : State} (hs : MemorySound s) :
    MemorySound (setOut X s) := by
  obtain ⟨hwf, hbuf⟩ := hs
  refine ⟨setOut_memWf X hwf, fun c hc => ?_⟩
  rcases Memory.mem_writeBytes hc with hc | hc
  · exact isBuffer_of_inOut ⟨hc.1, by omega⟩
  · exact hbuf c (Memory.mem_clear hc)

theorem memorySound_eraseInstance {s : State} (hs : MemorySound s) : MemorySound (eraseInstance s) := by
  obtain ⟨hwf, hbuf⟩ := hs
  exact ⟨eraseInstance_memWf hwf, fun c hc => hbuf c (Memory.mem_clear hc)⟩

/-- A command of any build keeps memory canonical and lists bytes of buffers only. -/
theorem execWith_memorySound {C : Collaborators} {i : Instr} {s t : State} (hs : MemorySound s)
    (h : execWith C i s = .next t) : MemorySound t := by
  rcases execWith_cases h with ⟨c, -, rfl⟩ | ⟨rd, v, -, rfl⟩ | ⟨X, c, -, hX, rfl⟩ | ⟨-, rfl⟩ |
    ⟨-, a, z, -, -, rfl⟩
  · exact hs
  · exact hs
  · exact memorySound_setOut hX hs
  · exact memorySound_eraseInstance hs
  · exact memorySound_eraseInstance hs

/-- What `split` accepts is a sound pair of keys of half the staged length (44_aead.md R180, R188). -/
theorem keysSound_loadInstance {C : Collaborators} {KM a z : Bytes} (h : splitKey C KM = some (a, z)) (s : State) :
    KeysSound C (loadInstance a z (KM.length / 2) s) := by
  obtain ⟨heven, hpos, hcap, rfl, rfl, ha, hz⟩ := (splitKey_eq_some_iff C KM a z).mp h
  have hklen : (BitVec.ofNat 8 (KM.length / 2)).toNat = KM.length / 2 := by
    rw [BitVec.toNat_ofNat]; omega
  simp only [KeysSound, loadInstance, State.withInstance_keyed, State.withInstance_k1, State.withInstance_k2,
    State.withInstance_klen, if_true, hklen, List.length_take, List.length_drop]
  exact ⟨by omega, by omega, by omega, by omega, ha, hz⟩

/-- A command of any build leaves the keys alone, or it is NEW, which erases them and may load a valid pair. -/
theorem execWith_keysSound {C : Collaborators} {i : Instr} {s t : State} (hs : KeysSound C s)
    (h : execWith C i s = .next t) : KeysSound C t := by
  rcases execWith_cases h with ⟨c, -, rfl⟩ | ⟨rd, v, -, rfl⟩ | ⟨X, c, -, -, rfl⟩ | ⟨-, rfl⟩ |
    ⟨-, a, z, -, hsplit, rfl⟩
  · exact hs
  · exact hs
  · exact hs
  · exact ⟨rfl, rfl, rfl⟩
  · have hload := keysSound_loadInstance hsplit (eraseInstance s)
    rwa [stagedKey, Memory.readBytes_length] at hload

theorem storeWrite_keysSound {C : Collaborators} (n a : Nat) (v : Word) {s : State} (hs : KeysSound C s) :
    KeysSound C (storeWrite n a v s) := by
  obtain ⟨⟨hk1, hk2, hkeyed, hklen⟩, -⟩ := storeWrite_frame n a v s
  rwa [KeysSound, hk1, hk2, hkeyed, hklen]

/-- A step of any build keeps the state sound. -/
theorem stepWith_sound {C : Collaborators} {s t : State} (hs : Sound C s) (h : stepWith C s = .next t) :
    Sound C t := by
  have hkept : MemorySound t ∧ KeysSound C t :=
    stepBy_induct (fun u => MemorySound u ∧ KeysSound C u) (fun _ _ hu => hu) (fun _ _ hu => hu) (fun _ hu => hu)
      (fun _ _ _ ⟨hm, hk⟩ hv => ⟨execWith_memorySound hm hv, execWith_keysSound hk hv⟩)
      (fun n a v _ ⟨hm, hk⟩ => ⟨storeWrite_memorySound n a v hm, storeWrite_keysSound n a v hk⟩)
      (fun _ _ => ⟨(resetIsSound C).memory, (resetIsSound C).keys⟩) ⟨hs.memory, hs.keys⟩ h
  exact ⟨hkept.1, hkept.2, (stepWith_outKeptOrSet h).outputSound hs.output⟩

/-- Settles O56: `stepWith_sound` for every build, of which this machine is one. -/
theorem stepKeepsSound : Obligations.StepKeepsSound :=
  ⟨fun s _ hs h => stepWith_sound hs (step_eq_stepWith s ▸ h), fun _ _ _ hs h => stepWith_sound hs h⟩

end Sys2Proof.Machine
end

section
/-! PROOFS. The address map: the range of each region, and aligned accesses (20_memory.md R61, R69). -/

namespace Sys2Proof.Machine

/-! ### The rows of the map -/

/-- The rows are disjoint, and no two bear the same kind (20_memory.md R61). -/
theorem addressMap_disjoint : ∀ r ∈ addressMap, ∀ r' ∈ addressMap, r = r' ∨
    (r.kind ≠ r'.kind ∧ (r.first + r.size ≤ r'.first ∨ r'.first + r'.size ≤ r.first)) := by decide

/-- Every row starts at a multiple of 4 and has such a size (20_memory.md R69). -/
theorem addressMap_aligned : ∀ r ∈ addressMap, r.first % 4 = 0 ∧ r.size % 4 = 0 := by decide

theorem contains_iff (r : Region) (a : Nat) : r.contains a = true ↔ r.first ≤ a ∧ a < r.first + r.size := by
  simp [Region.contains]

theorem row_of_regionAt {a : Nat} {r : Region} (h : regionAt a = some r) :
    r ∈ addressMap ∧ r.first ≤ a ∧ a < r.first + r.size := by
  unfold regionAt at h
  have hin := List.find?_some h
  exact ⟨List.mem_of_find?_eq_some h, (contains_iff r a).mp hin⟩

/-- The region of an address is the row that contains it. -/
theorem regionAt_eq_some_iff (a : Nat) (r : Region) :
    regionAt a = some r ↔ r ∈ addressMap ∧ r.first ≤ a ∧ a < r.first + r.size := by
  refine ⟨row_of_regionAt, fun ⟨hr, hin⟩ => ?_⟩
  obtain ⟨r', hfound⟩ : ∃ r', regionAt a = some r' :=
    Option.isSome_iff_exists.mp (List.find?_isSome.mpr ⟨r, hr, (contains_iff r a).mpr hin⟩)
  obtain ⟨hr', hin'⟩ := row_of_regionAt hfound
  rcases addressMap_disjoint r hr r' hr' with rfl | ⟨-, happart⟩
  · exact hfound
  · omega

/-- The addresses of a row's kind are the row's (20_memory.md R61). -/
theorem kindAt_eq_kind_iff {r : Region} (hr : r ∈ addressMap) (a : Nat) :
    kindAt a = some r.kind ↔ r.first ≤ a ∧ a < r.first + r.size := by
  simp only [kindAt, Option.map_eq_some_iff, regionAt_eq_some_iff]
  constructor
  · rintro ⟨r', ⟨hr', hin⟩, hkind⟩
    rcases addressMap_disjoint r hr r' hr' with rfl | ⟨hne, -⟩
    · exact hin
    · exact absurd hkind.symm hne
  · exact fun hin => ⟨r, ⟨hr, hin⟩, rfl⟩

/-- The unmapped addresses are in no row (20_memory.md R61). -/
theorem kindAt_eq_none_iff (a : Nat) :
    kindAt a = none ↔ ∀ r ∈ addressMap, ¬(r.first ≤ a ∧ a < r.first + r.size) := by
  simp only [kindAt, Option.map_eq_none_iff, regionAt, List.find?_eq_none, contains_iff]

/-- Settles O42: each kind has the range of its row, and the unmapped addresses are what the rows leave. -/
theorem addressMapRanges : Obligations.AddressMapRanges := by
  intro a ha
  constructor
  · rw [kindAt_eq_none_iff]
    simp only [addressMap, List.forall_mem_cons, List.not_mem_nil, false_imp_iff, implies_true, and_true]
    omega
  · have hrows : ∀ r ∈ addressMap, (kindAt a = some r.kind ↔ r.first ≤ a ∧ a < r.first + r.size) :=
      fun r hr => kindAt_eq_kind_iff hr a
    simpa [addressMap, Nat.lt_succ_iff] using hrows

/-! ### Aligned accesses -/

section
variable {n a : Nat} (hn : n = 1 ∨ n = 2 ∨ n = 4) (hal : a % n = 0)
include hn hal

/-- The bytes of an aligned access lie in the region of its address (20_memory.md R69). -/
theorem regionAt_add {j : Nat} (hj : j < n) : regionAt (a + j) = regionAt a := by
  refine List.find?_congr fun r hr => ?_
  obtain ⟨hfirst, hsize⟩ := addressMap_aligned r hr
  rw [Bool.eq_iff_iff, contains_iff, contains_iff]
  rcases hn with rfl | rfl | rfl <;> omega

theorem kindAt_add {j : Nat} (hj : j < n) : kindAt (a + j) = kindAt a := by
  rw [kindAt, regionAt_add hn hal hj, kindAt]

end

/-- Settles O43: a misaligned access fails the first condition of `accepted`, an aligned one is `regionAt_add`. -/
theorem alignedAccessesDoNotStraddle : Obligations.AlignedAccessesDoNotStraddle := by
  refine ⟨addressMap_aligned, fun n a hn => ⟨fun hmis => ?_, fun hal j hj => regionAt_add hn hal hj⟩⟩
  rw [← Bool.not_eq_true, accepted_iff]
  exact fun hacc => hmis hacc.1

end Sys2Proof.Machine
end

section
/-! PROOFS. One bus access as a step: the answer it gets, and a store or a command it makes (20_memory.md R65 to R71,
R75). -/

namespace Sys2Proof.Machine

/-! ### Events as accesses -/

section
variable {ex : Meanings} {e : HostEvent} {n a : Nat} {v : Word}

theorem stepBy_of_pending {s : State} {rest : List HostEvent} (hp : s.pending = e :: rest) :
    stepBy ex s = deliverBy ex e (s.withPending rest) := by rw [stepBy, hp]

theorem deliverBy_of_isRead (hr : isRead e = true) (h : accessOf e = some (n, a)) (s : State) :
    deliverBy ex e s = issueRead n a s := by
  cases e with
  | rd8 | rd16 | rd32 =>
    obtain ⟨rfl, rfl⟩ := Prod.mk.inj (Option.some.inj h)
    rfl
  | wr8 | wr16 | wr32 | reset => cases hr

theorem deliverBy_of_storeOf (h : storeOf e = some (n, a, v)) (s : State) :
    deliverBy ex e s = issueWriteBy ex n a v s := by
  cases e with
  | rd8 | rd16 | rd32 | reset => cases h
  | wr8 | wr16 | wr32 =>
    obtain ⟨rfl, rfl, rfl⟩ : _ ∧ _ ∧ _ := by simpa [storeOf] using h
    rfl

/-- An access is a read or a store (20_memory.md R65). -/
theorem isRead_or_storeOf (h : accessOf e = some (n, a)) : isRead e = true ∨ ∃ v, storeOf e = some (n, a, v) := by
  cases e with
  | rd8 | rd16 | rd32 => exact .inl rfl
  | wr8 a v | wr16 a v =>
    obtain ⟨rfl, rfl⟩ := Prod.mk.inj (Option.some.inj h)
    exact .inr ⟨v.setWidth 32, rfl⟩
  | wr32 a v =>
    obtain ⟨rfl, rfl⟩ := Prod.mk.inj (Option.some.inj h)
    exact .inr ⟨v, rfl⟩
  | reset => cases h

end

/-! ### The answer of a read -/

/-- The answer to a read: the value the bus gives, or a bus error (20_memory.md R67, R70). -/
def readAnswer : Option Word → Response
  | some v => .readValue v
  | none => .busError

theorem readAnswer_eq_readValue_iff (o : Option Word) (v : Word) : readAnswer o = .readValue v ↔ o = some v := by
  cases o <;> simp [readAnswer]

theorem readAnswer_eq_busError_iff (o : Option Word) : readAnswer o = .busError ↔ o = none := by
  cases o <;> simp [readAnswer]

theorem issueRead_eq (n a : Nat) (s : State) :
    issueRead n a s = .next (s.respond (readAnswer (busRead n a s))) := by
  unfold issueRead
  cases busRead n a s <;> rfl

/-- The bus reads nothing of the host's two lists. -/
theorem busRead_respond_withPending (n a : Nat) (s : State) (es : List HostEvent) (r : Response) :
    busRead n a ((s.withPending es).respond r) = busRead n a s := rfl

theorem busRead_withPending (n a : Nat) (s : State) (es : List HostEvent) :
    busRead n a (s.withPending es) = busRead n a s := rfl

theorem busRead_eq_none_iff (n a : Nat) (s : State) : busRead n a s = none ↔ ¬accepted n a = true := by
  simp [busRead]

/-! ### Bus errors -/

/-- Two answered states can be equal only if the answers are. -/
theorem respond_answer_inj {s t : State} {r r' : Response} (h : s.respond r = t.respond r') : r = r' := by
  have hlists : s.responses ++ [r] = t.responses ++ [r'] := congrArg State.responses h
  exact (List.append_singleton_inj.mp hlists).2

/-- A read is answered with a bus error exactly when it is not accepted (20_memory.md R70). -/
theorem issueRead_busError_iff (n a : Nat) (s : State) :
    issueRead n a s = .next (s.respond .busError) ↔ ¬accepted n a = true := by
  rw [issueRead_eq, Host.Outcome.next.injEq, ← busRead_eq_none_iff n a s, ← readAnswer_eq_busError_iff]
  exact ⟨respond_answer_inj, fun h => by rw [h]⟩

/-- A write is answered with a bus error, and changes nothing, exactly when it is not accepted (20_memory.md R70): an
accepted one, a command too, is answered `writeAccepted`. -/
theorem issueWriteBy_busError_iff (ex : Meanings) (n a : Nat) (v : Word) (s : State) :
    issueWriteBy ex n a v s = .next (s.respond .busError) ↔ ¬accepted n a = true := by
  rcases issueWriteBy_cases ex n a v s with ⟨hrej, h⟩ | ⟨hacc, -, h⟩ | ⟨hacc, -, h⟩
  · simp [hrej, h]
  · rw [h]
    refine iff_of_false (fun herr => ?_) (not_not_intro hacc)
    obtain ⟨u, -, hu⟩ := thenRespond_eq_next herr
    exact absurd (respond_answer_inj hu) (by decide)
  · rw [h, Host.Outcome.next.injEq]
    exact iff_of_false (fun herr => absurd (respond_answer_inj herr) (by decide)) (not_not_intro hacc)

/-- Settles O44: a read and a write are answered with a bus error exactly when `accepted` fails. -/
theorem busErrorsAreExactlyThese : Obligations.BusErrorsAreExactlyThese := by
  intro s e rest n a hp hacc
  have hcauses : (a % n ≠ 0 ∨ kindAt a = none ∨ (a < 0x60 ∧ n ≠ 4)) ↔ ¬accepted n a = true := by
    rw [accepted_iff, not_and_or, not_and_or, not_or, Nat.not_le, not_not]
  rw [hcauses, step, stepBy_of_pending hp]
  rcases isRead_or_storeOf hacc with hr | ⟨v, hv⟩
  · rw [deliverBy_of_isRead hr hacc]
    exact issueRead_busError_iff n a _
  · rw [deliverBy_of_storeOf hv]
    exact issueWriteBy_busError_iff exec n a v _

/-! ### Commands and stores -/

theorem tableWord_toNat (w : Word) : tableWord 32 w.toNat = w := by
  rw [tableWord, Nat.mod_eq_of_lt w.isLt, BitVec.ofNat_toNat, BitVec.setWidth_eq]

/-- The step of this machine in which the host writes a command to `CMD` (20_memory.md R75). -/
theorem step_cmdWrite {s u : State} {w : Word} {i : Instr} {rest : List HostEvent} (hd : decode w = .ok i)
    (hu : exec i (s.withPending rest) = .next u) (hp : s.pending = cmdWrite w :: rest) :
    step s = .next (u.respond .writeAccepted) := by
  rw [step, stepBy_cmdWrite hp, runCommandBy_of_decode exec hd, hu, thenRespond_next]

/-- Settles O52: the write of `CMD` by the word's decoding, `withFetchWord` as such a write, and a store by the branch
of `issueWriteBy` it takes. -/
theorem stepRunsTheDecodedCommand : Obligations.StepRunsTheDecodedCommand := by
  refine ⟨fun s u w i rest hd hu => ⟨fun hp => step_cmdWrite hd hu hp, fun hp => ?fetch⟩, rfl,
    fun s w e rest hd hp => ?illegal, fun s e rest n a v hp hst hacc hk => ?store⟩
  case fetch =>
    have hpending : (s.withFetchWord 32 w.toNat).pending = cmdWrite w :: rest := by
      rw [State.withFetchWord, State.withPending_pending, tableWord_toNat, hp]
    exact step_cmdWrite hd hu hpending
  case illegal => rw [step, stepBy_cmdWrite hp, runCommandBy_of_illegal exec hd, thenRespond_next]
  case store =>
    rw [step, stepBy_of_pending hp, deliverBy_of_storeOf hst, issueWriteBy, if_pos hacc, if_neg hk]

end Sys2Proof.Machine
end

section
/-! PROOFS. What a read of a buffer or a block register returns (20_memory.md R62, R63, R67). -/

namespace Sys2Proof.Machine

/-- Blocks and buffers stand outside the control region: so do all rows of the kinds `l` (20_memory.md R61). -/
theorem not_control_of_kindAt {a : Nat} {l : List (Option Kind)} (hk : kindAt a ∈ l)
    (hl : none ∉ l ∧ ∀ r ∈ addressMap, some r.kind ∈ l → 0x60 ≤ r.first) : 0x60 ≤ a := by
  obtain ⟨hnone, hrows⟩ := hl
  cases hreg : regionAt a with
  | none => exact absurd (by rwa [kindAt, hreg] at hk) hnone
  | some r =>
    obtain ⟨hr, hfirst, -⟩ := row_of_regionAt hreg
    exact (hrows r hr (by rwa [kindAt, hreg] at hk)).trans hfirst

/-- An accepted access outside the control region reads its bytes, the first most significant (20_memory.md R67). -/
theorem busRead_eq_wordOf {n a : Nat} (hacc : accepted n a = true) (h60 : 0x60 ≤ a) {s : State} {f : Nat → Byte}
    (hf : ∀ j, j < n → byteRead s (a + j) = f j) : busRead n a s = some (wordOf ((List.range n).map f)) := by
  have hc : ¬isControl a = true := by simp [isControl, h60]
  have hbytes : (List.range n).map (fun j => byteRead s (a + j)) = (List.range n).map f :=
    List.map_congr_left fun j hj => hf j (List.mem_range.mp hj)
  rw [busRead, if_pos hacc, if_neg hc, hbytes]

theorem blockAddress_add (r : RegIdx) (i j : Nat) : blockAddress r i + j = blockAddress r (i + j) :=
  Nat.add_assoc ..

theorem not_control_blockAddress (r : RegIdx) (i : Nat) : 0x60 ≤ blockAddress r i := by
  simp only [blockAddress]
  omega

theorem kindAt_blockAddress (r : RegIdx) {i : Nat} (hi : i < 16) : kindAt (blockAddress r i) = some .blocks :=
  (kindAt_eq_blocks_iff _).mpr (by simp only [blockAddress]; omega)

/-- An aligned access to a block register's bytes is accepted (20_memory.md R62, R70). -/
theorem accepted_blockAddress {n : Nat} (hn : n = 1 ∨ n = 2 ∨ n = 4) (r : RegIdx) {i : Nat} (hal : i % n = 0)
    (hi : i < 16) : accepted n (blockAddress r i) = true := by
  rw [accepted_iff, kindAt_blockAddress r hi]
  refine ⟨?_, by simp, .inl (not_control_blockAddress r i)⟩
  simp only [blockAddress]
  rcases hn with rfl | rfl | rfl <;> omega

/-- Every access to `KBUF` reads 0 (20_memory.md R67). -/
theorem busRead_kbuf {n a : Nat} (hn : n = 1 ∨ n = 2 ∨ n = 4) (hacc : accepted n a = true)
    (hk : kindAt a = some .kbuf) (s : State) : busRead n a s = some 0#32 := by
  have hal := ((accepted_iff n a).mp hacc).1
  have hzero : ∀ j, j < n → byteRead s (a + j) = 0x00#8 := by
    intro j hj
    rw [byteRead, kindAt_add hn hal hj, hk]
  rw [busRead_eq_wordOf hacc (not_control_of_kindAt (List.mem_singleton.mpr hk) (by decide)) hzero,
    List.map_const', List.length_range]
  exact congrArg some (wordOf_zeros n)

/-- Settles O45: the answer by `issueRead_eq`, the values byte by byte. -/
theorem readsChangeNothing : Obligations.ReadsChangeNothing := by
  refine ⟨fun s e rest n a hp hr hacc => ?answer, fun s n hn => ⟨fun a hacc hk => ?buffer, fun r i hal hi => ?block,
    fun a hacc hk => busRead_kbuf hn hacc hk s⟩⟩
  case answer =>
    refine ⟨readAnswer (busRead n a s), fun v => readAnswer_eq_readValue_iff _ v, readAnswer_eq_busError_iff _, ?_,
      fun r' => busRead_respond_withPending n a s rest r'⟩
    rw [step, stepBy_of_pending hp, deliverBy_of_isRead hr hacc, issueRead_eq, busRead_withPending]
  case buffer =>
    have hal := ((accepted_iff n a).mp hacc).1
    have hbytes : ∀ j, j < n → byteRead s (a + j) = Memory.read s.mem (a + j) :=
      fun j hj => byteRead_buffer (by rwa [kindAt_add hn hal hj]) s
    rw [busRead_eq_wordOf hacc (not_control_of_kindAt hk (by decide)) hbytes, wordOf_eq_valueOf hn]
  case block =>
    have hbytes : ∀ j, j < n → byteRead s (blockAddress r i + j) = byteOf (readBlock s r) (i + j) := by
      intro j hj
      rw [blockAddress_add]
      exact byteRead_block r (i + j) (by omega) s
    rw [busRead_eq_wordOf (accepted_blockAddress hn r hal (by omega)) (not_control_blockAddress r i) hbytes,
      wordOf_eq_valueOf hn]

end Sys2Proof.Machine
end

section
/-! PROOFS. What an accepted store in the buffers and the block registers leaves (20_memory.md R62, R63, R66, R67,
R71, R72). -/

namespace Sys2Proof.Machine

/-! ### A store byte by byte -/

/-- A write of one byte of a writable buffer stores it (20_memory.md R63, R66). -/
theorem byteWrite_buffer {a : Nat} (hk : kindAt a ∈ [some Kind.kbuf, some .nonce, some .ad, some .inBuf]) (b : Byte)
    (s : State) : byteWrite a b s = s.withMem (Memory.write s.mem a b) := by
  simp only [List.mem_cons, List.not_mem_nil, or_false] at hk
  rcases hk with hk | hk | hk | hk <;> simp only [byteWrite, hk]

/-- What holds before a store outside the control region, and is carried from each byte to the next, holds after it. -/
theorem storeWrite_bytes_induct (P : Nat → State → Prop) {n a : Nat} (h60 : 0x60 ≤ a) (v : Word) {s : State}
    (hstart : P 0 s) (hbyte : ∀ m t, m < n → P m t → P (m + 1) (byteWrite (a + m) (wordByte n v m) t)) :
    P n (storeWrite n a v s) := by
  rw [storeWrite_of_not_control n a v s h60]
  suffices ∀ m, m ≤ n → P m ((List.range m).foldl (fun t j => byteWrite (a + j) (wordByte n v j) t) s) from
    this n le_rfl
  intro m hm
  induction m with
  | zero => exact hstart
  | succ m ih =>
    rw [List.range_succ, List.foldl_append]
    exact hbyte m _ hm (ih (Nat.le_of_succ_le hm))

theorem frameOfStore_refl (a : Nat) (s : State) : FrameOfStore 0 a s s :=
  ⟨⟨rfl, rfl, rfl, rfl, rfl, rfl⟩, ⟨rfl, rfl, rfl, rfl⟩, rfl, rfl, rfl, fun _ _ => rfl, fun _ _ => rfl⟩

/-- The frame of `m` bytes and that of the next one, in the same region, are the frame of `m + 1` bytes. -/
theorem frameOfStore_succ {m a : Nat} {s t u : State} (hst : FrameOfStore m a s t) (htu : FrameOfStore 1 (a + m) t u)
    (hk : kindAt (a + m) = kindAt a) : FrameOfStore (m + 1) a s u where
  host := ⟨htu.host.adcnt.trans hst.host.adcnt, htu.host.adctl.trans hst.host.adctl,
    htu.host.nonceCtl.trans hst.host.nonceCtl, htu.host.inLen.trans hst.host.inLen,
    htu.host.pending.trans hst.host.pending, htu.host.responses.trans hst.host.responses⟩
  keys := ⟨htu.keys.k1.trans hst.keys.k1, htu.keys.k2.trans hst.keys.k2, htu.keys.keyed.trans hst.keys.keyed,
    htu.keys.klen.trans hst.keys.klen⟩
  res := htu.res.trans hst.res
  kbufLen := htu.kbufLen.trans hst.kbufLen
  outLen := htu.outLen.trans hst.outLen
  blocks hb j := (htu.blocks (hk ▸ hb) j).trans (hst.blocks hb j)
  bytes b hb := by
    have hnext : kindAt (a + m) = some .blocks ∨ b < a + m ∨ a + m + 1 ≤ b := by
      rw [hk]
      exact hb.imp_right fun h => by omega
    exact (htu.bytes b hnext).trans (hst.bytes b (hb.imp_right fun h => by omega))

section
variable {n a : Nat} (hn : n = 1 ∨ n = 2 ∨ n = 4) (hal : a % n = 0)
include hn hal

/-- An aligned store outside the control region touches its bytes and nothing else (20_memory.md R66, R71). -/
theorem storeWrite_frameOfStore (h60 : 0x60 ≤ a) (v : Word) (s : State) :
    FrameOfStore n a s (storeWrite n a v s) :=
  storeWrite_bytes_induct (fun m t => FrameOfStore m a s t) h60 v (frameOfStore_refl a s) fun m t hm hst =>
    frameOfStore_succ hst (byteWrite_frame (a + m) _ t) (kindAt_add hn hal hm)

/-- A store in a writable buffer leaves the bytes of the value there (20_memory.md R63, R66). -/
theorem read_storeWrite (hk : kindAt a ∈ [some Kind.kbuf, some .nonce, some .ad, some .inBuf]) (v : Word) (s : State)
    {j : Nat} (hj : j < n) : Memory.read (storeWrite n a v s).mem (a + j) = writtenByte n v j := by
  rw [← wordByte_eq_writtenByte]
  refine storeWrite_bytes_induct (fun m t => ∀ j < m, Memory.read t.mem (a + j) = wordByte n v j)
    (not_control_of_kindAt hk (by decide)) v (fun j h => absurd h (Nat.not_lt_zero j)) (fun m t hm ih j hjm => ?_) j hj
  rw [byteWrite_buffer (by rwa [kindAt_add hn hal hm]), State.withMem_mem, Memory.read_write]
  by_cases hlast : j = m
  · rw [hlast, if_pos rfl]
  · rw [if_neg (by omega), ih j (by omega)]

/-- `OUT` is read only and ignores a store (20_memory.md R66). -/
theorem storeWrite_outBuf (hk : kindAt a = some .outBuf) (v : Word) (s : State) : storeWrite n a v s = s :=
  storeWrite_bytes_induct (fun _ t => t = s) (not_control_of_kindAt (List.mem_singleton.mpr hk) (by decide)) v rfl
    fun m t hm ht => by rw [byteWrite, kindAt_add hn hal hm, hk, ht]

end

/-- Settles O47: `KBUF` by the rules for a stored byte and for a read of `KBUF`, `OUT` by `storeWrite_outBuf`. -/
theorem keyBufferHidesAndOutputIgnores : Obligations.KeyBufferHidesAndOutputIgnores := by
  intro n a v s hn hacc
  have hal := ((accepted_iff n a).mp hacc).1
  refine ⟨fun hk => ⟨fun j hj => read_storeWrite hn hal (by simp [hk]) v s hj, ?frame, busRead_kbuf hn hacc hk _⟩,
    fun hk => storeWrite_outBuf hn hal hk v s⟩
  case frame =>
    exact storeWrite_frameOfStore hn hal (not_control_of_kindAt (List.mem_singleton.mpr hk) (by decide)) v s

/-! ### Reading back -/

/-- Bytes `d` to `d + n'` of a value of `n` bytes spell its bits from `8 * (n - (d + n'))` on (20_memory.md R66, R67,
R72). -/
theorem wordOf_wordByte (v : Word) {n n' d : Nat} (hd : d + n' ≤ n) :
    wordOf ((List.range n').map fun j => wordByte n v (d + j)) =
      BitVec.ofNat 32 (v.toNat / 2 ^ (8 * (n - (d + n'))) % 2 ^ (8 * n')) := by
  apply BitVec.eq_of_getLsbD_eq
  intro k hk
  rw [getLsbD_wordOf _ k hk, BitVec.getLsbD_ofNat, Nat.testBit_mod_two_pow, Nat.testBit_div_two_pow,
    BitVec.testBit_toNat]
  simp only [List.length_map, List.length_range, List.getElem_map, List.getElem_range, getLsbD_wordByte]
  by_cases hin : k / 8 < n'
  · have hbit : 8 * (n - 1 - (d + (n' - 1 - k / 8))) + k % 8 = k + 8 * (n - (d + n')) := by omega
    have hk8 : k % 8 < 8 := Nat.mod_lt k (by decide)
    have hk' : k < 8 * n' := by omega
    simp [hin, hbit, hk8, hk', hk]
  · have hk' : ¬k < 8 * n' := by omega
    simp [hin, hk']

/-- Settles O46: each byte by `byteRead_storeWrite`, the value of an access by `wordOf_wordByte`, the rest by the
frame. -/
theorem readsSeeWrittenBytes : Obligations.ReadsSeeWrittenBytes := by
  intro n a v s hn hacc hk
  have hal := ((accepted_iff n a).mp hacc).1
  have h60 : 0x60 ≤ a := not_control_of_kindAt hk (by decide)
  have hbyte : ∀ b, byteRead (storeWrite n a v s) b =
      if a ≤ b ∧ b < a + n then wordByte n v (b - a) else byteRead s b := fun b =>
    byteRead_storeWrite n a v s b h60 fun j hj => by rwa [kindAt_add hn hal hj]
  refine ⟨fun n' a' _ hacc' hle hend => ?readBack, fun b hb => ?elsewhere, fun hnb j hj => ?buffer,
    fun _ r i hi => ?block, storeWrite_frameOfStore hn hal h60 v s⟩
  case readBack =>
    obtain ⟨d, rfl⟩ := Nat.exists_eq_add_of_le hle
    have hread : ∀ j, j < n' → byteRead (storeWrite n a v s) (a + d + j) = wordByte n v (d + j) := by
      intro j hj
      rw [hbyte, if_pos (by omega), Nat.add_assoc, Nat.add_sub_cancel_left]
    rw [busRead_eq_wordOf hacc' (by omega) hread, wordOf_wordByte v (by omega), Nat.add_assoc a d n',
      Nat.add_sub_add_left]
  case elsewhere => rw [hbyte, if_neg (by omega)]
  case buffer =>
    have hbuf : kindAt a ∈ [some Kind.nonce, some .ad, some .inBuf] := (List.mem_cons.mp hk).resolve_left hnb
    exact read_storeWrite hn hal (List.mem_cons_of_mem _ hbuf) v s hj
  case block =>
    rw [← byteRead_block r i hi, ← byteRead_block r i hi, hbyte, wordByte_eq_writtenByte]

end Sys2Proof.Machine
end

section
/-! PROOFS. The read-and-write control registers: the fields a store keeps, and what a read shows of them
(10_state.md R30, R35, R36, R38, R40, R47; 20_memory.md R68, R71). -/

namespace Sys2Proof.Machine

/-! ### Fields and register words -/

/-- The lowest `k` bits of a word, read back (10_state.md R47). -/
theorem setWidth_extractLsb'_zero (v : Word) {k : Nat} (hk : k ≤ 32) :
    (v.extractLsb' 0 k).setWidth 32 = v &&& BitVec.ofNat 32 (2 ^ k - 1) := by
  have hpow : 2 ^ k ≤ 2 ^ 32 := Nat.pow_le_pow_right (by decide) hk
  have hpos : 0 < 2 ^ k := Nat.two_pow_pos k
  have hfield : v.toNat % 2 ^ k < 2 ^ 32 := (Nat.mod_lt _ hpos).trans_le hpow
  have hmask : 2 ^ k - 1 < 2 ^ 32 := by omega
  apply BitVec.eq_of_toNat_eq
  rw [BitVec.toNat_setWidth, BitVec.extractLsb'_toNat, Nat.shiftRight_zero, Nat.mod_eq_of_lt hfield,
    BitVec.toNat_and, BitVec.toNat_ofNat, Nat.mod_eq_of_lt hmask, Nat.and_two_pow_sub_one_eq_mod]

/-- Every bit of `ADCTL[i]` and `NONCECTL`: `PRESENT` in bit 31, `LEN` from bit 0 on (10_state.md R36, R38). -/
theorem getLsbD_slotWord (c : Slot) {k : Nat} (hk : k < 32) :
    (slotWord c).getLsbD k = (decide (k = 31) && c.present || c.len.getLsbD k) := by
  have hflag : (if c.present then 0x80000000#32 else 0#32).getLsbD k = (decide (k = 31) && c.present) := by
    cases c.present
    · simp
    · rw [Bool.and_true, if_pos rfl]
      exact (by decide : ∀ k : Fin 32, (0x80000000#32).getLsbD k = decide (k.val = 31)) ⟨k, hk⟩
  rw [slotWord, BitVec.getLsbD_or, hflag, BitVec.getLsbD_setWidth]
  simp [hk]

/-- The fields of a slot's word are the slot's (10_state.md R36, R38). -/
theorem slotIs_slotWord (c : Slot) : SlotIs (slotWord c) c := by
  constructor
  · have hlen : c.len.getLsbD 31 = false := BitVec.getLsbD_of_ge _ _ (by decide)
    rw [getLsbD_slotWord c (by decide), hlen]
    simp
  · apply BitVec.eq_of_getLsbD_eq
    intro k hk
    have hne : k ≠ 31 := by omega
    simp [getLsbD_slotWord c (hk.trans (by decide)), hk, hne]

/-- Bits 30:16 of a slot's word are 0 (10_state.md R36, R38). -/
theorem extractLsb'_slotWord_reserved (c : Slot) : (slotWord c).extractLsb' 16 15 = 0#15 := by
  apply BitVec.eq_of_getLsbD_eq
  intro k hk
  have hne : 16 + k ≠ 31 := by omega
  simp [getLsbD_slotWord c (by omega : 16 + k < 32), hk, hne]

/-- What a slot register shows after a store: bits 31 and 15:0 of the value (10_state.md R36, R47). -/
theorem slotWord_slotOfWord (v : Word) : slotWord (slotOfWord v) = v &&& 0x8000FFFF#32 := by
  have hmask : ∀ k : Fin 32, (0x8000FFFF#32).getLsbD k = (decide (k.val = 31) || decide (k.val < 16)) := by decide
  apply BitVec.eq_of_getLsbD_eq
  intro k hk
  rw [getLsbD_slotWord _ hk, BitVec.getLsbD_and, hmask ⟨k, hk⟩, slotOfWord, BitVec.getLsbD_extractLsb',
    Nat.zero_add]
  by_cases h31 : k = 31
  · simp [h31]
  · simp [h31, Bool.and_comm]

/-! ### The registers at their addresses -/

/-- A store in the control region is a write of the register there (20_memory.md R68). -/
theorem storeWrite_of_isControl {a : Nat} (hc : isControl a = true) (n : Nat) (v : Word) (s : State) :
    storeWrite n a v s = controlWrite a v s := by rw [storeWrite, if_pos hc]

/-- What a control register reads after a store there. -/
theorem busRead_storeWrite_control {a : Nat} (hacc : accepted 4 a = true) (hc : isControl a = true) {v w : Word}
    {s : State} (hw : controlRead a (controlWrite a v s) = w) : busRead 4 a (storeWrite 4 a v s) = some w := by
  rw [busRead_of_isControl hacc hc, storeWrite_of_isControl hc, hw]

section
variable (i : Fin 8)

/-- `ADCTL[i]` stands at `0x0040 + 4*i`, in the control region (20_memory.md R61). -/
theorem adctl_address : accepted 4 (0x0040 + 4 * i.val) = true ∧ isControl (0x0040 + 4 * i.val) = true ∧
    kindAt (0x0040 + 4 * i.val) = some .adctl ∧ adctlIndex (0x0040 + 4 * i.val) = i := by
  revert i
  decide

theorem busRead_adctl (s : State) : busRead 4 (0x0040 + 4 * i.val) s = some (slotWord s.adctl[i]) := by
  obtain ⟨hacc, hc, hk, hi⟩ := adctl_address i
  rw [busRead_of_isControl hacc hc, controlRead, hk]
  simp only [hi]

theorem storeWrite_adctl (v : Word) (s : State) :
    storeWrite 4 (0x0040 + 4 * i.val) v s = s.withAdctl i (slotOfWord v) := by
  obtain ⟨-, hc, hk, hi⟩ := adctl_address i
  rw [storeWrite_of_isControl hc, controlWrite, hk]
  simp only [hi]

theorem adctl_storeWrite (v : Word) (s : State) :
    (storeWrite 4 (0x0040 + 4 * i.val) v s).adctl[i] = slotOfWord v := by
  rw [storeWrite_adctl, State.withAdctl_adctl]
  exact Vector.getElem_set_self ..

end

/-- Settles O48: stores and reads at the written-out addresses evaluate, those of `ADCTL[i]` by its lemmas; what the
fields show is `setWidth_extractLsb'_zero` and the bits of `slotWord`. -/
theorem controlRegistersStoreTheirFields : Obligations.ControlRegistersStoreTheirFields := by
  intro v s
  refine ⟨?kbufLen, ?adcnt, ?nonceCtl, ?inLen, fun i => ?adctl, rfl, rfl, ⟨rfl, rfl⟩, rfl, fun i => ?adctlFields,
    ?kbufLenRead, ?adcntRead,
    ⟨slotWord s.nonceCtl, ?nonceCtlRead, slotIs_slotWord _, extractLsb'_slotWord_reserved _⟩, ?inLenRead,
    fun i => ⟨slotWord s.adctl[i], busRead_adctl i s, slotIs_slotWord _, extractLsb'_slotWord_reserved _⟩,
    fun a hacc hlt => ?frame, ?readOnly, ?cmdRead⟩
  case kbufLen | adcnt | inLen =>
    exact busRead_storeWrite_control (by decide) (by decide) (setWidth_extractLsb'_zero v (by decide))
  case nonceCtl => exact busRead_storeWrite_control (by decide) (by decide) (slotWord_slotOfWord v)
  case kbufLenRead | adcntRead | nonceCtlRead | inLenRead | cmdRead =>
    exact busRead_of_isControl (by decide) (by decide) s
  case adctl => rw [busRead_adctl, adctl_storeWrite, slotWord_slotOfWord]
  case adctlFields =>
    rw [adctl_storeWrite]
    exact ⟨rfl, rfl⟩
  case frame =>
    rw [storeWrite_of_isControl (decide_eq_true hlt)]
    exact controlWrite_frame ((accepted_iff 4 a).mp hacc).1 v s
  case readOnly =>
    simp only [List.forall_mem_cons, List.not_mem_nil, false_imp_iff, implies_true, and_true]
    exact ⟨rfl, rfl, rfl, rfl, rfl⟩

end Sys2Proof.Machine
end

section
/-! PROOFS. The register fields of a command word: a field read from a word and a field put in a word, by the two bits
the field occupies (30_encoding.md R90). -/

namespace Sys2Proof

/-- The two bits of the register field whose lowest bit is `lo` (30_encoding.md R90). -/
def fieldMask (lo : Nat) : Word := (BitVec.allOnes 2).setWidth 32 <<< lo

/-- The register that the two bits from `lo` on name. -/
def fieldAt (lo : Nat) (w : Word) : RegIdx := ⟨(w.extractLsb' lo 2).toNat, (w.extractLsb' lo 2).isLt⟩

theorem rdField_eq_fieldAt (w : Word) : rdField w = fieldAt 8 w := rfl
theorem rs1Field_eq_fieldAt (w : Word) : rs1Field w = fieldAt 12 w := rfl
theorem rs2Field_eq_fieldAt (w : Word) : rs2Field w = fieldAt 16 w := rfl

/-- Putting a field of a word back in its place keeps exactly the field's bits of the word. -/
theorem regField_fieldAt (lo : Nat) (w : Word) : regField (fieldAt lo w) lo = w &&& fieldMask lo := by
  have hval : BitVec.ofNat 32 (fieldAt lo w).val = (w.extractLsb' lo 2).setWidth 32 := BitVec.ofNat_toNat ..
  rw [regField, fieldMask, hval]
  apply BitVec.eq_of_getLsbD_eq
  intro k hk
  simp only [BitVec.getLsbD_and, BitVec.getLsbD_shiftLeft, BitVec.getLsbD_setWidth, BitVec.getLsbD_allOnes,
    BitVec.getLsbD_extractLsb']
  by_cases hlo : lo ≤ k
  · rw [Nat.add_sub_cancel' hlo]
    ac_rfl
  · simp [Nat.lt_of_not_le hlo]

theorem regField_and_fieldMask (r : RegIdx) (lo : Nat) : regField r lo &&& fieldMask lo = regField r lo := by
  have hval : BitVec.ofNat 32 r.val &&& (BitVec.allOnes 2).setWidth 32 = BitVec.ofNat 32 r.val := by
    revert r
    decide
  rw [regField, fieldMask, ← BitVec.shiftLeft_and_distrib, hval]

/-- A field has no bit in common with a mask that leaves its two bits out. -/
theorem regField_and_eq_zero {lo : Nat} {m : Word} (hm : fieldMask lo &&& m = 0#32) (r : RegIdx) :
    regField r lo &&& m = 0#32 := by
  rw [← regField_and_fieldMask, BitVec.and_assoc, hm, BitVec.and_zero]

/-- A word whose two bits from `lo` on are those of `r` has `r` in that field. -/
theorem fieldAt_eq {lo : Nat} (hlo : lo ∈ [8, 12, 16]) {w : Word} {r : RegIdx}
    (h : w &&& fieldMask lo = regField r lo) : fieldAt lo w = r := by
  have hinj : ∀ lo ∈ [8, 12, 16], ∀ r r' : RegIdx, regField r lo = regField r' lo → r = r' := by decide
  exact hinj lo hlo _ _ ((regField_fieldAt lo w).trans h)

end Sys2Proof
end

section
/-! PROOFS. The rows of the opcode map: the row of each command, what a word that matches a row has in its fields, and
the word of a command (30_encoding.md R90, R91, R93). -/

namespace Sys2Proof

/-- The row of the opcode map that describes the command (30_encoding.md R93). -/
def rowOf : Instr → OpRow
  | .dbl _ _ => ⟨"DBL", 0x01#32, .DS⟩
  | .xor _ _ _ => ⟨"XOR", 0x02#32, .DSS⟩
  | .xorend _ => ⟨"XOREND", 0x03#32, .S⟩
  | .pad _ => ⟨"PAD", 0x04#32, .D⟩
  | .ctrseed _ _ => ⟨"CTRSEED", 0x05#32, .DS⟩
  | .ctr _ => ⟨"CTR", 0x06#32, .S⟩
  | .s2v _ => ⟨"S2V", 0x07#32, .D⟩
  | .newKey => ⟨"NEW", 0x10#32, .Z⟩
  | .sealMsg => ⟨"SEAL", 0x11#32, .Z⟩
  | .openMsg => ⟨"OPEN", 0x12#32, .Z⟩

/-- The same command with the operands that the fields of `w` name (30_encoding.md R92). -/
def withFields (w : Word) : Instr → Instr
  | .dbl _ _ => .dbl (rdField w) (rs1Field w)
  | .xor _ _ _ => .xor (rdField w) (rs1Field w) (rs2Field w)
  | .xorend _ => .xorend (rs1Field w)
  | .pad _ => .pad (rdField w)
  | .ctrseed _ _ => .ctrseed (rdField w) (rs1Field w)
  | .ctr _ => .ctr (rs1Field w)
  | .s2v _ => .s2v (rdField w)
  | .newKey => .newKey
  | .sealMsg => .sealMsg
  | .openMsg => .openMsg

theorem rowOf_mem (i : Instr) : rowOf i ∈ opRows := by cases i <;> simp [rowOf, opRows]

theorem exists_rowOf {r : OpRow} (hr : r ∈ opRows) : ∃ i, rowOf i = r := by
  have hrows : opRows = [.dbl 0 0, .xor 0 0 0, .xorend 0, .pad 0, .ctrseed 0 0, .ctr 0, .s2v 0, .newKey, .sealMsg,
      .openMsg].map rowOf := rfl
  rw [hrows] at hr
  obtain ⟨i, -, hi⟩ := List.mem_map.mp hr
  exact ⟨i, hi⟩

/-! ### A word that matches a row -/

theorem accepts_iff {r : OpRow} {w : Word} : r.accepts w = true ↔ w &&& r.format.mask = r.op := beq_iff_eq

theorem wordWellFormed_iff {w : Word} : wordWellFormed w = true ↔ ∃ r ∈ opRows, r.accepts w = true := List.any_eq_true

/-- A fixed bit of a word that matches a row is the row's (30_encoding.md R91). -/
theorem getLsbD_of_accepts {r : OpRow} {w : Word} (h : r.accepts w = true) {k : Nat}
    (hfixed : r.format.mask.getLsbD k = true) : w.getLsbD k = r.op.getLsbD k := by
  rw [← accepts_iff.mp h, BitVec.getLsbD_and, hfixed, Bool.and_true]

/-- A register field that the row's format does not use is 0 in a word that matches the row (30_encoding.md R91). -/
theorem fieldAt_eq_zero_of_accepts {r : OpRow} (hr : r ∈ opRows) {w : Word} (h : r.accepts w = true) {lo : Nat}
    (hlo : lo ∈ [8, 12, 16]) (hfixed : r.format.mask &&& fieldMask lo = fieldMask lo) : fieldAt lo w = 0 := by
  have hop : ∀ r ∈ opRows, ∀ lo ∈ [8, 12, 16], r.op &&& fieldMask lo = regField 0 lo := by decide
  apply fieldAt_eq hlo
  rw [← hfixed, ← BitVec.and_assoc, accepts_iff.mp h, hop r hr lo hlo]

/-- No format masks a bit of the operation code, so a word that matches a row has the row's code. -/
theorem opField_of_accepts {r : OpRow} {w : Word} (h : r.accepts w = true) : opField w = opField r.op := by
  have hmask : opField r.format.mask = BitVec.allOnes 8 := by cases r.format <;> decide
  calc opField w = opField w &&& opField r.format.mask := by rw [hmask, BitVec.and_allOnes]
    _ = opField (w &&& r.format.mask) := BitVec.extractLsb'_and.symm
    _ = opField r.op := congrArg opField (accepts_iff.mp h)

theorem opField_injOn_rows : ∀ r ∈ opRows, ∀ r' ∈ opRows, opField r.op = opField r'.op → r = r' := by decide

/-! ### The word of a command -/

/-- The word of a command matches its row. -/
theorem rowOf_accepts_encode (i : Instr) : (rowOf i).accepts (encode i) = true := by
  rw [accepts_iff]
  cases i
  all_goals
    simp (disch := decide) only [rowOf, encode, Format.mask, BitVec.and_or_distrib_right, regField_and_eq_zero,
      BitVec.or_zero]
    rfl

/-- The fields of a command's word are its operands. -/
theorem withFields_encode (i : Instr) : withFields (encode i) i = i := by
  cases i
  case newKey | sealMsg | openMsg => rfl
  all_goals
    rw [withFields]
    congr 1
  all_goals
    apply fieldAt_eq (by decide)
    simp (disch := decide) only [encode, BitVec.and_or_distrib_right, regField_and_eq_zero, regField_and_fieldMask,
      BitVec.or_zero]
    exact BitVec.zero_or

/-- A word that matches the row of a command is the word of the command its fields name: the fixed bits are those of the
row, all others those of the fields. -/
theorem encode_withFields {i : Instr} {w : Word} (h : (rowOf i).accepts w = true) : encode (withFields w i) = w := by
  rw [accepts_iff] at h
  cases i
  all_goals
    simp only [rowOf, Format.mask] at h
    simp only [withFields, encode, rdField_eq_fieldAt, rs1Field_eq_fieldAt, rs2Field_eq_fieldAt, regField_fieldAt, ← h,
      ← BitVec.and_or_distrib_left]
    exact BitVec.and_allOnes

end Sys2Proof
end

section
/-! PROOFS. The decoder by the rows of the opcode map: which words decode, to what, and which are illegal
(30_encoding.md R92, R93, R95). -/

namespace Sys2Proof

theorem underMask_eq_ok_iff {f : Format} {op w : Word} {i j : Instr} :
    underMask f op w i = .ok j ↔ (w &&& fixedMask f = op ∧ i = j) := by
  by_cases h : w &&& fixedMask f = op <;> simp [underMask, h]

/-- The decoder's masks are those of the opcode map (30_encoding.md R91). -/
theorem fixedMask_eq_mask (f : Format) : fixedMask f = f.mask := by cases f <;> rfl

/-- A word that matches the row of a command decodes to that command with the word's own fields (30_encoding.md R92). -/
theorem decode_of_accepts {i : Instr} {w : Word} (h : (rowOf i).accepts w = true) :
    decode w = .ok (withFields w i) := by
  have hop := opField_of_accepts h
  rw [accepts_iff, ← fixedMask_eq_mask] at h
  cases i <;> (rw [decode, hop]; exact underMask_eq_ok_iff.mpr ⟨h, rfl⟩)

/-- What a word that decodes must be: it matches the command's row, and its fields are the command's operands. -/
theorem accepts_of_decode {i : Instr} {w : Word} (h : decode w = .ok i) :
    (rowOf i).accepts w = true ∧ withFields w i = i := by
  rw [accepts_iff, ← fixedMask_eq_mask]
  unfold decode at h
  split at h
  case h_11 => cases h
  all_goals
    obtain ⟨hmask, rfl⟩ := underMask_eq_ok_iff.mp h
    exact ⟨hmask, rfl⟩

theorem decode_ok_iff_wordWellFormed {w : Word} : (∃ i, decode w = .ok i) ↔ wordWellFormed w = true := by
  rw [wordWellFormed_iff]
  constructor
  · rintro ⟨i, hi⟩
    obtain ⟨hacc, -⟩ := accepts_of_decode hi
    exact ⟨rowOf i, rowOf_mem i, hacc⟩
  · rintro ⟨r, hr, h⟩
    obtain ⟨i, rfl⟩ := exists_rowOf hr
    exact ⟨_, decode_of_accepts h⟩

theorem decode_ok_or_error (w : Word) : (∃ i, decode w = .ok i) ∨ ∃ e, decode w = .error e := by
  cases decode w with
  | ok i => exact .inl ⟨i, rfl⟩
  | error e => exact .inr ⟨e, rfl⟩

/-- A word that matches no row is illegal (30_encoding.md R92, R95). -/
theorem illegal_of_no_row {w : Word} (h : ∀ r ∈ opRows, r.accepts w = true → False) : ∃ e, decode w = .error e := by
  refine (decode_ok_or_error w).resolve_left fun hok => ?_
  obtain ⟨r, hr, hacc⟩ := wordWellFormed_iff.mp (decode_ok_iff_wordWellFormed.mp hok)
  exact h r hr hacc

/-- A word is illegal whose code has the property `P` and whose field from `lo` on is not 0, if no command with such a
code uses that field (30_encoding.md R95). -/
theorem illegal_of_unused_field (P : BitVec 8 → Prop) {lo : Nat} (hlo : lo ∈ [8, 12, 16])
    (hunused : ∀ r ∈ opRows, P (opField r.op) → r.format.mask &&& fieldMask lo = fieldMask lo) {w : Word}
    (hP : P (opField w)) (hset : fieldAt lo w ≠ 0) : ∃ e, decode w = .error e :=
  illegal_of_no_row fun r hr h =>
    hset (fieldAt_eq_zero_of_accepts hr h hlo (hunused r hr (opField_of_accepts h ▸ hP)))

/-! ### The statements -/

/-- Settles O1: the word matches the command's row, and its fields are the operands. -/
theorem decodeUndoesEncode : Obligations.DecodeUndoesEncode := fun i =>
  calc decode (encode i) = .ok (withFields (encode i) i) := decode_of_accepts (rowOf_accepts_encode i)
    _ = .ok i := by rw [withFields_encode]

/-- Settles O2: the word matches the row of the command it decodes to, and the command has the word's fields. -/
theorem encodeUndoesDecode : Obligations.EncodeUndoesDecode := by
  intro w i h
  obtain ⟨hacc, hfields⟩ := accepts_of_decode h
  calc encode i = encode (withFields w i) := by rw [hfields]
    _ = w := encode_withFields hacc

/-- Settles O3: the decoder by rows, and the operation code, which no two rows share. -/
theorem legalWordsAreTheRowsWords : Obligations.LegalWordsAreTheRowsWords := fun _ =>
  ⟨decode_ok_iff_wordWellFormed, fun r hr r' hr' h h' =>
    opField_injOn_rows r hr r' hr' ((opField_of_accepts h).symm.trans (opField_of_accepts h'))⟩

/-- Settles O4: the decoder evaluates on each word. -/
theorem writtenWordsDecode : Obligations.WrittenWordsDecode := by
  unfold Obligations.WrittenWordsDecode
  decide

/-- Settles O5: each clause names what a word that matches a row cannot have, by the row's code and fixed bits. -/
theorem illegalWordsRaiseIllegalCmd : Obligations.IllegalWordsRaiseIllegalCmd := by
  refine ⟨rfl, fun w => ⟨fun e he s => Machine.runCommand_of_illegal he s, fun hop => illegal_of_no_row ?unassigned,
    fun hbit => illegal_of_no_row ?reserved,
    illegal_of_unused_field (· ∈ [0x03#8, 0x06#8, 0x10#8, 0x11#8, 0x12#8]) (lo := 8) (by decide) (by decide),
    illegal_of_unused_field (· ∈ [0x04#8, 0x07#8, 0x10#8, 0x11#8, 0x12#8]) (lo := 12) (by decide) (by decide),
    illegal_of_unused_field (· ≠ 0x02#8) (lo := 16) (by decide) (by decide), ?zerosOrOnes, decode_ok_or_error w⟩⟩
  case unassigned =>
    intro r hr h
    have hassigned : ∀ r ∈ opRows, ¬(opField r.op = 0x00#8 ∨ (0x08#8 ≤ opField r.op ∧ opField r.op ≤ 0x0F#8) ∨
      0x13#8 ≤ opField r.op) := by decide
    exact hassigned r hr (opField_of_accepts h ▸ hop)
  case reserved =>
    intro r hr h
    obtain ⟨k, hk, hset⟩ := hbit
    have hclear : ∀ r ∈ opRows, ∀ k < 32, (k = 10 ∨ k = 11 ∨ k = 14 ∨ k = 15 ∨ (18 ≤ k ∧ k ≤ 31)) →
        r.format.mask.getLsbD k = true ∧ r.op.getLsbD k = false := by decide
    obtain ⟨hfixed, hzero⟩ := hclear r hr k (by omega) hk
    rw [getLsbD_of_accepts h hfixed, hzero] at hset
    exact Bool.false_ne_true hset
  case zerosOrOnes =>
    rintro (rfl | rfl)
    · exact ⟨.unassignedOpcode 0x00#8, rfl⟩
    · exact ⟨.unassignedOpcode 0xFF#8, rfl⟩

end Sys2Proof
end

section
/-! PROOFS. Field-Doubling: `dbl` on bytes, on the number and as a linear bijection (40_field_doubling.md R120, R123),
and the command DBL (R121). -/

namespace Sys2Proof.Machine

/-! ### The constant and the shift, byte by byte -/

/-- What `dbl` exclusive-ors into the shifted block, by the bit that was shifted out (40_field_doubling.md R120). -/
def reduction (c : Bool) : Block := if c then 0x87#128 else 0x00#128

theorem dbl_eq (X : Block) : dbl X = X <<< 1 ^^^ reduction X.msb := rfl

theorem reduction_xor (b c : Bool) : reduction (b ^^ c) = reduction b ^^^ reduction c := by
  revert b c; decide

theorem getLsbD_zero_reduction (c : Bool) : (reduction c).getLsbD 0 = c := by
  revert c; decide

theorem byteOf_reduction (c : Bool) {i : Nat} (hi : i < 15) : byteOf (reduction c) i = 0x00#8 := by
  revert c i; decide

theorem byteOf_reduction_last (c : Bool) : byteOf (reduction c) 15 = if c then 0x87#8 else 0x00#8 := by
  revert c; decide

theorem toNat_reduction (c : Bool) : (reduction c).toNat = if c then 0x87 else 0 := by
  revert c; decide

/-- The bit shifted out is bit 7 of byte 0 (40_field_doubling.md R120). -/
theorem msb_eq_getLsbD_byteOf (X : Block) : X.msb = (byteOf X 0).getLsbD 7 := by
  rw [BitVec.msb_eq_getLsbD_last, getLsbD_byteOf]
  rfl

/-- The shift carries the top bit of each byte into the byte before it (40_field_doubling.md R120). -/
theorem byteOf_shiftLeft_one (X : Block) {i : Nat} (hi : i < 15) :
    byteOf (X <<< 1) i = byteOf X i <<< 1 ||| byteOf X (i + 1) >>> 7 := by
  apply BitVec.eq_of_getLsbD_eq
  intro k hk
  have hin : 8 * (15 - i) + k < 128 := by omega
  have hpos : ¬8 * (15 - i) + k < 1 := by omega
  simp only [getLsbD_byteOf, BitVec.getLsbD_or, BitVec.getLsbD_shiftLeft, BitVec.getLsbD_ushiftRight, hk, hin, hpos]
  cases k with
  | zero => simp [show 8 * (15 - i) - 1 = 8 * (14 - i) + 7 by omega]
  | succ k => simp [show k < 8 by omega, show ¬7 + (k + 1) < 8 by omega]

/-- A 0 is shifted in at the bottom (40_field_doubling.md R120). -/
theorem byteOf_shiftLeft_one_last (X : Block) : byteOf (X <<< 1) 15 = byteOf X 15 <<< 1 := by
  apply BitVec.eq_of_getLsbD_eq
  intro k hk
  simp only [getLsbD_byteOf, BitVec.getLsbD_shiftLeft]
  simp [hk, show k < 128 by omega, show k - 1 < 8 by omega]

/-! ### The function -/

/-- Settles O6: the shift and the constant, each on a byte and on the number. -/
theorem dblIsShiftAndReduce : Obligations.DblIsShiftAndReduce := by
  intro X
  refine ⟨fun i hi => ?bytes, ?last, ?number⟩
  case bytes => rw [dbl_eq, byteOf_xor, byteOf_shiftLeft_one X hi, byteOf_reduction _ hi, BitVec.xor_zero]
  case last =>
    rw [dbl_eq, byteOf_xor, byteOf_shiftLeft_one_last, byteOf_reduction_last, msb_eq_getLsbD_byteOf]
  case number =>
    rw [dbl_eq, BitVec.toNat_xor, BitVec.toNat_shiftLeft, toNat_reduction, BitVec.msb_eq_decide, Nat.shiftLeft_eq]
    simp [Nat.mul_comm]

theorem dbl_xor (X Y : Block) : dbl (X ^^^ Y) = dbl X ^^^ dbl Y := by
  rw [dbl_eq, dbl_eq, dbl_eq, BitVec.shiftLeft_xor_distrib, BitVec.msb_xor, reduction_xor]
  ac_rfl

/-- Bit 0 of the result is the bit shifted out, since the shift brings in a 0 and the constant is odd
(40_field_doubling.md R123). -/
theorem getLsbD_zero_dbl (X : Block) : (dbl X).getLsbD 0 = X.msb := by
  rw [dbl_eq, BitVec.getLsbD_xor, BitVec.getLsbD_shiftLeft, getLsbD_zero_reduction]
  simp

/-- The block with the given bit at the top and 0 everywhere else. -/
def topBit (c : Bool) : Block := if c then 1#128 <<< 127 else 0#128

theorem getLsbD_topBit (c : Bool) {k : Nat} (hk : k < 128) : (topBit c).getLsbD k = (c && decide (k = 127)) := by
  cases c with
  | false => simp [topBit]
  | true =>
    rw [topBit, if_pos rfl, BitVec.getLsbD_shiftLeft, BitVec.getLsbD_one, Bool.eq_iff_iff]
    simp
    omega

/-- The shift loses the top bit and no other. -/
theorem shiftLeft_ushiftRight_or_topBit (X : Block) : (X <<< 1) >>> 1 ||| topBit X.msb = X := by
  apply BitVec.eq_of_getLsbD_eq
  intro k hk
  rw [BitVec.getLsbD_or, BitVec.getLsbD_ushiftRight, BitVec.getLsbD_shiftLeft, getLsbD_topBit _ hk]
  by_cases htop : k = 127
  · simp [htop, BitVec.msb_eq_getLsbD_last]
  · simp [htop, show 1 + k < 128 by omega]

/-- How to undo a doubling: take the constant out if bit 0 is set, shift right by one, and put the bit back at the top
(40_field_doubling.md R123). -/
def undbl (Y : Block) : Block := (Y ^^^ reduction (Y.getLsbD 0)) >>> 1 ||| topBit (Y.getLsbD 0)

theorem undbl_dbl (X : Block) : undbl (dbl X) = X := by
  rw [undbl, getLsbD_zero_dbl, dbl_eq, BitVec.xor_assoc, BitVec.xor_self, BitVec.xor_zero,
    shiftLeft_ushiftRight_or_topBit]

theorem dbl_bijective : Function.Bijective dbl :=
  Finite.injective_iff_bijective.mp (Function.LeftInverse.injective undbl_dbl)

/-- Settles O7: `dbl` is linear because the shift and the constant are, and a bijection because `undbl` undoes it. -/
theorem dblIsLinearAndBijective : Obligations.DblIsLinearAndBijective := by
  refine ⟨rfl, dbl_xor, dbl_bijective, fun X => ?_⟩
  have hbit : (byteOf (dbl X) 15).getLsbD 0 = (dbl X).getLsbD 0 := getLsbD_byteOf _ 15 0
  rw [hbit]
  exact ⟨(getLsbD_zero_dbl X).trans (msb_eq_getLsbD_byteOf X), (undbl_dbl X).symm⟩

/-! ### The command -/

/-- Settles O17: the written word is `encode`'s, and DBL ends in the write of its register. -/
theorem dblCommand : Obligations.DblCommand := fun rd rs1 s =>
  ⟨decodeUndoesEncode (.dbl rd rs1), _, rfl, readBlock_withBlock_same s rd _, rfl,
    frameOfRegister_withBlock rd _ s .ok⟩

end Sys2Proof.Machine
end

section
/-! PROOFS. Vector Byte Ops: `xorend` and `pad` byte by byte (41_vector_byte_ops.md R131, R132), and the commands XOR,
XOREND and PAD (R133 to R135). -/

namespace Sys2Proof.Machine

/-! ### `xorend` -/

/-- On the bytes of two blocks, exclusive or is `xor` of the blocks (41_vector_byte_ops.md R130). -/
theorem xorBytes_blockBytes (X Y : Block) : xorBytes (blockBytes X) (blockBytes Y) = blockBytes (xorBlock X Y) := by
  apply List.ext_getElem (by simp)
  intro i _ _
  rw [getElem_xorBytes, getElem_blockBytes, getElem_blockBytes, getElem_blockBytes, xorBlock, byteOf_xor]

/-- At 16 bytes there is no prefix: `xorend` is `xor` (41_vector_byte_ops.md R131). -/
theorem xorend_blockBytes (X D : Block) : xorend (blockBytes X) D = blockBytes (xorBlock X D) := by
  rw [xorend, blockBytes_length, Nat.sub_self, List.take_zero, List.drop_zero, List.nil_append, xorBytes_blockBytes]

section
variable {M : Bytes} (D : Block) (h : 16 ≤ M.length)
include h

theorem getElem?_xorend_prefix {i : Nat} (hi : i < M.length - 16) : (xorend M D)[i]? = M[i]? := by
  have hM : i < M.length := by omega
  have hR : i < (xorend M D).length := by rwa [xorend_length M D h]
  rw [List.getElem?_eq_getElem hR, List.getElem?_eq_getElem hM, getElem_xorend M D h i hR, if_pos hi]

theorem getElem?_xorend_suffix {j : Nat} (hj : j < 16) : (xorend M D)[M.length - 16 + j]? =
    M[M.length - 16 + j]?.map (fun b => b ^^^ byteOf D j) := by
  have hM : M.length - 16 + j < M.length := by omega
  have hR : M.length - 16 + j < (xorend M D).length := by rwa [xorend_length M D h]
  rw [List.getElem?_eq_getElem hR, List.getElem?_eq_getElem hM, Option.map_some, getElem_xorend M D h _ hR,
    if_neg (by omega), Nat.add_sub_cancel_left]

end

/-! ### `pad` -/

/-- The zeros after a last byte that is not 0 can be told from the string before them. -/
theorem rdropWhile_append_zeros (M : Bytes) {b : Byte} (hb : b ≠ 0x00#8) (n : Nat) :
    (M ++ [b] ++ zeros n).rdropWhile (· == 0x00#8) = M ++ [b] := by
  induction n with
  | zero =>
    rw [zeros, List.replicate_zero, List.append_nil]
    exact List.rdropWhile_concat_neg _ _ _ (by simpa using hb)
  | succ n ih =>
    have hsucc : zeros (n + 1) = zeros n ++ [0x00#8] := List.replicate_succ'
    rw [hsucc, ← List.append_assoc, List.rdropWhile_concat_pos _ _ _ (by simp), ih]

/-- How to undo a padding: the last byte that is not 0 is the marker, and the string stands before it
(41_vector_byte_ops.md R132). -/
def unpad (X : Block) : Bytes := ((blockBytes X).rdropWhile (· == 0x00#8)).dropLast

theorem unpad_pad {M : Bytes} (h : M.length < 16) : unpad (pad M) = M := by
  rw [unpad, blockBytes_pad M h, rdropWhile_append_zeros M (by decide), List.dropLast_concat]

/-- Settles O8: `xorend` from its prefix and its suffix, `pad` from its sixteen bytes and from `unpad`, which undoes
it. -/
theorem xorendAndPadByteForByte : Obligations.XorendAndPadByteForByte := by
  refine ⟨fun M D h => ⟨xorend_length M D h, fun _ => getElem?_xorend_prefix D h,
    fun _ => getElem?_xorend_suffix D h, fun h16 => ?block⟩, blockBytes_pad, fun M M' h h' heq => ?injective⟩
  case block => rw [← xorend_blockBytes, blockBytes_blockOf M h16]
  case injective => rw [← unpad_pad h, heq, unpad_pad h']

/-! ### The commands -/

/-- Settles O18: the written word is `encode`'s, and XOR ends in the write of its register. -/
theorem xorCommand : Obligations.XorCommand := by
  intro rd rs1 rs2 s
  have hrd : readBlock ((s.withBlock rd (xorBlock (readBlock s rs1) (readBlock s rs2))).withRes .ok) rd =
      readBlock s rs1 ^^^ readBlock s rs2 := readBlock_withBlock_same s rd _
  refine ⟨decodeUndoesEncode (.xor rd rs1 rs2), _, rfl, fun i _ => ?bytes, fun hrs => ?same, rfl,
    frameOfRegister_withBlock rd _ s .ok⟩
  case bytes => rw [hrd, byteOf_xor]
  case same => rw [hrd, hrs, BitVec.xor_self]

section
variable {s : State}

theorem execPad_of_lt (rd : RegIdx) (h : s.inLen.toNat < 16) : execPad rd s =
    .next ((s.withBlock rd (pad (Memory.readBytes s.mem inBase s.inLen.toNat))).withRes .ok) := by
  rcases execPad_cases rd s with ⟨-, hnone | hlong⟩ | ⟨M, hM, -, hnext⟩
  · rw [input_eq_none_iff] at hnone
    omega
  · omega
  · obtain ⟨-, rfl⟩ := (input_eq_some_iff s M).mp hM
    exact hnext

theorem execPad_of_le (rd : RegIdx) (h : 16 ≤ s.inLen.toNat) : execPad rd s = .next (s.withRes .lenError) := by
  rcases execPad_cases rd s with ⟨hfault, -⟩ | ⟨M, hM, hshort, -⟩
  · exact hfault
  · rw [input_length hM] at hshort
    omega

theorem execXorend_of_legal (rs1 : RegIdx) (h16 : 16 ≤ s.inLen.toNat) (hcap : s.inLen.toNat ≤ 4112) :
    execXorend rs1 s =
      .next ((setOut (xorend (Memory.readBytes s.mem inBase s.inLen.toNat) (readBlock s rs1)) s).withRes .ok) := by
  rcases execXorend_cases rs1 s with ⟨-, hnone | hshort⟩ | ⟨M, hM, -, hnext⟩
  · rw [input_eq_none_iff] at hnone
    omega
  · omega
  · obtain ⟨-, rfl⟩ := (input_eq_some_iff s M).mp hM
    exact hnext

theorem execXorend_of_illegal (rs1 : RegIdx) (h : s.inLen.toNat < 16 ∨ 4112 < s.inLen.toNat) :
    execXorend rs1 s = .next (s.withRes .lenError) := by
  rcases execXorend_cases rs1 s with ⟨hfault, -⟩ | ⟨M, hM, hlong, -⟩
  · exact hfault
  · have hcap := input_length_le hM
    rw [input_length hM] at hlong hcap
    omega

end

/-- `RES` is no part of the output. -/
theorem outputIs_withRes {X : Bytes} {t : State} (h : OutputIs X t) (c : Code) : OutputIs X (t.withRes c) :=
  ⟨h.length, h.bytes, h.beyond⟩

/-- Settles O20: below 16 bytes the register holds the padded input, whose bytes `blockBytes_pad` spells. -/
theorem padCommand : Obligations.PadCommand := by
  refine fun rd s => ⟨decodeUndoesEncode (.pad rd), fun h => ⟨_, execPad_of_lt rd h, ?bytes, rfl,
    frameOfRegister_withBlock rd _ s .ok⟩, execPad_of_le rd⟩
  case bytes =>
    have hlen : (Memory.readBytes s.mem inBase s.inLen.toNat).length = s.inLen.toNat := Memory.readBytes_length ..
    rw [readBlock_withRes, readBlock_withBlock_same, blockBytes_pad _ (by rwa [hlen]), hlen]

/-- Settles O21: the result is as long as the input, so it fits `OUT`, and `SetOut` does the rest. -/
theorem xorendCommand : Obligations.XorendCommand := by
  intro rs1 s
  refine ⟨decodeUndoesEncode (.xorend rs1), fun h16 hcap => ?_, execXorend_of_illegal rs1⟩
  have hlen : (xorend (Memory.readBytes s.mem inBase s.inLen.toNat) (readBlock s rs1)).length = s.inLen.toNat := by
    rw [xorend_length _ _ (by rwa [Memory.readBytes_length]), Memory.readBytes_length]
  have hfits := hlen.le.trans (hcap.trans (by decide : 4112 ≤ 4128))
  refine ⟨_, execXorend_of_legal rs1 h16 hcap, outputIs_withRes (outputIs_setOut hfits s) .ok, ?outLen, rfl,
    frameOfOutput_withRes (frameOfOutput_setOut hfits s) .ok⟩
  case outLen => rw [State.withRes_outLen, setOut_outLen, hlen, BitVec.ofNat_toNat, BitVec.setWidth_eq]

end Sys2Proof.Machine
end

section
/-! PROOFS. S2V: the function `s2v` step by step (42_s2v.md R150, R153), and the command S2V (R152). -/

namespace Sys2Proof.Machine

/-! ### The function -/

section
variable (C : Collaborators) (K1 : Bytes) (L : List Item)

/-- Step 2 takes the items in list order (42_s2v.md R150). -/
theorem s2vAccumulator_concat (it : Item) :
    s2vAccumulator C K1 (L ++ [it]) = s2vFold C K1 (s2vAccumulator C K1 L) it := List.foldl_concat ..

/-- To skip an item because it is absent is to fold it (42_s2v.md R153). -/
theorem s2vFold_of_not_absent (D : Block) (it : Item) :
    (if decide (it ≠ .absent) then s2vFold C K1 D it else D) = s2vFold C K1 D it := by
  cases it with
  | absent => rfl
  | present X => rfl

/-- The accumulator does not see absent entries (42_s2v.md R153). -/
theorem s2vAccumulator_filter_present :
    s2vAccumulator C K1 (L.filter fun it => decide (it ≠ .absent)) = s2vAccumulator C K1 L := by
  rw [s2vAccumulator, List.foldl_filter]
  exact List.foldl_ext _ _ _ fun D it _ => s2vFold_of_not_absent C K1 D it

end

/-- Settles O10: each item is one step of the fold, and `T` is the branch that fits the length. -/
theorem s2vStepByStep : Obligations.S2vStepByStep := by
  intro C K1 L X P
  refine ⟨rfl, s2vAccumulator_concat C K1 L _, s2vAccumulator_concat C K1 L _, s2vAccumulator_concat C K1 L _,
    ?absent, fun hlong => ?long, fun hshort => ?short⟩
  case absent => rw [s2v, s2v, s2vAccumulator_filter_present]
  case long => rw [s2v, s2vFinal, if_pos hlong]
  case short => rw [s2v, s2vFinal, if_neg (Nat.not_le.mpr hshort)]

/-! ### The command -/

section
variable {s : State}

/-- Within the capacities no present slot is too long: `Items()` has a value (10_state.md R44; 60_exceptions.md
R245). -/
theorem exists_items_of_lengthsLegal (h : LengthsLegal s) : ∃ L, items s = some L := by
  rw [← Option.ne_none_iff_exists', Ne, items_eq_none_iff]
  rintro (hcount | ⟨i, hi, hpresent, hlen⟩ | ⟨hpresent, hlen⟩)
  · exact Nat.not_lt.mpr h.count hcount
  · exact Nat.not_lt.mpr (h.slots i hi hpresent) hlen
  · exact Nat.not_lt.mpr (h.nonce hpresent) hlen

/-- Within its capacity `Input()` is the bytes of `IN` below `INLEN` (10_state.md R45). -/
theorem input_of_lengthsLegal (h : LengthsLegal s) : input s = some (Memory.readBytes s.mem inBase s.inLen.toNat) :=
  (input_eq_some_iff s _).mpr ⟨h.input, rfl⟩

/-- With a key and both operands only the last case of `s2vWith_cases` is left: S2V ends in the write of its register,
in any build (42_s2v.md R152). -/
theorem s2vWith_of_operands (C : Collaborators) (rd : RegIdx) {P : Bytes} {L : List Item} (hkeyed : s.keyed = true)
    (hP : input s = some P) (hL : items s = some L) :
    s2vWith C rd s = .next ((s.withBlock rd (s2v C s.k1 L P)).withRes .ok) := by
  simpa [hkeyed, hP, hL] using s2vWith_cases C rd s

end

/-- Settles O24: legal lengths give both operands, so S2V ends in the write of its register. -/
theorem s2vCommand : Obligations.S2vCommand := by
  intro rd s hkeyed hlegal
  obtain ⟨L, hL⟩ := exists_items_of_lengthsLegal hlegal
  exact ⟨L, _, hL, s2vWith_of_operands Config.wired rd hkeyed (input_of_lengthsLegal hlegal) hL,
    readBlock_withBlock_same s rd _, rfl, frameOfRegister_withBlock rd _ s .ok⟩

end Sys2Proof.Machine
end

section
/-! PROOFS. IV-to-Counter-Seed: `ctrseed` by bits and by bytes (43_iv_to_counter_seed.md R170, R172), the tag changed
only in the bits it clears (R172; 44_aead.md R200 c), and the command CTRSEED (R171). -/

namespace Sys2Proof.Machine

/-! ### The bits `ctrseed` keeps -/

/-- The bits `ctrseed` keeps: all but 63 and 31 (43_iv_to_counter_seed.md R170). -/
def keptBits : Block := 0xFFFFFFFFFFFFFFFF7FFFFFFF7FFFFFFF#128

theorem ctrseed_eq (V : Block) : ctrseed V = V &&& keptBits := rfl

theorem getLsbD_keptBits : ∀ k < 128, keptBits.getLsbD k = (k != 63 && k != 31) := by decide

theorem byteOf_keptBits : ∀ i < 16, byteOf keptBits i = if i = 8 ∨ i = 12 then 0x7F#8 else BitVec.allOnes 8 := by
  decide

theorem getLsbD_ctrseed (V : Block) (k : Nat) : (ctrseed V).getLsbD k = (V.getLsbD k && k != 63 && k != 31) := by
  rw [ctrseed_eq, BitVec.getLsbD_and]
  by_cases hk : k < 128
  · rw [getLsbD_keptBits k hk, Bool.and_assoc]
  · simp [BitVec.getLsbD_of_ge V k (Nat.not_lt.mp hk)]

theorem byteOf_and (X Y : Block) (i : Nat) : byteOf (X &&& Y) i = byteOf X i &&& byteOf Y i := BitVec.extractLsb'_and

theorem byteOf_ctrseed_cleared (V : Block) {i : Nat} (hi : i = 8 ∨ i = 12) :
    byteOf (ctrseed V) i = byteOf V i &&& 0x7F#8 := by
  rw [ctrseed_eq, byteOf_and, byteOf_keptBits i (by omega), if_pos hi]

theorem byteOf_ctrseed_kept (V : Block) {i : Nat} (hi : i < 16) (h8 : i ≠ 8) (h12 : i ≠ 12) :
    byteOf (ctrseed V) i = byteOf V i := by
  rw [ctrseed_eq, byteOf_and, byteOf_keptBits i hi, if_neg (by omega), BitVec.and_allOnes]

theorem getLsbD_byteOf_ctrseed_cleared (V : Block) {i : Nat} (hi : i = 8 ∨ i = 12) :
    (byteOf (ctrseed V) i).getLsbD 7 = false := by
  rw [byteOf_ctrseed_cleared V hi, BitVec.getLsbD_and]
  exact Bool.and_false _

theorem ctrseed_idempotent (V : Block) : ctrseed (ctrseed V) = ctrseed V := by
  rw [ctrseed_eq, ctrseed_eq, BitVec.and_assoc, BitVec.and_self]

/-! ### The blocks with the same result -/

/-- Blocks that differ in a bit other than 63 and 31 have different results (43_iv_to_counter_seed.md R172). -/
theorem ctrseed_ne_of_getLsbD_ne {V V' : Block} {k : Nat} (h63 : k ≠ 63) (h31 : k ≠ 31)
    (hne : V.getLsbD k ≠ V'.getLsbD k) : ctrseed V ≠ ctrseed V' := by
  intro h
  have hbit := congrArg (fun Q : Block => Q.getLsbD k) h
  simp only [getLsbD_ctrseed, bne_iff_ne.mpr h63, bne_iff_ne.mpr h31, Bool.and_true] at hbit
  exact hne hbit

/-- A block is known from its seed and the two bits that were cleared. -/
theorem eq_of_ctrseed_eq {V V' : Block} (h : ctrseed V = ctrseed V') (h63 : V.getLsbD 63 = V'.getLsbD 63)
    (h31 : V.getLsbD 31 = V'.getLsbD 31) : V = V' := by
  apply BitVec.eq_of_getLsbD_eq
  intro k _
  by_contra hne
  have hk63 : k ≠ 63 := fun hk => hne (hk ▸ h63)
  have hk31 : k ≠ 31 := fun hk => hne (hk ▸ h31)
  exact ctrseed_ne_of_getLsbD_ne hk63 hk31 hne h

theorem ctrseed_xor (X Y : Block) : ctrseed (X ^^^ Y) = ctrseed X ^^^ ctrseed Y := by
  apply BitVec.eq_of_getLsbD_eq
  intro k _
  simp only [ctrseed_eq, BitVec.getLsbD_and, BitVec.getLsbD_xor, Bool.and_xor_distrib_right]

/-- The four blocks with seed zero, one for each value of the two cleared bits (43_iv_to_counter_seed.md R172). -/
def zeroSeedBlocks : List Block := [0#128, 1#128 <<< 63, 1#128 <<< 31, (1#128 <<< 63) ||| (1#128 <<< 31)]

theorem ctrseed_of_mem_zeroSeedBlocks : ∀ X ∈ zeroSeedBlocks, ctrseed X = 0#128 := by
  simp only [zeroSeedBlocks, List.forall_mem_cons]
  exact ⟨rfl, rfl, rfl, rfl, List.forall_mem_nil _⟩

theorem exists_zeroSeedBlock_of_bits (b c : Bool) : ∃ X ∈ zeroSeedBlocks, b = X.getLsbD 63 ∧ c = X.getLsbD 31 := by
  simp only [zeroSeedBlocks, List.exists_mem_cons_iff]
  revert b c
  decide

theorem ctrseed_eq_zero_iff (D : Block) : ctrseed D = 0#128 ↔ D ∈ zeroSeedBlocks := by
  refine ⟨fun h => ?_, ctrseed_of_mem_zeroSeedBlocks D⟩
  obtain ⟨X, hX, h63, h31⟩ := exists_zeroSeedBlock_of_bits (D.getLsbD 63) (D.getLsbD 31)
  rwa [eq_of_ctrseed_eq (h.trans (ctrseed_of_mem_zeroSeedBlocks X hX).symm) h63 h31]

/-- Two blocks have the same seed exactly when their difference has seed zero (43_iv_to_counter_seed.md R172). -/
theorem ctrseed_eq_ctrseed_iff (V V' : Block) : ctrseed V' = ctrseed V ↔ V' ^^^ V ∈ zeroSeedBlocks := by
  rw [← ctrseed_eq_zero_iff, ctrseed_xor, BitVec.xor_eq_zero_iff]

/-- Settles O9: bits and bytes by the mask, and the four preimages because `ctrseed` is linear and sends just four
blocks to zero. -/
theorem ctrseedClearsTwoBits : Obligations.CtrseedClearsTwoBits := fun V V' =>
  ⟨byteOf_ctrseed_cleared V (.inl rfl), byteOf_ctrseed_cleared V (.inr rfl), fun _ => byteOf_ctrseed_kept V,
    fun k _ => getLsbD_ctrseed V k, ctrseed_idempotent V, ctrseed_eq_ctrseed_iff V V',
    getLsbD_byteOf_ctrseed_cleared V (.inl rfl), getLsbD_byteOf_ctrseed_cleared V (.inr rfl),
    fun _ => ctrseed_ne_of_getLsbD_ne⟩

/-! ### A tag with the seed of another -/

section
variable (C : Collaborators) (K1 K2 : Bytes) (L : List Item)

theorem ctrXor_ctrXor (Q : Block) (M : Bytes) : ctrXor C K2 Q (ctrXor C K2 Q M) = M := by
  rw [ctrXor, ctrXor_length, ctrXor, xorBytes_self_cancel _ _ (keystream_length C K2 Q M.length).symm]

/-- The payload of a sealed output (44_aead.md R194). -/
theorem aeadSeal_drop (P : Bytes) :
    (aeadSeal C K1 K2 L P).drop 16 = ctrXor C K2 (ctrseed (s2v C K1 L P)) P :=
  List.drop_left' (blockBytes_length _)

/-- OPEN decrypts the payload from the seed of the tag, and accepts if the plaintext has that tag (44_aead.md R195). -/
theorem aeadOpen_tag_append (V : Block) (X : Bytes) : aeadOpen C K1 K2 L (blockBytes V ++ X) =
    if s2v C K1 L (ctrXor C K2 (ctrseed V) X) = V then some (ctrXor C K2 (ctrseed V) X) else none := by
  have hlen : ¬(blockBytes V ++ X).length < 16 := by simp
  have htag : blockOf ((blockBytes V ++ X).take 16) = V := by
    rw [List.take_left' (blockBytes_length V), blockOf_blockBytes]
  have hpayload : (blockBytes V ++ X).drop 16 = X := List.drop_left' (blockBytes_length V)
  rw [aeadOpen, if_neg hlen, candidate, htag, hpayload]

end

/-- Settles O16: the seed is the same, so the candidate is the plaintext that was sealed, and its tag is not the one
received. -/
theorem clearedTagBitForgeryIsRejected : Obligations.ClearedTagBitForgeryIsRejected := by
  intro C K1 K2 L P V' htag hseed
  rw [aeadOpen_tag_append, aeadSeal_drop, hseed, ctrXor_ctrXor, if_neg htag.symm]

/-! ### The command -/

/-- Settles O19: the written word is `encode`'s, and CTRSEED ends in the write of its register. -/
theorem ctrseedCommand : Obligations.CtrseedCommand := fun rd rs1 s =>
  ⟨decodeUndoesEncode (.ctrseed rd rs1), _, rfl, readBlock_withBlock_same s rd _, rfl,
    frameOfRegister_withBlock rd _ s .ok⟩

end Sys2Proof.Machine
end

section
/-! PROOFS. The functions of the construction: the counter (44_aead.md R184, R187), the keystream byte by byte and the
exclusive or with it (R184, R185), the sealed output (R190, R194) and its opening (R195, R200 a). -/

namespace Sys2Proof.Machine

/-! ### The counter -/

/-- Where bit `k` of a number is 0, its low `k + 1` bits are its low `k` bits. -/
theorem mod_two_pow_succ_lt {n k : Nat} (h : n.testBit k = false) : n % 2 ^ (k + 1) < 2 ^ k := by
  have hbit : n / 2 ^ k % 2 = 0 := by simpa [Nat.testBit_eq_decide_div_mod_eq] using h
  rw [Nat.mod_pow_succ, hbit, Nat.mul_zero, Nat.add_zero]
  exact Nat.mod_lt _ (Nat.two_pow_pos k)

/-- The low 32 bits and the low 64 bits of a seed start with a 0 (43_iv_to_counter_seed.md R170). -/
theorem ctrseed_mod_two_pow_succ_lt (V : Block) {k : Nat} (hk : k = 31 ∨ k = 63) :
    (ctrseed V).toNat % 2 ^ (k + 1) < 2 ^ k := by
  apply mod_two_pow_succ_lt
  rw [BitVec.testBit_toNat, getLsbD_ctrseed]
  rcases hk with rfl | rfl <;> simp

theorem counterBlock_toNat (Q : Block) (i : Nat) : (counterBlock Q i).toNat = (Q.toNat + i) % 2 ^ 128 := by
  simp [counterBlock]

theorem counterBlock_eq_ofNat (Q : Block) (i : Nat) :
    counterBlock Q i = BitVec.ofNat 128 ((Q.toNat + i) % 2 ^ 128) := by
  apply BitVec.eq_of_toNat_eq
  rw [counterBlock_toNat, BitVec.toNat_ofNat, Nat.mod_mod]

/-- Settles O12: the seed's bits 31 and 63 are 0, so the sum carries out of neither the low 32 nor the low 64 bits. -/
theorem counterNeverCarries : Obligations.CounterNeverCarries := by
  intro V i hi
  have h32 := ctrseed_mod_two_pow_succ_lt V (.inl rfl)
  have h64 := ctrseed_mod_two_pow_succ_lt V (.inr rfl)
  have h128 := (ctrseed V).isLt
  rw [counterBlock_toNat]
  omega

/-! ### The keystream and `ctr` -/

section
variable (C : Collaborators) (K2 : Bytes) (Q : Block)

theorem getElem?_keystream {n i : Nat} (hi : i < n) : (keystream C K2 Q n)[i]? =
    some (byteOf (C.E K2 (counterBlock Q (i / 16))) (i % 16)) := by
  rw [List.getElem?_eq_getElem (by rwa [keystream_length]), getElem_keystream]

theorem getElem?_ctrXor {M : Bytes} {i : Nat} (hi : i < M.length) :
    (ctrXor C K2 Q M)[i]? = (keystream C K2 Q M.length)[i]?.map (fun k => M[i] ^^^ k) := by
  rw [List.getElem?_eq_getElem (by rwa [ctrXor_length]), List.getElem?_eq_getElem (by rwa [keystream_length])]
  exact congrArg some (getElem_xorBytes M _ i _)

end

/-- Settles O11: the keystream is its encrypted counter blocks, and the same keystream twice cancels. -/
theorem ctrIsItsOwnInverse : Obligations.CtrIsItsOwnInverse := by
  intro C K2 Q M
  refine ⟨fun n => ⟨keystream_length C K2 Q n, fun i hi => ?byte⟩, ctrXor_length C K2 Q M,
    fun i hi => getElem?_ctrXor C K2 Q hi, rfl, ctrXor_ctrXor C K2 Q M⟩
  case byte => rw [getElem?_keystream C K2 Q hi, counterBlock_eq_ofNat]

/-! ### The sealed output and its opening -/

/-- Settles O13: the sealed output is the sixteen bytes of `V`, then the `ctr` of the plaintext from its seed. -/
theorem sealedOutputLayout : Obligations.SealedOutputLayout := by
  intro C K1 K2 L P
  refine ⟨aeadSeal_length C K1 K2 L P, List.take_left' (blockBytes_length _), fun i hi => ?payload⟩
  case payload => rw [← List.getElem?_drop, aeadSeal_drop, getElem?_ctrXor C K2 _ hi]

/-- Settles O14: the candidate is `ctr` undone, so its tag is the one received. -/
theorem openUndoesSeal : Obligations.OpenUndoesSeal := by
  intro C K1 K2 L P
  rw [aeadSeal, aeadOpen_tag_append, ctrXor_ctrXor, if_pos rfl]

/-- Settles O15: what is accepted has the tag of its candidate, and `ctr` of the candidate is the payload again. -/
theorem openAcceptsOnlySealedOutputs : Obligations.OpenAcceptsOnlySealedOutputs := by
  intro C K1 K2 L S P h
  obtain ⟨hlen, htag, rfl⟩ := (aeadOpen_eq_some_iff C K1 K2 L S P).mp h
  have htake : (S.take 16).length = 16 := List.length_take_of_le hlen
  calc S = S.take 16 ++ S.drop 16 := (List.take_append_drop 16 S).symm
    _ = aeadSeal C K1 K2 L (candidate C K2 S) := by
      rw [aeadSeal, htag, blockBytes_blockOf _ htake, candidate, ctrXor_ctrXor]

end Sys2Proof.Machine
end

section
/-! PROOFS. The commands that write `OUT` under a key: CTR (44_aead.md R186), SEAL (R191), OPEN (R196 to R198), SEAL as
the smaller commands (R192) and OPEN after SEAL (R200 a). -/

namespace Sys2Proof.Machine

/-! ### The outcome with a key and the operands, in any build -/

section
variable (C : Collaborators) {s : State} {M : Bytes} {L : List Item}

theorem ctrWith_of_input (rs1 : RegIdx) (hkeyed : s.keyed = true) (hM : input s = some M) :
    ctrWith C rs1 s = .next ((setOut (ctrXor C s.k2 (readBlock s rs1) M) s).withRes .ok) := by
  simpa [hkeyed, hM] using ctrWith_cases C rs1 s

theorem sealWith_of_operands (hkeyed : s.keyed = true) (hM : input s = some M) (hL : items s = some L) :
    sealWith C s = .next ((setOut (aeadSeal C s.k1 s.k2 L M) s).withRes .ok) := by
  simpa [hkeyed, hM, hL] using sealWith_cases C s

theorem openWith_of_accepted {P : Bytes} (hkeyed : s.keyed = true) (hM : input s = some M) (hL : items s = some L)
    (hP : aeadOpen C s.k1 s.k2 L M = some P) : openWith C s = .next ((setOut P s).withRes .ok) := by
  simpa [hkeyed, hM, hL, hP] using openWith_cases C s

theorem openWith_of_rejected (hkeyed : s.keyed = true) (hM : input s = some M) (hL : items s = some L)
    (hnone : aeadOpen C s.k1 s.k2 L M = none) : openWith C s = .next ((setOut [] s).withRes .authError) := by
  simpa [hkeyed, hM, hL, hnone] using openWith_cases C s

end

/-! ### What a code says about the outcome -/

section
variable {C : Collaborators} {s t : State}

/-- SEAL that ended `OK` had a key and both operands, and wrote the sealed output (44_aead.md R191). -/
theorem exists_operands_of_sealWith_ok (h : sealWith C s = .next t) (hok : t.res = .ok) :
    s.keyed = true ∧ ∃ P L, input s = some P ∧ items s = some L ∧
      t = (setOut (aeadSeal C s.k1 s.k2 L P) s).withRes .ok := by
  rcases sealWith_cases C s with ⟨-, h'⟩ | ⟨-, -, h'⟩ | ⟨hkeyed, P, L, hP, hL, h'⟩ <;>
    obtain rfl := Host.Outcome.next.inj (h'.symm.trans h)
  · cases hok
  · cases hok
  · exact ⟨hkeyed, P, L, hP, hL, rfl⟩

/-- OPEN that ended `AUTH_ERROR` did nothing but zero `OUT` (44_aead.md R196, R197). -/
theorem eq_of_openWith_authError (h : openWith C s = .next t) (hres : t.res = .authError) :
    t = (setOut [] s).withRes .authError := by
  rcases openWith_cases C s with ⟨-, h'⟩ | ⟨-, -, h'⟩ | ⟨-, S, L, -, -, ⟨-, h'⟩ | ⟨P, -, h'⟩⟩ <;>
    obtain rfl := Host.Outcome.next.inj (h'.symm.trans h)
  · cases hres
  · cases hres
  · rfl
  · cases hres

end

/-! ### A command that ends in a `SetOut` -/

section
variable {X : Bytes} (hX : X.length ≤ 4128) (s : State) (c : Code)
include hX

theorem outputIs_setOut_withRes : OutputIs X ((setOut X s).withRes c) := outputIs_withRes (outputIs_setOut hX s) c

theorem frameOfOutput_setOut_withRes : FrameOfOutput s ((setOut X s).withRes c) :=
  frameOfOutput_withRes (frameOfOutput_setOut hX s) c

end

@[simp] theorem readBlock_setOut (X : Bytes) (s : State) (j : RegIdx) : readBlock (setOut X s) j = readBlock s j := rfl

/-- After `SetOut`, reading as many bytes of `OUT` as were set gives them back (10_state.md R46). -/
theorem readBytes_setOut (X : Bytes) (s : State) {n : Nat} (hn : n = X.length) :
    Memory.readBytes (setOut X s).mem outBase n = X := by
  rw [hn, setOut_mem, Memory.readBytes_writeBytes]

/-- Byte `i` of `ctr` of a string in memory (44_aead.md R184, R185). -/
theorem getElem_ctrXor_readBytes (C : Collaborators) (K2 : Bytes) (Q : Block) (m : List Host.Cell) (base n i : Nat)
    (hi : i < (ctrXor C K2 Q (Memory.readBytes m base n)).length) :
    (ctrXor C K2 Q (Memory.readBytes m base n))[i] =
      Memory.read m (base + i) ^^^ byteOf (C.E K2 (Q + BitVec.ofNat 128 (i / 16))) (i % 16) := by
  simp only [ctrXor, getElem_xorBytes, Memory.getElem_readBytes, getElem_keystream, counterBlock]

/-! ### CTR and SEAL -/

/-- Settles O22: the output is `ctr` of the input, whose bytes `getElem_ctrXor_readBytes` spells. -/
theorem ctrCommand : Obligations.CtrCommand := by
  intro rs1 s hkeyed hcap
  have hinput := (input_eq_some_iff s _).mpr ⟨hcap, rfl⟩
  have hlen : (ctrXor Config.wired s.k2 (readBlock s rs1) (Memory.readBytes s.mem inBase s.inLen.toNat)).length =
      s.inLen.toNat := by rw [ctrXor_length, Memory.readBytes_length]
  have hfits := hlen.le.trans (hcap.trans (by decide : 4112 ≤ 4128))
  obtain ⟨-, hbytes, hbeyond⟩ := outputIs_setOut_withRes hfits s .ok
  rw [hlen] at hbeyond
  refine ⟨_, ctrWith_of_input Config.wired rs1 hkeyed hinput, fun i hi => ?bytes, hbeyond, ?outLen, rfl,
    frameOfOutput_setOut_withRes hfits s .ok⟩
  case bytes => rw [hbytes i (hlen.symm ▸ hi), getElem_ctrXor_readBytes]
  case outLen => rw [State.withRes_outLen, setOut_outLen, hlen, BitVec.ofNat_toNat, BitVec.setWidth_eq]

/-- Settles O25: legal lengths give both operands, and the sealed output of a full input just fits `OUT`. -/
theorem sealCommand : Obligations.SealCommand := by
  intro s hkeyed hlegal
  obtain ⟨L, hL⟩ := exists_items_of_lengthsLegal hlegal
  have hlen : (aeadSeal Config.wired s.k1 s.k2 L (Memory.readBytes s.mem inBase s.inLen.toNat)).length =
      s.inLen.toNat + 16 := by rw [aeadSeal_length, Memory.readBytes_length]
  have hfits := hlen.le.trans (Nat.add_le_add_right hlegal.input 16)
  have hout := outputIs_setOut_withRes hfits s .ok
  exact ⟨L, _, hL, sealWith_of_operands Config.wired hkeyed (input_of_lengthsLegal hlegal) hL, hout,
    hout.length.trans hlen, rfl, frameOfOutput_setOut_withRes hfits s .ok⟩

/-! ### OPEN -/

/-- Settles O26: the plaintext is 16 bytes shorter than the input, so it fits `OUT`. -/
theorem openCommandReturnsThePlaintext : Obligations.OpenCommandReturnsThePlaintext := by
  intro s L P hkeyed hlegal hL hP
  have hlen : P.length = s.inLen.toNat - 16 := by rw [aeadOpen_length hP, Memory.readBytes_length]
  have hfits : P.length ≤ 4128 := by
    have hcap := hlegal.input
    omega
  have hout := outputIs_setOut_withRes hfits s .ok
  exact ⟨_, openWith_of_accepted Config.wired hkeyed (input_of_lengthsLegal hlegal) hL hP, hout,
    hout.length.trans hlen, rfl, frameOfOutput_setOut_withRes hfits s .ok⟩

/-- Settles O27: a short input is rejected like any other, and OPEN ends in the `SetOut` of the empty string. -/
theorem openCommandRejects : Obligations.OpenCommandRejects := by
  intro s L hkeyed hlegal hL hrejected
  have hnone : aeadOpen Config.wired s.k1 s.k2 L (Memory.readBytes s.mem inBase s.inLen.toNat) = none := by
    rcases hrejected with hshort | hnone
    · exact aeadOpen_of_short (by rwa [Memory.readBytes_length])
    · exact hnone
  exact ⟨_, openWith_of_rejected Config.wired hkeyed (input_of_lengthsLegal hlegal) hL hnone,
    outputIs_setOut_withRes (Nat.zero_le _) s .authError, rfl,
    frameOfOutput_setOut_withRes (Nat.zero_le _) s .authError⟩

/-- `SetOut` of the empty string zeroes all of `OUT` (10_state.md R46). -/
theorem read_setOut_nil (s : State) {a : Nat} (ha : inOut a) : Memory.read (setOut [] s).mem a = 0x00#8 := by
  rw [read_setOut, dif_neg (by simp)]
  exact if_pos ha

/-- Settles O39: both ended in the `SetOut` of the empty string. -/
theorem failedOpenDisclosesNothing : Obligations.FailedOpenDisclosesNothing := by
  intro s s' t t' h h' hres hres'
  obtain rfl := eq_of_openWith_authError h hres
  obtain rfl := eq_of_openWith_authError h' hres'
  exact ⟨fun a ha => (read_setOut_nil s ha).trans (read_setOut_nil s' ha).symm, rfl, rfl, rfl⟩

/-! ### SEAL with the other commands -/

/-- The state after `s2v b0` ; `ctrseed b1, b0`, with the tag `V` (44_aead.md R192). -/
def withTagAndSeed (V : Block) (s : State) : State :=
  (((s.withBlock 0 V).withRes .ok).withBlock 1 (ctrseed V)).withRes .ok

theorem readBlock_withTagAndSeed_tag (V : Block) (s : State) : readBlock (withTagAndSeed V s) 0 = V := by
  simp [withTagAndSeed, readBlock_withBlock]

theorem readBlock_withTagAndSeed_seed (V : Block) (s : State) : readBlock (withTagAndSeed V s) 1 = ctrseed V := by
  simp [withTagAndSeed]

/-- CTRSEED b1, b0 after a tag was written to `B[0]` (43_iv_to_counter_seed.md R171). -/
theorem execCtrseed_of_tag (V : Block) (s : State) :
    execCtrseed 1 0 ((s.withBlock 0 V).withRes .ok) = .next (withTagAndSeed V s) := by
  rw [execCtrseed, readBlock_withRes, readBlock_withBlock_same]
  rfl

/-- CTR b1 from there takes the operands SEAL takes, and the seed of its tag (44_aead.md R186, R192). -/
theorem ctrWith_withTagAndSeed (C : Collaborators) (V : Block) {s : State} {P : Bytes} (hkeyed : s.keyed = true)
    (hP : input s = some P) : ctrWith C 1 (withTagAndSeed V s) =
      .next ((setOut (ctrXor C s.k2 (ctrseed V) P) (withTagAndSeed V s)).withRes .ok) := by
  have hctr := ctrWith_of_input C (s := withTagAndSeed V s) 1 hkeyed hP
  rwa [readBlock_withTagAndSeed_seed] at hctr

/-- Settles O57: S2V takes the operands of SEAL, and CTR the same input, since neither register command touches it. -/
theorem sealIsTheCompositionOfTheSmallerCommands : Obligations.SealIsTheCompositionOfTheSmallerCommands := by
  intro s t h hok
  obtain ⟨hkeyed, P, L, hP, hL, rfl⟩ := exists_operands_of_sealWith_ok h hok
  have hlen := input_length hP
  have hcap := input_length_le hP
  refine ⟨_, _, _, s2vWith_of_operands Config.wired 0 hkeyed hP hL, execCtrseed_of_tag _ s,
    ctrWith_withTagAndSeed Config.wired _ hkeyed hP, rfl, rfl, rfl, ?ctrLen, ?seed, rfl, ?sealLen, ?bytes⟩
  case ctrLen => rw [State.withRes_outLen, setOut_outLen, ctrXor_length, hlen, BitVec.ofNat_toNat, BitVec.setWidth_eq]
  case seed =>
    simp only [readBlock_withRes, readBlock_setOut, readBlock_withTagAndSeed_tag, readBlock_withTagAndSeed_seed]
  case sealLen =>
    rw [State.withRes_outLen, setOut_outLen, aeadSeal_length, hlen, BitVec.toNat_ofNat]
    omega
  case bytes =>
    rw [State.withRes_mem, State.withRes_mem, readBytes_setOut _ _ (by rw [aeadSeal_length, hlen]),
      readBytes_setOut _ _ (by rw [ctrXor_length, hlen]), aeadSeal, readBlock_withRes, readBlock_setOut,
      readBlock_withTagAndSeed_tag]

/-- Settles O58: OPEN's input is the sealed output, which `openUndoesSeal` opens. -/
theorem openAfterSealReturnsTheInput : Obligations.OpenAfterSealReturnsTheInput := by
  intro s t u h hok hkeys hitems hinput
  obtain ⟨hkeyed, P, L, hP, hL, rfl⟩ := exists_operands_of_sealWith_ok h hok
  have hcap := input_length_le hP
  have houtLen : ((setOut (aeadSeal Config.wired s.k1 s.k2 L P) s).withRes .ok).outLen.toNat =
      (aeadSeal Config.wired s.k1 s.k2 L P).length := by
    rw [State.withRes_outLen, setOut_outLen, BitVec.toNat_ofNat, aeadSeal_length]
    omega
  rw [State.withRes_mem, readBytes_setOut _ _ houtLen] at hinput
  have hopen : aeadOpen Config.wired u.k1 u.k2 L (aeadSeal Config.wired s.k1 s.k2 L P) = some P := by
    rw [hkeys.k1, hkeys.k2]
    exact openUndoesSeal Config.wired s.k1 s.k2 L P
  refine ⟨_, openWith_of_accepted Config.wired (hkeys.keyed.trans hkeyed) hinput (hitems.trans hL) hopen, rfl, ?_⟩
  rw [← ((input_eq_some_iff s P).mp hP).2]
  exact outputIs_setOut_withRes (hcap.trans (by decide)) u .ok

end Sys2Proof.Machine
end

section
/-! PROOFS. The keys and `STATUS`: NEW on every key material (44_aead.md R180, R188; 60_exceptions.md R246), and that nothing
but NEW and reset changes them (R189). -/

namespace Sys2Proof.Machine

/-! ### The staged key material -/

/-- The staged key material is what NEW accepts: of even length 2 to 64, both halves valid (44_aead.md R180). -/
structure AcceptableMaterial (C : Collaborators) (s : State) : Prop where
  even : s.kbufLen.toNat % 2 = 0
  pos : 1 ≤ s.kbufLen.toNat
  cap : s.kbufLen.toNat ≤ 64
  valid : StagedKeysValid C s

theorem take_readBytes (m : List Host.Cell) (base : Nat) {n k : Nat} (hk : k ≤ n) :
    (Memory.readBytes m base n).take k = Memory.readBytes m base k := by
  rw [Memory.readBytes, ← List.map_take, List.take_range, Nat.min_eq_left hk, Memory.readBytes]

theorem drop_readBytes (m : List Host.Cell) (base n k : Nat) :
    (Memory.readBytes m base n).drop k = Memory.readBytes m (base + k) (n - k) := by
  apply List.ext_getElem (by simp)
  intro i _ _
  simp [Nat.add_assoc]

theorem take_half_stagedKey (s : State) :
    (stagedKey s s.kbufLen.toNat).take (s.kbufLen.toNat / 2) = stagedHashKey s :=
  take_readBytes _ _ (Nat.div_le_self ..)

theorem drop_half_stagedKey {s : State} (heven : s.kbufLen.toNat % 2 = 0) :
    (stagedKey s s.kbufLen.toNat).drop (s.kbufLen.toNat / 2) = stagedCipherKey s := by
  have hhalf : s.kbufLen.toNat - s.kbufLen.toNat / 2 = s.kbufLen.toNat / 2 := by omega
  rw [stagedKey, drop_readBytes, hhalf]

/-- `split` accepts the staged key material exactly when it is acceptable, and gives its halves (44_aead.md R180). -/
theorem splitKey_stagedKey_eq_some_iff (C : Collaborators) (s : State) (a z : Bytes) :
    splitKey C (stagedKey s s.kbufLen.toNat) = some (a, z) ↔
      AcceptableMaterial C s ∧ a = stagedHashKey s ∧ z = stagedCipherKey s := by
  have hlen : (stagedKey s s.kbufLen.toNat).length = s.kbufLen.toNat := Memory.readBytes_length ..
  rw [splitKey_eq_some_iff, hlen, take_half_stagedKey]
  constructor
  · rintro ⟨heven, hpos, hcap, rfl, rfl, ha, hz⟩
    rw [drop_half_stagedKey heven] at hz ⊢
    exact ⟨⟨heven, hpos, hcap, ha, hz⟩, rfl, rfl⟩
  · rintro ⟨⟨heven, hpos, hcap, ha, hz⟩, rfl, rfl⟩
    exact ⟨heven, hpos, hcap, rfl, (drop_half_stagedKey heven).symm, ha, hz⟩

/-! ### NEW -/

theorem read_eraseInstance_kbuf (s : State) {a : Nat} (ha : inKbuf a) :
    Memory.read (eraseInstance s).mem a = 0x00#8 := by
  rw [read_eraseInstance]
  exact if_pos ha

/-- The erasure of NEW touches no byte outside `KBUF` and nothing of the rest (44_aead.md R188). -/
theorem frameOfInstance_eraseInstance (s : State) : FrameOfInstance s (eraseInstance s) where
  host := ⟨rfl, rfl, rfl, rfl, rfl, rfl⟩
  outLen := rfl
  blocks _ := rfl
  bytes a ha := by
    rw [read_eraseInstance]
    exact if_neg ha

theorem instanceRefused_eraseInstance (s : State) : InstanceRefused s ((eraseInstance s).withRes .keyError) where
  k1 := rfl
  k2 := rfl
  keyed := rfl
  klen := rfl
  kbufLen := rfl
  kbuf _ ha := read_eraseInstance_kbuf s ha
  res := rfl
  frame := { frameOfInstance_eraseInstance s with host := { (frameOfInstance_eraseInstance s).host with } }

/-- What NEW loads; `KLEN` is wide enough for half of any staged length (44_aead.md R188). -/
theorem instanceLoaded_loadInstance (s : State) : InstanceLoaded s
    ((loadInstance (stagedHashKey s) (stagedCipherKey s) (s.kbufLen.toNat / 2) (eraseInstance s)).withRes .ok) where
  k1 := rfl
  k2 := rfl
  keyed := rfl
  klen := by
    have hfits : s.kbufLen.toNat / 2 < 2 ^ 8 := (Nat.div_le_self ..).trans_lt s.kbufLen.isLt
    exact (BitVec.toNat_ofNat ..).trans (Nat.mod_eq_of_lt hfits)
  kbufLen := rfl
  kbuf _ ha := read_eraseInstance_kbuf s ha
  res := rfl
  frame := { frameOfInstance_eraseInstance s with host := { (frameOfInstance_eraseInstance s).host with } }

/-- NEW ends from every state, in any build: it loads acceptable key material and refuses any other (44_aead.md
R188). -/
theorem newWith_loads_or_refuses (C : Collaborators) (s : State) : ∃ t, newWith C s = .next t ∧
    (AcceptableMaterial C s → InstanceLoaded s t) ∧ (¬AcceptableMaterial C s → InstanceRefused s t) := by
  rcases newWith_cases C s with ⟨hbad, hnext⟩ | ⟨a, z, -, hsplit, hnext⟩
  · have hrefused : ¬AcceptableMaterial C s := by
      intro hgood
      rcases hbad with hlong | hnone
      · exact Nat.not_le.mpr hlong hgood.cap
      · rw [(splitKey_stagedKey_eq_some_iff C s _ _).mpr ⟨hgood, rfl, rfl⟩] at hnone
        cases hnone
    exact ⟨_, hnext, fun hgood => absurd hgood hrefused, fun _ => instanceRefused_eraseInstance s⟩
  · obtain ⟨hgood, rfl, rfl⟩ := (splitKey_stagedKey_eq_some_iff C s a z).mp hsplit
    exact ⟨_, hnext, fun _ => instanceLoaded_loadInstance s, fun hbad => absurd hgood hbad⟩

/-- Settles O28: on such a length the material is acceptable exactly when both halves are valid. -/
theorem newCommandLoadsTheKeys : Obligations.NewCommandLoadsTheKeys := by
  refine ⟨fun s heven hpos hcap => ?machine, fun C s heven hpos hcap hvalid => ?build⟩
  case machine =>
    obtain ⟨t, hnext, hloads, hrefuses⟩ := newWith_loads_or_refuses Config.wired s
    exact ⟨t, hnext, fun hvalid => hloads ⟨heven, hpos, hcap, hvalid⟩,
      fun hinvalid => hrefuses fun hgood => hinvalid hgood.valid⟩
  case build =>
    obtain ⟨t, hnext, hloads, -⟩ := newWith_loads_or_refuses C s
    exact ⟨t, hnext, hloads ⟨heven, hpos, hcap, hvalid⟩⟩

/-- Settles O29: each cause contradicts one clause of `AcceptableMaterial`. -/
theorem newCommandRefusesBadKeys : Obligations.NewCommandRefusesBadKeys := by
  refine ⟨exec_eq_execWith .newKey, fun C s hcause => ?_⟩
  obtain ⟨t, hnext, -, hrefuses⟩ := newWith_loads_or_refuses C s
  refine ⟨t, hnext, hrefuses fun ⟨heven, hpos, hcap, hhash, hcipher⟩ => ?_⟩
  rcases hcause with hodd | hempty | hlong | hhash' | hcipher'
  · omega
  · omega
  · omega
  · exact Bool.false_ne_true (hhash'.symm.trans hhash)
  · exact Bool.false_ne_true (hcipher'.symm.trans hcipher)

/-! ### Steps that keep the keys and `STATUS` -/

/-- A command other than NEW, in any build, changes neither the keys nor `STATUS` (44_aead.md R189). -/
theorem execWith_sameInstance {C : Collaborators} {i : Instr} {s t : State} (hi : i ≠ .newKey)
    (h : execWith C i s = .next t) : SameInstance s t := by
  rcases execWith_cases h with ⟨c, -, rfl⟩ | ⟨rd, v, -, rfl⟩ | ⟨X, c, -, -, rfl⟩ | ⟨hnew, -⟩ | ⟨hnew, -⟩
  · exact ⟨rfl, rfl, rfl, rfl⟩
  · exact ⟨rfl, rfl, rfl, rfl⟩
  · exact ⟨rfl, rfl, rfl, rfl⟩
  · exact absurd hnew hi
  · exact absurd hnew hi

/-- A word other than NEW's, written to `CMD`, changes neither the keys nor `STATUS` (44_aead.md R189). -/
theorem runCommand_sameInstance {w : Word} {s t : State} (hw : w ≠ encode .newKey) (h : runCommand w s = .next t) :
    SameInstance s t := by
  rcases runCommand_cases w s with ⟨_, -, hrun⟩ | ⟨i, hd, hrun⟩
  · obtain rfl := Host.Outcome.next.inj (hrun.symm.trans h)
    exact ⟨rfl, rfl, rfl, rfl⟩
  · have hi : i ≠ .newKey := by
      rintro rfl
      exact hw (encodeUndoesDecode w _ hd).symm
    exact execWith_sameInstance hi ((exec_eq_execWith i s).symm.trans (hrun.symm.trans h))

/-- An answer to the host and an event taken touch neither the keys nor `STATUS`. -/
theorem sameInstance_respond_withPending {s u : State} {rest : List HostEvent}
    (h : SameInstance (s.withPending rest) u) (r : Response) : SameInstance s (u.respond r) :=
  ⟨h.k1, h.k2, h.keyed, h.klen⟩

/-- Settles O51: of the cases of `step_cases` an answer and a store keep them, and so does a command whose word is not
NEW's. -/
theorem onlyNewAndResetChangeTheInstance : Obligations.OnlyNewAndResetChangeTheInstance := by
  intro s t e rest hp h hreset hnew
  rcases step_cases h with ⟨hidle, -⟩ | ⟨e', rest', hp', hcases⟩
  · rw [hp] at hidle
    cases hidle
  obtain ⟨rfl, rfl⟩ := List.cons.inj (hp.symm.trans hp')
  rcases hcases with ⟨r, rfl⟩ | ⟨w, u, rfl, hu, rfl⟩ | ⟨n, a, v, rfl⟩ | ⟨rfl, -⟩
  · exact ⟨rfl, rfl, rfl, rfl⟩
  · exact sameInstance_respond_withPending (runCommand_sameInstance (fun hw => hnew (congrArg cmdWrite hw)) hu) _
  · exact sameInstance_respond_withPending (storeWrite_frame n a v _).1 _
  · exact absurd rfl hreset

end Sys2Proof.Machine
end

section
/-! PROOFS. How many calls of `H` and of `E` each command makes, and under which key (45_collaborators.md R227,
44_aead.md R182). -/

namespace Sys2Proof.Machine

/-! ### Counting calls -/

@[simp] theorem hashCalls_append (l l' : List Call) : hashCalls (l ++ l') = hashCalls l + hashCalls l' :=
  List.countP_append

@[simp] theorem cipherCalls_append (l l' : List Call) : cipherCalls (l ++ l') = cipherCalls l + cipherCalls l' :=
  List.countP_append

@[simp] theorem hashCalls_hash_cons (K M : Bytes) (l : List Call) :
    hashCalls (.hash K M :: l) = hashCalls l + 1 :=
  List.countP_cons_of_pos rfl

@[simp] theorem cipherCalls_hash_cons (K M : Bytes) (l : List Call) :
    cipherCalls (.hash K M :: l) = cipherCalls l :=
  List.countP_cons_of_neg Bool.false_ne_true

@[simp] theorem hashCalls_nil : hashCalls [] = 0 := rfl

@[simp] theorem cipherCalls_nil : cipherCalls [] = 0 := rfl

@[simp] theorem hashCalls_map_hash (K : Bytes) (Xs : List Bytes) : hashCalls (Xs.map (Call.hash K)) = Xs.length :=
  List.countP_map.trans (congrFun List.countP_true Xs)

@[simp] theorem cipherCalls_map_hash (K : Bytes) (Xs : List Bytes) : cipherCalls (Xs.map (Call.hash K)) = 0 :=
  List.countP_map.trans (congrFun List.countP_false Xs)

/-- One call for the zero block, one for each present item, one for `T` (42_s2v.md R154). -/
@[simp] theorem hashCalls_s2vCalls (C : Collaborators) (K1 : Bytes) (L : List Item) (P : Bytes) :
    hashCalls (s2vCalls C K1 L P) = 2 + (presentItems L).length := by
  rw [s2vCalls, hashCalls_hash_cons, hashCalls_append, hashCalls_map_hash, hashCalls_hash_cons, hashCalls_nil]
  omega

@[simp] theorem cipherCalls_s2vCalls (C : Collaborators) (K1 : Bytes) (L : List Item) (P : Bytes) :
    cipherCalls (s2vCalls C K1 L P) = 0 := by
  rw [s2vCalls, cipherCalls_hash_cons, cipherCalls_append, cipherCalls_map_hash, cipherCalls_hash_cons,
    cipherCalls_nil]

@[simp] theorem hashCalls_keystreamCalls (K2 : Bytes) (Q : Block) (n : Nat) :
    hashCalls (keystreamCalls K2 Q n) = 0 :=
  List.countP_map.trans (congrFun List.countP_false _)

/-- One call for each counter block (44_aead.md R184). -/
@[simp] theorem cipherCalls_keystreamCalls (K2 : Bytes) (Q : Block) (n : Nat) :
    cipherCalls (keystreamCalls K2 Q n) = (n + 15) / 16 :=
  (List.countP_map.trans (congrFun List.countP_true _)).trans List.length_range

/-! ### The keys of the calls -/

/-- A call of `H` is under `K1` and one of `E` under `K2` (44_aead.md R182). -/
def Call.UnderKeys (K1 K2 : Bytes) : Call → Prop
  | .hash K _ => K = K1
  | .cipher K _ => K = K2
  | .keyCheck _ => True

theorem s2vCalls_underKeys (C : Collaborators) (K1 K2 : Bytes) (L : List Item) (P : Bytes) :
    ∀ c ∈ s2vCalls C K1 L P, c.UnderKeys K1 K2 := by
  simp [s2vCalls, Call.UnderKeys, or_imp, forall_and]

theorem keystreamCalls_underKeys (K1 K2 : Bytes) (Q : Block) (n : Nat) :
    ∀ c ∈ keystreamCalls K2 Q n, c.UnderKeys K1 K2 := by
  simp [keystreamCalls, Call.UnderKeys]

/-- Every call a command makes is under the key of its role in the state (44_aead.md R182). -/
theorem calls_underKeys (C : Collaborators) (i : Instr) (s : State) : ∀ c ∈ calls C i s, c.UnderKeys s.k1 s.k2 := by
  cases i with
  | dbl | xor | xorend | pad | ctrseed => exact List.forall_mem_nil _
  | ctr rs1 =>
    rw [calls]
    split
    · exact keystreamCalls_underKeys _ _ _ _
    · exact List.forall_mem_nil _
  | s2v rd =>
    rw [calls]
    split
    · exact s2vCalls_underKeys _ _ _ _ _
    · exact List.forall_mem_nil _
  | newKey =>
    rw [calls]
    split
    · exact List.forall_mem_nil _
    · exact List.forall_mem_cons.mpr ⟨trivial, List.forall_mem_singleton.mpr trivial⟩
  | sealMsg =>
    rw [calls]
    split
    · exact List.forall_mem_append.mpr ⟨s2vCalls_underKeys _ _ _ _ _, keystreamCalls_underKeys _ _ _ _⟩
    · exact List.forall_mem_nil _
  | openMsg =>
    rw [calls]
    split
    · split
      · exact List.forall_mem_nil _
      · exact List.forall_mem_append.mpr ⟨keystreamCalls_underKeys _ _ _ _, s2vCalls_underKeys _ _ _ _ _⟩
    · exact List.forall_mem_nil _

/-! ### The commands -/

/-- OPEN of an input without a whole tag makes no call (45_collaborators.md R227). -/
theorem calls_openMsg_of_short (C : Collaborators) {s : State} {S : Bytes} (hS : input s = some S)
    (hshort : S.length < 16) : calls C .openMsg s = [] := by
  rw [calls, hS]
  split
  · next hS' _ =>
    obtain rfl := Option.some.inj hS'
    exact if_pos hshort
  · rfl

/-- Settles O59: the counts are those of `s2vCalls` and `keystreamCalls`, of which each command's calls are made. -/
theorem callCounts : Obligations.CallCounts := by
  intro C rd rs1 rs2 s
  have hinput (hcap : s.inLen.toNat ≤ 4112) : ∃ M, input s = some M ∧ M.length = s.inLen.toNat :=
    ⟨_, (input_eq_some_iff s _).mpr ⟨hcap, rfl⟩, Memory.readBytes_length ..⟩
  refine ⟨?noCalls, fun heven hpos hcap => ?new, fun hk hcap => ?ctr, fun L hk hcap hL => ?construction,
    fun i => ⟨fun K M => calls_underKeys C i s (.hash K M), fun K X => calls_underKeys C i s (.cipher K X)⟩⟩
  case noCalls => simp [calls]
  case new =>
    rw [calls_newKey C (by omega) (by omega) hcap]
    exact ⟨rfl, rfl, rfl⟩
  case ctr =>
    obtain ⟨M, hM, hlen⟩ := hinput hcap
    rw [calls_ctr C rs1 hk hM, ← hlen]
    exact ⟨hashCalls_keystreamCalls .., cipherCalls_keystreamCalls ..⟩
  case construction =>
    obtain ⟨M, hM, hlen⟩ := hinput hcap
    rw [calls_s2v C rd hk hM hL, calls_sealMsg C hk hM hL, ← hlen]
    refine ⟨by simp, by simp, by simp, by simp, fun h16 => ?_, calls_openMsg_of_short C hM⟩
    rw [calls_openMsg C hk hM hL h16]
    exact ⟨by simp, by simp, _, _, rfl, hashCalls_keystreamCalls .., cipherCalls_s2vCalls ..⟩

end Sys2Proof.Machine
end

section
/-! PROOFS. The faults of the commands: the order of the checks, the code each command ends with, and what a fault
leaves (60_exceptions.md R242 to R252). -/

namespace Sys2Proof.Machine

/-! ### The checks -/

/-- The command needs a key and there is none: the check of `NOT_KEYED` fires (60_exceptions.md R242). -/
def KeyMissing (i : Instr) (s : State) : Prop := needsKey i = true ∧ s.keyed = false

/-- The condition of the command's row in the table of `LEN_ERROR` (60_exceptions.md R245). -/
def LengthRefused (s : State) : Instr → Prop
  | .xorend _ => 4112 < s.inLen.toNat ∨ s.inLen.toNat < 16
  | .pad _ => 16 ≤ s.inLen.toNat
  | .ctr _ => 4112 < s.inLen.toNat
  | .s2v _ | .sealMsg | .openMsg => ¬LengthsLegal s
  | .dbl _ _ | .xor _ _ _ | .ctrseed _ _ | .newKey => False

/-- How a command ends: by the first check that fires, in the order of 60_exceptions.md R243, or by what it does when
none fires; only NEW and OPEN can still fail then (R246, R247). -/
inductive Ends : Instr → State → State → Prop
  | notKeyed {i : Instr} {s : State} (hkey : KeyMissing i s) : Ends i s (s.withRes .notKeyed)
  | lenError {i : Instr} {s : State} (hkey : ¬KeyMissing i s) (hlen : LengthRefused s i) :
      Ends i s (s.withRes .lenError)
  | keyError {s : State} : Ends .newKey s ((eraseInstance s).withRes .keyError)
  | authError {s : State} (hkey : ¬KeyMissing .openMsg s) (hlen : ¬LengthRefused s .openMsg) :
      Ends .openMsg s ((setOut [] s).withRes .authError)
  | ok {i : Instr} {s t : State} (hkey : ¬KeyMissing i s) (hlen : ¬LengthRefused s i) (hok : t.res = .ok) : Ends i s t

section
variable {i : Instr} {s : State}

theorem not_keyMissing_of_needsKey (h : needsKey i = false) : ¬KeyMissing i s := fun hkey =>
  Bool.false_ne_true (h.symm.trans hkey.1)

theorem not_keyMissing_of_keyed (h : s.keyed = true) : ¬KeyMissing i s := fun hkey =>
  Bool.false_ne_true (hkey.2.symm.trans h)

/-- The lengths are legal when both operands have a value (60_exceptions.md R245). -/
theorem lengthsLegal_of_operands {P : Bytes} {L : List Item} (hP : input s = some P) (hL : items s = some L) :
    LengthsLegal s := by
  have hitems : items s ≠ none := by simp [hL]
  rw [Ne, items_eq_none_iff, not_or, not_or] at hitems
  obtain ⟨hcount, hslots, hnonce⟩ := hitems
  exact ⟨((input_eq_some_iff s P).mp hP).1, Nat.not_lt.mp hcount,
    fun i hi hpresent => Nat.not_lt.mp fun hlong => hslots ⟨i, hi, hpresent, hlong⟩,
    fun hpresent => Nat.not_lt.mp fun hlong => hnonce ⟨hpresent, hlong⟩⟩

/-- The last row of 60_exceptions.md R245: a length is refused exactly when an operand has no value. -/
theorem not_lengthsLegal_iff : ¬LengthsLegal s ↔ input s = none ∨ items s = none := by
  constructor
  · intro hbad
    by_contra hnone
    obtain ⟨hinput, hitems⟩ := not_or.mp hnone
    obtain ⟨P, hP⟩ := Option.ne_none_iff_exists'.mp hinput
    obtain ⟨L, hL⟩ := Option.ne_none_iff_exists'.mp hitems
    exact hbad (lengthsLegal_of_operands hP hL)
  · intro hnone hlegal
    obtain ⟨L, hL⟩ := exists_items_of_lengthsLegal hlegal
    simp [input_of_lengthsLegal hlegal, hL] at hnone

end

/-- Every command ends from every state, in any build, by the first check that fires or without one. -/
theorem exists_ends_execWith (C : Collaborators) (i : Instr) (s : State) :
    ∃ t, execWith C i s = .next t ∧ Ends i s t := by
  cases i with
  | dbl | xor | ctrseed => exact ⟨_, rfl, .ok (not_keyMissing_of_needsKey rfl) not_false rfl⟩
  | xorend rs1 =>
    rcases execXorend_cases rs1 s with ⟨hnext, hbad⟩ | ⟨M, hM, hlong, hnext⟩ <;>
      refine ⟨_, hnext, ?_⟩
    · exact .lenError (not_keyMissing_of_needsKey rfl) (by rwa [input_eq_none_iff] at hbad)
    · have hcap := input_length_le hM
      rw [input_length hM] at hlong hcap
      exact .ok (not_keyMissing_of_needsKey rfl) (by simp only [LengthRefused]; omega) rfl
  | pad rd =>
    rcases execPad_cases rd s with ⟨hnext, hbad⟩ | ⟨M, hM, hshort, hnext⟩ <;>
      refine ⟨_, hnext, ?_⟩
    · rw [input_eq_none_iff] at hbad
      exact .lenError (not_keyMissing_of_needsKey rfl) (by simp only [LengthRefused]; omega)
    · rw [input_length hM] at hshort
      exact .ok (not_keyMissing_of_needsKey rfl) (Nat.not_le.mpr hshort) rfl
  | ctr rs1 =>
    rcases ctrWith_cases C rs1 s with ⟨hk, hnext⟩ | ⟨hk, hnone, hnext⟩ | ⟨hk, M, hM, hnext⟩ <;>
      refine ⟨_, hnext, ?_⟩
    · exact .notKeyed ⟨rfl, hk⟩
    · exact .lenError (not_keyMissing_of_keyed hk) ((input_eq_none_iff s).mp hnone)
    · exact .ok (not_keyMissing_of_keyed hk) (Nat.not_lt.mpr ((input_eq_some_iff s M).mp hM).1) rfl
  | s2v rd =>
    rcases s2vWith_cases C rd s with ⟨hk, hnext⟩ | ⟨hk, hnone, hnext⟩ | ⟨hk, P, L, hP, hL, hnext⟩ <;>
      refine ⟨_, hnext, ?_⟩
    · exact .notKeyed ⟨rfl, hk⟩
    · exact .lenError (not_keyMissing_of_keyed hk) (not_lengthsLegal_iff.mpr hnone)
    · exact .ok (not_keyMissing_of_keyed hk) (not_not_intro (lengthsLegal_of_operands hP hL)) rfl
  | newKey =>
    rcases newWith_cases C s with ⟨-, hnext⟩ | ⟨a, z, -, -, hnext⟩ <;>
      refine ⟨_, hnext, ?_⟩
    · exact .keyError
    · exact .ok (not_keyMissing_of_needsKey rfl) not_false rfl
  | sealMsg =>
    rcases sealWith_cases C s with ⟨hk, hnext⟩ | ⟨hk, hnone, hnext⟩ | ⟨hk, P, L, hP, hL, hnext⟩ <;>
      refine ⟨_, hnext, ?_⟩
    · exact .notKeyed ⟨rfl, hk⟩
    · exact .lenError (not_keyMissing_of_keyed hk) (not_lengthsLegal_iff.mpr hnone)
    · exact .ok (not_keyMissing_of_keyed hk) (not_not_intro (lengthsLegal_of_operands hP hL)) rfl
  | openMsg =>
    rcases openWith_cases C s with
      ⟨hk, hnext⟩ | ⟨hk, hnone, hnext⟩ | ⟨hk, P, L, hP, hL, ⟨-, hnext⟩ | ⟨P', -, hnext⟩⟩ <;>
      refine ⟨_, hnext, ?_⟩
    · exact .notKeyed ⟨rfl, hk⟩
    · exact .lenError (not_keyMissing_of_keyed hk) (not_lengthsLegal_iff.mpr hnone)
    · exact .authError (not_keyMissing_of_keyed hk) (not_not_intro (lengthsLegal_of_operands hP hL))
    · exact .ok (not_keyMissing_of_keyed hk) (not_not_intro (lengthsLegal_of_operands hP hL)) rfl

theorem exists_ends (i : Instr) (s : State) : ∃ t, exec i s = .next t ∧ Ends i s t :=
  exec_eq_execWith i s ▸ exists_ends_execWith Config.wired i s

/-! ### What the checks decide -/

section
variable {i : Instr} {s t : State}

theorem ends_of_exec (h : exec i s = .next t) : Ends i s t := by
  obtain ⟨t', h', hends⟩ := exists_ends i s
  exact Host.Outcome.next.inj (h'.symm.trans h) ▸ hends

/-- The code is `NOT_KEYED` exactly when the key is missing (60_exceptions.md R242). -/
theorem Ends.res_eq_notKeyed_iff (h : Ends i s t) : t.res = .notKeyed ↔ KeyMissing i s := by
  cases h with
  | notKeyed hkey => exact iff_of_true rfl hkey
  | lenError hkey => exact iff_of_false nofun hkey
  | keyError => exact iff_of_false nofun (not_keyMissing_of_needsKey rfl)
  | authError hkey => exact iff_of_false nofun hkey
  | ok hkey _ hok => exact iff_of_false (by simp [hok]) hkey

/-- The code is `LEN_ERROR` exactly when no key is missing and the table refuses a length (60_exceptions.md R243,
R245). -/
theorem Ends.res_eq_lenError_iff (h : Ends i s t) : t.res = .lenError ↔ ¬KeyMissing i s ∧ LengthRefused s i := by
  cases h with
  | notKeyed hkey => exact iff_of_false nofun fun h => h.1 hkey
  | lenError hkey hlen => exact iff_of_true rfl ⟨hkey, hlen⟩
  | keyError => exact iff_of_false nofun And.right
  | authError _ hlen => exact iff_of_false nofun fun h => hlen h.2
  | ok _ hlen hok => exact iff_of_false (by simp [hok]) fun h => hlen h.2

/-- A command that misses its key changes nothing but `RES`, whatever the lengths are (60_exceptions.md R242, R243). -/
theorem exec_of_keyMissing (hkey : KeyMissing i s) : exec i s = .next (s.withRes .notKeyed) := by
  obtain ⟨t, hnext, hends⟩ := exists_ends i s
  cases hends with
  | notKeyed => exact hnext
  | lenError hkey' => exact absurd hkey hkey'
  | keyError => exact absurd hkey (not_keyMissing_of_needsKey rfl)
  | authError hkey' => exact absurd hkey hkey'
  | ok hkey' => exact absurd hkey hkey'

/-- A command with a refused length changes nothing but `RES` (60_exceptions.md R243, R245). -/
theorem exec_of_lengthRefused (hkey : ¬KeyMissing i s) (hlen : LengthRefused s i) :
    exec i s = .next (s.withRes .lenError) := by
  obtain ⟨t, hnext, hends⟩ := exists_ends i s
  cases hends with
  | notKeyed hkey' => exact absurd hkey' hkey
  | lenError => exact hnext
  | keyError => exact hlen.elim
  | authError _ hlen' => exact absurd hlen hlen'
  | ok _ hlen' => exact absurd hlen hlen'

end

/-- Settles O33: the four commands miss their key, and the code says so of no other. -/
theorem unkeyedCommandsRaiseNotKeyed : Obligations.UnkeyedCommandsRaiseNotKeyed := by
  refine ⟨rfl, fun rd rs1 s hk => ?unkeyed, fun i s t hneeds h hres => ?other⟩
  case unkeyed =>
    exact ⟨exec_of_keyMissing ⟨rfl, hk⟩, exec_of_keyMissing ⟨rfl, hk⟩, exec_of_keyMissing ⟨rfl, hk⟩,
      exec_of_keyMissing ⟨rfl, hk⟩⟩
  case other => exact not_keyMissing_of_needsKey hneeds ((ends_of_exec h).res_eq_notKeyed_iff.mp hres)

/-- Settles O34: each row is a row of `LengthRefused`; the short input of OPEN is `openCommandRejects`. -/
theorem lenErrorTable : Obligations.LenErrorTable := by
  refine ⟨rfl, fun rs1 s hbad => ?xorend, fun rd s hlong => ?pad, fun rs1 s hk hlong => ?ctr,
    fun i s hi hk hbad => ?items, fun s hk hlegal hshort => ?openShort, fun i s t hi h hres => ?never⟩
  case xorend => exact exec_of_lengthRefused (not_keyMissing_of_needsKey rfl) hbad
  case pad => exact exec_of_lengthRefused (not_keyMissing_of_needsKey rfl) hlong
  case ctr => exact exec_of_lengthRefused (not_keyMissing_of_keyed hk) hlong
  case items =>
    refine exec_of_lengthRefused (not_keyMissing_of_keyed hk) ?_
    rcases hi with ⟨rd, rfl⟩ | rfl | rfl <;> exact hbad
  case openShort =>
    obtain ⟨L, hL⟩ := exists_items_of_lengthsLegal hlegal
    obtain ⟨t, hnext, -, hres, -⟩ := openCommandRejects s L hk hlegal hL (.inl hshort)
    exact ⟨t, hnext, hres⟩
  case never =>
    have hlen := ((ends_of_exec h).res_eq_lenError_iff.mp hres).2
    rcases hi with ⟨rd, rs1, rfl⟩ | ⟨rd, rs1, rs2, rfl⟩ | ⟨rd, rs1, rfl⟩ | rfl <;> exact hlen

/-! ### The codes a command can end with -/

theorem ok_mem_endCodes (i : Instr) : Code.ok ∈ endCodes i := by cases i <;> simp [endCodes]

theorem notKeyed_mem_endCodes {i : Instr} (h : needsKey i = true) : Code.notKeyed ∈ endCodes i := by
  cases i with
  | ctr | s2v | sealMsg | openMsg => simp [endCodes]
  | dbl | xor | xorend | pad | ctrseed | newKey => cases h

theorem lenError_mem_endCodes {i : Instr} {s : State} (h : LengthRefused s i) : Code.lenError ∈ endCodes i := by
  cases i with
  | xorend | pad | ctr | s2v | sealMsg | openMsg => simp [endCodes]
  | dbl | xor | ctrseed | newKey => exact h.elim

/-- Settles O35: the code of each way to end is in the command's row. -/
theorem everyCommandEndsWithAnAllowedCode : Obligations.EveryCommandEndsWithAnAllowedCode := by
  intro i s
  obtain ⟨t, hnext, hends⟩ := exists_ends i s
  refine ⟨t, hnext, ?_⟩
  cases hends with
  | notKeyed hkey => exact notKeyed_mem_endCodes hkey.1
  | lenError _ hlen => exact lenError_mem_endCodes hlen
  | keyError => simp [endCodes]
  | authError => simp [endCodes]
  | ok _ _ hok => exact hok ▸ ok_mem_endCodes i

/-! ### What the checks read -/

/-- The two states agree on what the keyed check and the length check read: `KEYED`, the counts and the lengths
(60_exceptions.md R243). -/
structure SameChecked (s s' : State) : Prop where
  keyed : s'.keyed = s.keyed
  adcnt : s'.adcnt = s.adcnt
  adctl : s'.adctl = s.adctl
  nonceCtl : s'.nonceCtl = s.nonceCtl
  inLen : s'.inLen = s.inLen

namespace SameChecked

variable {s s' : State} (h : SameChecked s s')
include h

theorem keyMissing_iff (i : Instr) : KeyMissing i s' ↔ KeyMissing i s := by
  simp only [KeyMissing, h.keyed]

theorem lengthRefused_iff (i : Instr) : LengthRefused s' i ↔ LengthRefused s i := by
  cases i with
  | xorend | pad | ctr => simp only [LengthRefused, h.inLen]
  | s2v | sealMsg | openMsg =>
    simp only [LengthRefused, not_lengthsLegal_iff, input_eq_none_iff, items_eq_none_iff, h.inLen, h.adcnt, h.adctl,
      h.nonceCtl]
  | dbl | xor | ctrseed | newKey => exact Iff.rfl

end SameChecked

theorem sameChecked_withRes (s : State) (c : Code) : SameChecked s (s.withRes c) := ⟨rfl, rfl, rfl, rfl, rfl⟩

/-- Settles O36: the order is that of `Ends`, and both checks depend on `SameChecked` alone. -/
theorem checksComeInOrder : Obligations.ChecksComeInOrder := by
  refine ⟨fun w e s hd => runCommand_of_illegal hd s, fun w i s hd hneeds hk => ?unkeyed,
    fun s hk hbad _ => ?openBad, fun i s s' t t' hkeyed hadcnt hadctl hnonce hinLen ht ht' => ?reads⟩
  case unkeyed => exact (runCommand_of_decode hd s).trans (exec_of_keyMissing ⟨hneeds, hk⟩)
  case openBad =>
    exact (runCommand_of_decode (decodeUndoesEncode .openMsg) s).trans
      (exec_of_lengthRefused (not_keyMissing_of_keyed hk) hbad)
  case reads =>
    have hsame : SameChecked s s' := ⟨hkeyed, hadcnt, hadctl, hnonce, hinLen⟩
    have hends := ends_of_exec ht
    have hends' := ends_of_exec ht'
    rw [hends.res_eq_notKeyed_iff, hends'.res_eq_notKeyed_iff, hends.res_eq_lenError_iff, hends'.res_eq_lenError_iff,
      hsame.keyMissing_iff, hsame.lengthRefused_iff]
    exact ⟨Iff.rfl, Iff.rfl⟩

/-! ### What a fault leaves -/

/-- Settles O37: the two ways to end with a fault code that are no check are NEW's and OPEN's. -/
theorem faultsArePrecise : Obligations.FaultsArePrecise := by
  intro i s t h hfault
  cases ends_of_exec h with
  | notKeyed => exact .inl rfl
  | lenError => exact .inl rfl
  | keyError => exact .inr (.inl ⟨rfl, rfl, (instanceRefused_eraseInstance s).frame⟩)
  | authError => exact .inr (.inr ⟨rfl, rfl, frameOfOutput_setOut_withRes (Nat.zero_le _) s .authError⟩)
  | ok _ _ hok => exact absurd hok hfault

/-! ### The same command again -/

theorem Memory.clear_clear (m : List Host.Cell) (base n : Nat) :
    Memory.clear (Memory.clear m base n) base n = Memory.clear m base n := by
  simp only [Memory.clear, List.filter_filter, Bool.and_self]

theorem eraseInstance_eraseInstance (s : State) (c : Code) :
    (eraseInstance ((eraseInstance s).withRes c)).withRes c = (eraseInstance s).withRes c :=
  congrArg (fun m => ((eraseInstance s).withMem m).withRes c) (Memory.clear_clear s.mem kbufBase Config.kbufCap)

theorem setOut_nil_setOut_nil (s : State) (c : Code) :
    (setOut [] ((setOut [] s).withRes c)).withRes c = (setOut [] s).withRes c :=
  congrArg (fun m => ((setOut [] s).withMem m).withRes c) (Memory.clear_clear s.mem outBase Config.outCap)

/-- NEW with nothing staged ends `KEY_ERROR` (44_aead.md R180, R188). -/
theorem newWith_of_kbufLen_zero (C : Collaborators) {s : State} (h : s.kbufLen = 0#8) :
    newWith C s = .next ((eraseInstance s).withRes .keyError) := by
  rcases newWith_cases C s with ⟨-, hnext⟩ | ⟨a, z, -, hsplit, -⟩
  · exact hnext
  · have hpos := ((splitKey_stagedKey_eq_some_iff C s a z).mp hsplit).1.pos
    simp [h] at hpos

/-- Zeroing `OUT` changes neither operand of a state with legal lengths (10_state.md R44, R45). -/
theorem operands_setOut_nil {s : State} (hlegal : LengthsLegal s) (c : Code) :
    input ((setOut [] s).withRes c) = input s ∧ items ((setOut [] s).withRes c) = items s := by
  have hkept : ∀ a, a < outBase → Memory.read ((setOut [] s).withRes c).mem a = Memory.read s.mem a := fun a ha =>
    read_setOut_outside (Nat.zero_le _) s fun hout => Nat.not_le.mpr ha hout.1
  refine unusedBytesHaveNoEffect s _ rfl rfl rfl rfl (fun j hj => hkept _ ?input)
    (fun i j hi hpresent hj => hkept _ ?slot) fun hpresent j hj => hkept _ ?nonce
  case input =>
    have hcap := hlegal.input
    simp only [inBase, outBase]
    omega
  case slot =>
    have hcap := hlegal.slots i hi hpresent
    simp only [adBase, outBase]
    omega
  case nonce =>
    have hcap := hlegal.nonce hpresent
    simp only [nonceBase, outBase]
    omega

/-- OPEN that ended `AUTH_ERROR` had a key and both operands, and rejected them (44_aead.md R196). -/
theorem exists_operands_of_openWith_authError {C : Collaborators} {s t : State} (h : openWith C s = .next t)
    (hres : t.res = .authError) :
    s.keyed = true ∧ ∃ S L, input s = some S ∧ items s = some L ∧ aeadOpen C s.k1 s.k2 L S = none := by
  rcases openWith_cases C s with ⟨-, h'⟩ | ⟨-, -, h'⟩ | ⟨hk, S, L, hS, hL, ⟨hnone, h'⟩ | ⟨P, -, h'⟩⟩ <;>
    obtain rfl := Host.Outcome.next.inj (h'.symm.trans h)
  · cases hres
  · cases hres
  · exact ⟨hk, S, L, hS, hL, hnone⟩
  · cases hres

/-- OPEN that rejected rejects again: zeroing `OUT` left its key and its operands (60_exceptions.md R247). -/
theorem openWith_again {C : Collaborators} {s t : State} (h : openWith C s = .next t) (hres : t.res = .authError) :
    openWith C t = .next t := by
  obtain ⟨hk, S, L, hS, hL, hnone⟩ := exists_operands_of_openWith_authError h hres
  obtain rfl := eq_of_openWith_authError h hres
  obtain ⟨hinput, hitems⟩ := operands_setOut_nil (lengthsLegal_of_operands hS hL) .authError
  have hagain := openWith_of_rejected C (s := (setOut [] s).withRes .authError) hk (hinput.trans hS) (hitems.trans hL)
    hnone
  rwa [setOut_nil_setOut_nil] at hagain

/-- Settles O38: a check that fired fires again, NEW finds nothing staged, and OPEN rejects again. -/
theorem faultRepeatsUnchanged : Obligations.FaultRepeatsUnchanged := by
  intro i s t h hfault
  cases ends_of_exec h with
  | notKeyed hkey => exact exec_of_keyMissing (((sameChecked_withRes s _).keyMissing_iff i).mpr hkey)
  | lenError hkey hlen =>
    have hsame := sameChecked_withRes s .lenError
    exact exec_of_lengthRefused (fun hkey' => hkey ((hsame.keyMissing_iff i).mp hkey'))
      ((hsame.lengthRefused_iff i).mpr hlen)
  | keyError =>
    have hagain := newWith_of_kbufLen_zero Config.wired (s := (eraseInstance s).withRes .keyError) rfl
    rwa [eraseInstance_eraseInstance] at hagain
  | authError => exact openWith_again h rfl
  | ok _ _ hok => exact absurd hok hfault

end Sys2Proof.Machine
end

section
/-! PROOFS. No bus read shows a byte of a key or of the staged key material (60_exceptions.md R257; 10_state.md R31,
R32). -/

namespace Sys2Proof.Machine

/-- The two states agree on everything a bus read can show: all but the keys, the bytes of `KBUF` and the host's two
lists. -/
structure SameVisible (s s' : State) : Prop where
  keyed : s'.keyed = s.keyed
  klen : s'.klen = s.klen
  res : s'.res = s.res
  kbufLen : s'.kbufLen = s.kbufLen
  adcnt : s'.adcnt = s.adcnt
  adctl : s'.adctl = s.adctl
  nonceCtl : s'.nonceCtl = s.nonceCtl
  inLen : s'.inLen = s.inLen
  outLen : s'.outLen = s.outLen
  blocks : s'.blocks = s.blocks
  bytes : ∀ b, ¬inKbuf b → Memory.read s'.mem b = Memory.read s.mem b

theorem kindAt_of_inKbuf {a : Nat} (h : inKbuf a) : kindAt a = some .kbuf :=
  (kindAt_eq_kind_iff (r := ⟨.kbuf, 0x0100, 64, .writeOnly⟩) (by decide) a).mpr h

/-- Every byte of `KBUF` reads 0 (10_state.md R31). -/
theorem byteRead_of_inKbuf {a : Nat} (h : inKbuf a) (s : State) : byteRead s a = 0x00#8 := by
  simp only [byteRead, kindAt_of_inKbuf h]

namespace SameVisible

variable {s s' : State} (h : SameVisible s s') (a : Nat)
include h

theorem controlRead_eq : controlRead a s' = controlRead a s := by
  simp only [controlRead, resWord, statusWord, h.keyed, h.klen, h.res, h.kbufLen, h.adcnt, h.adctl, h.nonceCtl,
    h.inLen, h.outLen]

theorem byteRead_eq : byteRead s' a = byteRead s a := by
  by_cases hkbuf : inKbuf a
  · rw [byteRead_of_inKbuf hkbuf, byteRead_of_inKbuf hkbuf]
  · simp only [byteRead, h.blocks, h.bytes a hkbuf]

theorem busRead_eq (n : Nat) : busRead n a s' = busRead n a s := by
  simp only [busRead, h.controlRead_eq, h.byteRead_eq]

end SameVisible

/-- Settles O50: a control register shows no byte of memory and no key, and `KBUF` reads 0. -/
theorem keysCannotBeRead : Obligations.KeysCannotBeRead :=
  fun _ _ n a hkeyed hklen hres hkbufLen hadcnt hadctl hnonce hinLen houtLen hblocks hbytes =>
    SameVisible.busRead_eq
      ⟨hkeyed, hklen, hres, hkbufLen, hadcnt, hadctl, hnonce, hinLen, houtLen, hblocks, hbytes⟩ a n

end Sys2Proof.Machine
end

section
/-! PROOFS. The host's duties and the end of a run (70_reset_and_hazards.md R284, R287): a command word keeps the slots,
the nonce and the input as they were, and every step gives a next state. -/

namespace Sys2Proof.Machine

/-! ### The slots, the nonce and the input -/

/-- The address is a byte of `AD`, `NONCE` or `IN`, the buffers a command only reads (10_state.md R37, R39, R41). -/
def HostBuffer (a : Nat) : Prop := kindAt a = some .ad ∨ kindAt a = some .nonce ∨ kindAt a = some .inBuf

theorem kindAt_of_inOut {a : Nat} (h : inOut a) : kindAt a = some .outBuf :=
  (kindAt_eq_kind_iff (r := ⟨.outBuf, 0x4000, 4128, .readOnly⟩) (by decide) a).mpr h

theorem HostBuffer.not_inOut {a : Nat} (h : HostBuffer a) : ¬inOut a := fun hout => by
  simp [HostBuffer, kindAt_of_inOut hout] at h

theorem HostBuffer.not_inKbuf {a : Nat} (h : HostBuffer a) : ¬inKbuf a := fun hkbuf => by
  simp [HostBuffer, kindAt_of_inKbuf hkbuf] at h

/-- The slots, the nonce, the input and their lengths are as before (70_reset_and_hazards.md R284). -/
structure HostOperandsKept (s t : State) : Prop where
  host : SameHostSide s t
  bytes : ∀ a, HostBuffer a → Memory.read t.mem a = Memory.read s.mem a

section
variable {s t : State}

theorem HostOperandsKept.of_frameOfRegister {rd : RegIdx} (h : FrameOfRegister rd s t) : HostOperandsKept s t :=
  ⟨h.host, fun a _ => h.bytes a⟩

theorem HostOperandsKept.of_frameOfOutput (h : FrameOfOutput s t) : HostOperandsKept s t :=
  ⟨h.host, fun a ha => h.bytes a ha.not_inOut⟩

theorem HostOperandsKept.of_frameOfInstance (h : FrameOfInstance s t) : HostOperandsKept s t :=
  ⟨h.host, fun a ha => h.bytes a ha.not_inKbuf⟩

/-- Loading keys and writing `RES` are inside the frame of NEW, whatever the keys are (44_aead.md R188). -/
theorem frameOfInstance_loadInstance_withRes (h : FrameOfInstance s t) (a z : Bytes) (k : Nat) (c : Code) :
    FrameOfInstance s ((loadInstance a z k t).withRes c) :=
  { h with host := { h.host with } }

theorem hostOperandsKept_withRes (s : State) (c : Code) : HostOperandsKept s (s.withRes c) :=
  .of_frameOfOutput (frameOfOutput_withRes (frameOfOutput_refl s) c)

/-- In each case of `exec_cases` the command stays in the frame of its family. -/
theorem exec_hostOperandsKept {i : Instr} (h : exec i s = .next t) : HostOperandsKept s t := by
  rcases exec_cases h with ⟨c, -, rfl⟩ | ⟨rd, v, -, rfl⟩ | ⟨X, c, -, hX, rfl⟩ | ⟨-, rfl⟩ | ⟨-, a, z, -, -, rfl⟩
  · exact hostOperandsKept_withRes s c
  · exact .of_frameOfRegister (frameOfRegister_withBlock rd v s .ok)
  · exact .of_frameOfOutput (frameOfOutput_setOut_withRes hX s c)
  · exact .of_frameOfInstance (instanceRefused_eraseInstance s).frame
  · exact .of_frameOfInstance (frameOfInstance_loadInstance_withRes (frameOfInstance_eraseInstance s) a z _ .ok)

theorem runCommand_hostOperandsKept {w : Word} (h : runCommand w s = .next t) : HostOperandsKept s t := by
  rcases runCommand_cases w s with ⟨_, -, hrun⟩ | ⟨i, -, hrun⟩ <;> rw [hrun] at h
  · obtain rfl := Host.Outcome.next.inj h
    exact hostOperandsKept_withRes s .illegalCmd
  · exact exec_hostOperandsKept h

end

/-- Settles O32: an illegal word writes `RES` alone, and a command stays in the frame of its family. -/
theorem commandsKeepSlotsAndInput : Obligations.CommandsKeepSlotsAndInput := fun _ _ _ h =>
  have hkept := runCommand_hostOperandsKept h
  ⟨hkept.host, hkept.bytes⟩

/-! ### Every step gives a next state -/

theorem exists_runCommand (w : Word) (s : State) : ∃ t, runCommand w s = .next t := by
  rcases runCommand_cases w s with ⟨_, -, hrun⟩ | ⟨i, -, hrun⟩
  · exact ⟨_, hrun⟩
  · obtain ⟨t, hnext, -⟩ := exists_ends i s
    exact ⟨t, hrun.trans hnext⟩

theorem exists_issueWriteBy (n a : Nat) (v : Word) (s : State) : ∃ t, issueWriteBy exec n a v s = .next t := by
  rcases issueWriteBy_cases exec n a v s with ⟨-, h⟩ | ⟨-, -, h⟩ | ⟨-, -, h⟩
  · exact ⟨_, h⟩
  · obtain ⟨u, hu⟩ := exists_runCommand v s
    exact ⟨u.respond .writeAccepted, h.trans (congrArg (thenRespond .writeAccepted) hu)⟩
  · exact ⟨_, h⟩

/-- Every host event gives a next state: a bus error is an answer, not a stop (70_reset_and_hazards.md R287). -/
theorem exists_deliverBy (e : HostEvent) (s : State) : ∃ t, deliverBy exec e s = .next t := by
  cases e with
  | rd8 a | rd16 a | rd32 a => exact ⟨_, issueRead_eq _ a.toNat s⟩
  | wr8 a v | wr16 a v => exact exists_issueWriteBy _ a.toNat (v.setWidth 32) s
  | wr32 a v => exact exists_issueWriteBy 4 a.toNat v s
  | reset => exact ⟨resetCore s, rfl⟩

/-- With no host event left the core is idle and keeps all its state (60_exceptions.md R259). -/
theorem step_of_idle {s : State} (h : s.pending = []) : step s = .next s := by rw [step, stepBy, h]

theorem exists_step (s : State) : ∃ t, step s = .next t := by
  cases hp : s.pending with
  | nil => exact ⟨s, step_of_idle hp⟩
  | cons e rest =>
    rw [step, stepBy_of_pending hp]
    exact exists_deliverBy e (s.withPending rest)

/-- Settles O54: an idle core keeps its state, and every host event gives a next state. -/
theorem stepNeverStops : Obligations.StepNeverStops := fun s => ⟨exists_step s, step_of_idle⟩

end Sys2Proof.Machine
end
